-- ==== Sys2Proof/Word.lean ====
section
/-! DEFINITION. The byte, byte strings and the binary64 bit pattern (00_scope.md R10, 30_encoding.md R66). -/

namespace Sys2Proof

/-- A byte: an 8-bit unsigned value, bit 7 the most significant (R10). -/
abbrev Byte := BitVec 8

/-- A byte string: a finite list of bytes, index 0 first (R10). -/
abbrev Bytes := List Byte

/-- The 64 bits of an IEEE 754 binary64 operand or result field (R66). What number they denote is
`Machine.realOf` (R141). -/
abbrev F64 := BitVec 64

end Sys2Proof
end

