-- ==== Sys2Proof/Config.lean ====
section
/-! DEFINITION. The implementation parameters of 00_scope.md R6 as plain data, and the values the spec leaves
OPEN as constants without a body. The values this spec takes are in Machine/Defaults.lean. -/

namespace Sys2Proof

/-- `ROUND_MODE` (R6, R11, D17): what the source's `round` does with an exact tie. -/
inductive RoundMode where
  | halfEven
  | halfAway
  deriving DecidableEq, Repr

/-- `ALT_QUANT` (R6, R145, D18): the quantizer of the report altitude. -/
inductive AltQuant where
  | round
  | trunc
  deriving DecidableEq, Repr

/-- `TOR_ORDER` (R6, R162, D35): the byte order of the uplink time of reception. -/
inductive ByteOrder where
  | big
  | little
  deriving DecidableEq, Repr

/-- `LONE_ESC` (R6, R121, D15): what UNESCAPE does with a final 0x7D that has no successor. -/
inductive LoneEsc where
  | keep
  | drop
  deriving DecidableEq, Repr

/-- Where one length of message 101 holds its decoded fields, as payload byte offsets (R196). `waas` is the byte
and the bit of the WAAS indication, or `none` where that length carries none.
DESIGN CHOICE (log 5): hour and minute are each one whole byte in binary, and the WAAS indication is one bit. -/
structure GpsVariant where
  hour : Nat
  minute : Nat
  waas : Option (Nat × Nat)
  deriving DecidableEq, Repr

/-- A value of `GPS_LAYOUT` (R6, R196, R197, D31): the field offsets of the 12-byte and of the 21-byte payload, and
the offset of the quality status byte of the 12-byte payload. The bytes no offset names are `Config.gpsFillByte`. -/
structure GpsLayout where
  short : GpsVariant
  long : GpsVariant
  status : Nat
  deriving DecidableEq, Repr

/-- The parameters of R6, one field each. `none` in a capacity is the unbounded one; `none` in `gpsLayout` is
"`GPS_LAYOUT` is not given". `EMPTY_CALLSIGN` is not here: it has no default, so it is a constant without a body. -/
structure Params where
  bufCap : Option Nat
  outqCap : Option Nat
  ctrW : Nat
  roundMode : RoundMode
  altQuant : AltQuant
  vvelReserved : List (Nat × Nat)
  vvelPosLimit : BitVec 12
  vvelNegLimit : BitVec 12
  torOrder : ByteOrder
  vendorIds : List Byte
  gpsLayout : Option GpsLayout
  dlacAlphabet : List Byte
  loneEsc : LoneEsc
  idUplink : Byte
  idGeoalt : Byte
  idTraffic : Byte
  deriving DecidableEq, Repr

/-- Free value (log 6): the first byte of `EMPTY_CALLSIGN`, which R6 says is not the empty string. -/
opaque Config.emptyCallsignHead : Byte

/-- Free value (log 6): the bytes of `EMPTY_CALLSIGN` after its first. -/
opaque Config.emptyCallsignTail : Bytes

/-- Free value (log 5): a byte of the 12-byte message 101 that is neither its hour, its minute nor its status byte:
the firmware, count and hardware fields, whose places and coding R196 and R197 leave open. Its arguments are the
layout, count, clamped quality, hour, minute and payload offset. -/
opaque Config.gpsFillByte : GpsLayout → BitVec 32 → Byte → Byte → Byte → Nat → Byte

/-- Free value (log 7): what a u32 length or count of a result packet reads when the number does not fit 32 bits
(R65 and R66 state no encoding for it). -/
opaque Config.overlongU32 : Nat → BitVec 32

end Sys2Proof
end

