-- ==== Sys2Proof/Machine/Bytes.lean ====
section
/-! DEFINITION. Byte order, bit fields and exact arithmetic (00_scope.md R11, 20_memory.md R41, R42). -/

namespace Sys2Proof.Machine

/-- The big-endian integer of a byte string: `P` and `be(p)` of R42. -/
def beNat (p : Bytes) : Nat := p.foldl (fun a b => a * 256 + b.toNat) 0

/-- The low `k` bytes of `v`, most significant first (R41). -/
def toBE : Nat → Nat → Bytes
  | 0, _ => []
  | k + 1, v => toBE k (v / 256) ++ [BitVec.ofNat 8 v]

/-- The low `k` bytes of `v`, least significant first. -/
def toLE : Nat → Nat → Bytes
  | 0, _ => []
  | k + 1, v => BitVec.ofNat 8 v :: toLE k (v / 256)

/-- `getbits(p, o, w)` (R42): `w` bits of `p` from bit offset `o`, offset 0 being bit 7 of byte 0. -/
def getbits (p : Bytes) (o w : Nat) : Nat := (beNat p >>> (8 * p.length - o - w)) % 2 ^ w

/-- `setbits(p, o, w, v)` (R42): the string of `p`'s length whose integer has those `w` bits replaced. The field is
cleared by XOR with itself, which is the rule's AND with the complement of its mask. -/
def setbits (p : Bytes) (o w v : Nat) : Bytes :=
  let sh := 8 * p.length - o - w
  let cleared := beNat p ^^^ (getbits p o w <<< sh)
  toBE p.length (cleared ||| ((v % 2 ^ w) <<< sh))

/-- `s[a..b)` (R10): from index `a` to `b` exclusive, clipped to the length. -/
def slice (p : Bytes) (a b : Nat) : Bytes := (p.take b).drop a

/-- `clamp(x, lo, hi) = min(max(x, lo), hi)` (R11). -/
def clampInt (x lo hi : Int) : Int := min (max x lo) hi

/-- `trunc(num / den)`: the rational rounded toward zero (R11). -/
def truncQ (num : Int) (den : Nat) : Int := Int.tdiv num den

/-- `round(num / den)` for `den > 0` (R11): the nearest integer; an exact tie goes to the even one under the value
this spec takes, away from zero under the other (DESIGN CHOICE, log 13). -/
def roundQ (mode : RoundMode) (num : Int) (den : Nat) : Int :=
  let f := Int.fdiv num den
  let r := Int.fmod num den
  if 2 * r < den then f
  else if (den : Int) < 2 * r then f + 1
  else match mode with
    | .halfEven => if f % 2 = 0 then f else f + 1
    | .halfAway => if num < 0 then f else f + 1

end Sys2Proof.Machine
end

