-- ==== Sys2Proof/Machine/Defaults.lean ====
section
/-! DEFINITION. The value this spec takes for each parameter of 00_scope.md R6, the constraints the spec puts on the
parameters, and the DLAC alphabet (45_uat.md R284). -/

namespace Sys2Proof.Machine

/-- One entry of the default `DLAC_ALPHABET` (R284). -/
def dlacSymbol (c : Nat) : Byte :=
  if c = 0 then 0x03#8
  else if c ≤ 26 then BitVec.ofNat 8 (0x40 + c)
  else if c = 27 then 0x1A#8
  else if c = 28 then 0x09#8
  else if c = 29 then 0x1E#8
  else if c = 30 then 0x0A#8
  else if c = 31 then 0x7C#8
  else BitVec.ofNat 8 c

/-- The 64-entry default `DLAC_ALPHABET` (R31, R284). -/
def dlacAlphabetDefault : List Byte := (List.range 64).map dlacSymbol

/-- The parameters at the values R6 takes. The OPEN ones: `GPS_LAYOUT` is not given; `VENDOR_IDS` holds nothing
(DESIGN CHOICE, log 4). -/
def standardParams : Params where
  bufCap := none
  outqCap := none
  ctrW := 64
  roundMode := .halfEven
  altQuant := .round
  vvelReserved := [(0x1FF, 0x7FF), (0x801, 0xE01)]
  vvelPosLimit := 0x1FE#12
  vvelNegLimit := 0xE02#12
  torOrder := .big
  vendorIds := []
  gpsLayout := none
  dlacAlphabet := dlacAlphabetDefault
  loneEsc := .keep
  idUplink := 0x07#8
  idGeoalt := 0x0B#8
  idTraffic := 0x14#8

/-- `EMPTY_CALLSIGN`: OPEN, a byte string that is not the empty one (R6, R154). -/
def emptyCallsign : Bytes := Config.emptyCallsignHead :: Config.emptyCallsignTail

/-- The message IDs that have a decoder (R63). -/
def decodedIds (P : Params) : List Byte :=
  [0x00#8, 0x0A#8, 0x65#8, P.idTraffic, P.idGeoalt, P.idUplink]

/-- One length's offsets lie inside that payload, after the ID byte, and do not coincide. -/
def gpsVariantLawful (v : GpsVariant) (n : Nat) : Bool :=
  decide (1 ≤ v.hour ∧ v.hour < n ∧ 1 ≤ v.minute ∧ v.minute < n ∧ v.hour ≠ v.minute) &&
    match v.waas with
    | none => true
    | some (b, i) => decide (1 ≤ b ∧ b < n ∧ i < 8)

/-- What R196 and R197 ask of an instance of `GPS_LAYOUT`. -/
def gpsLayoutLawful (L : GpsLayout) : Bool :=
  gpsVariantLawful L.short 12 && gpsVariantLawful L.long 21 &&
    decide (1 ≤ L.status ∧ L.status < 12 ∧ L.status ≠ L.short.hour ∧ L.status ≠ L.short.minute)

/-- The constraints the spec puts on the parameters: the IDs are distinct from each other, from 0x00, 0x0A and 0x65,
and from `VENDOR_IDS` (R181, 93_implementation_defined.md I13); the alphabet has 64 entries; a counter is at most the
64 bits its u64 result shows (R22, R69); a given `GPS_LAYOUT` is lawful (R196, R197). What
the model does outside them is log 19. -/
def paramsLawful (P : Params) : Bool :=
  decide (decodedIds P).Nodup && (decodedIds P).all (fun i => !P.vendorIds.contains i) &&
    decide (P.dlacAlphabet.length = 64 ∧ P.ctrW ≤ 64) &&
    match P.gpsLayout with
    | none => true
    | some L => gpsLayoutLawful L

end Sys2Proof.Machine
end

