-- ==== Sys2Proof/Syntax.lean ====
section
/-! DEFINITION. The instructions: one constructor per row of spec/opcode_table.json. The first 21 are the host's
commands (30_encoding.md R70), then the reserved codes (R72), then the eight message rows (R63). -/

namespace Sys2Proof

/-- `ReportIn`, the operand record of ENC_OWNSHIP and ENC_TRAFFIC, its fields in packet order (R71). -/
structure ReportIn where
  status : Byte
  addressType : Byte
  address : BitVec 32
  latitude : F64
  longitude : F64
  altitude : BitVec 32
  misc : Byte
  navIntegrityCat : Byte
  navAccuracyCat : Byte
  hVelocity : Option (BitVec 32)
  vVelocity : Option (BitVec 32)
  trackHeading : F64
  emitterCategory : Byte
  callSign : Bytes
  code : Byte
  deriving DecidableEq, Repr

/-- An instruction. A command constructor holds its operands in packet order; `reservedCommand` holds the whole
packet; a message constructor holds the whole payload, byte 0 (the message ID) included. -/
inductive Instr where
  | crcCompute (data : Bytes)
  | crcCheck (data crc : Bytes)
  | escape (data : Bytes)
  | unescape (data : Bytes)
  | prepareFrame (payload : Bytes)
  | encHeartbeat (status1 status2 : Byte) (timestamp : BitVec 32) (uplinkMsgCount : Byte) (basicLongMsgCount : BitVec 16)
  | encOwnship (r : ReportIn)
  | encTraffic (r : ReportIn)
  | encGeoalt (altitude : BitVec 32) (merit : Option (BitVec 32)) (warning : Bool)
  | encGpstime (count : BitVec 32) (quality hour minute : Byte)
  | encUplink (timeOfReception : BitVec 32) (header data : Bytes)
  | decPayload (payload : Bytes)
  | addBytes (data : Bytes)
  | readOut
  | readStats
  | readStatus
  | readBuffer
  | reset
  | uatIframes (data : Bytes)
  | uatApdu (frameData : Bytes)
  | dlacDecode (data : Bytes)
  | reservedCommand (packet : Bytes)
  | msgHeartbeat (payload : Bytes)
  | msgOwnship (payload : Bytes)
  | msgTraffic (payload : Bytes)
  | msgGeoalt (payload : Bytes)
  | msgUplink (payload : Bytes)
  | msgGpstime (payload : Bytes)
  | msgVendor (payload : Bytes)
  | msgUnknown (payload : Bytes)
  deriving DecidableEq, Repr

/-- What the host hands CORE for one step: a command packet (R65), or a message payload given to the Message Codec
itself, the table's second opcode space (DESIGN CHOICE, log 2). -/
inductive HostInput where
  | packet (bytes : Bytes)
  | payload (bytes : Bytes)
  deriving DecidableEq, Repr

end Sys2Proof
end

