-- ==== Sys2Proof/Machine/Codes.lean ====
section
/-! DEFINITION. The two opcode maps: command codes (30_encoding.md R70, R72) and message IDs (R63, 43_messages.md R181). -/

namespace Sys2Proof.Machine

/-- The 21 commands of R70. -/
inductive Cmd where
  | crcCompute | crcCheck | escape | unescape | prepareFrame
  | encHeartbeat | encOwnship | encTraffic | encGeoalt | encGpstime | encUplink
  | decPayload | addBytes | readOut | readStats | readStatus | readBuffer | reset
  | uatIframes | uatApdu | dlacDecode
  deriving DecidableEq, Repr

/-- Packet byte 0 of each command (R70). -/
def codeOfCmd : Cmd → Byte
  | .crcCompute => 0x01#8
  | .crcCheck => 0x02#8
  | .escape => 0x10#8
  | .unescape => 0x11#8
  | .prepareFrame => 0x12#8
  | .encHeartbeat => 0x20#8
  | .encOwnship => 0x21#8
  | .encTraffic => 0x22#8
  | .encGeoalt => 0x23#8
  | .encGpstime => 0x24#8
  | .encUplink => 0x25#8
  | .decPayload => 0x30#8
  | .addBytes => 0x40#8
  | .readOut => 0x41#8
  | .readStats => 0x42#8
  | .readStatus => 0x43#8
  | .readBuffer => 0x44#8
  | .reset => 0x4F#8
  | .uatIframes => 0x50#8
  | .uatApdu => 0x51#8
  | .dlacDecode => 0x52#8

/-- Every command, in the order of R70. -/
def allCmds : List Cmd :=
  [.crcCompute, .crcCheck, .escape, .unescape, .prepareFrame, .encHeartbeat, .encOwnship, .encTraffic, .encGeoalt,
   .encGpstime, .encUplink, .decPayload, .addBytes, .readOut, .readStats, .readStatus, .readBuffer, .reset,
   .uatIframes, .uatApdu, .dlacDecode]

/-- The command a code selects; `none` for a reserved code (R70, R72). -/
def cmdOfCode (c : Byte) : Option Cmd := allCmds.find? (fun k => codeOfCmd k == c)

/-- The reserved code ranges as R72 lists them. -/
def isReservedCode (c : Byte) : Bool :=
  let n := c.toNat
  n = 0x00 || (0x03 ≤ n && n ≤ 0x0F) || (0x13 ≤ n && n ≤ 0x1F) || (0x26 ≤ n && n ≤ 0x2F) ||
    (0x31 ≤ n && n ≤ 0x3F) || (0x45 ≤ n && n ≤ 0x4E) || 0x53 ≤ n

/-- What a message ID selects (R63). -/
inductive MsgKind where
  | heartbeat | ownship | traffic | geoalt | uplink | gpstime | vendor | unknown
  deriving DecidableEq, Repr

/-- The decoder an ID selects, in the order R181 tests them. -/
def kindOfId (P : Params) (id : Byte) : MsgKind :=
  if P.vendorIds.contains id then .vendor
  else if id = 0x00#8 then .heartbeat
  else if id = 0x0A#8 then .ownship
  else if id = P.idTraffic then .traffic
  else if id = P.idGeoalt then .geoalt
  else if id = P.idUplink then .uplink
  else if id = 0x65#8 then .gpstime
  else .unknown

/-- The row of the message-ID map a payload belongs to. The row MSG_UNKNOWN holds the empty payload as well
(DESIGN CHOICE, log 11). -/
def kindOfPayload (P : Params) : Bytes → MsgKind
  | [] => .unknown
  | id :: _ => kindOfId P id

end Sys2Proof.Machine
end

