-- ==== Sys2Proof/WellFormed.lean ====
section
/-! DEFINITION. When an instruction is one that some host input encodes, given the parameters. -/

namespace Sys2Proof

/-- A `Bytes` operand fits its u32 length field (30_encoding.md R65, R66, D53). -/
def fitsU32 (b : Bytes) : Bool := decide (b.length < 2 ^ 32)

/-- An instruction is well formed: its `Bytes` operands fit their length fields; a `reservedCommand` is the empty
packet or begins with a reserved code (R72); a message instruction's payload has the ID of its row (R63). -/
def Instr.wf (P : Params) : Instr → Bool
  | .crcCompute data => fitsU32 data
  | .crcCheck data crc => fitsU32 data && fitsU32 crc
  | .escape data => fitsU32 data
  | .unescape data => fitsU32 data
  | .prepareFrame payload => fitsU32 payload
  | .encHeartbeat _ _ _ _ _ => true
  | .encOwnship r => fitsU32 r.callSign
  | .encTraffic r => fitsU32 r.callSign
  | .encGeoalt _ _ _ => true
  | .encGpstime _ _ _ _ => true
  | .encUplink _ header data => fitsU32 header && fitsU32 data
  | .decPayload payload => fitsU32 payload
  | .addBytes data => fitsU32 data
  | .readOut => true
  | .readStats => true
  | .readStatus => true
  | .readBuffer => true
  | .reset => true
  | .uatIframes data => fitsU32 data
  | .uatApdu frameData => fitsU32 frameData
  | .dlacDecode data => fitsU32 data
  | .reservedCommand packet =>
    match packet with
    | [] => true
    | c :: _ => Machine.isReservedCode c
  | .msgHeartbeat p => Machine.kindOfPayload P p = .heartbeat
  | .msgOwnship p => Machine.kindOfPayload P p = .ownship
  | .msgTraffic p => Machine.kindOfPayload P p = .traffic
  | .msgGeoalt p => Machine.kindOfPayload P p = .geoalt
  | .msgUplink p => Machine.kindOfPayload P p = .uplink
  | .msgGpstime p => Machine.kindOfPayload P p = .gpstime
  | .msgVendor p => Machine.kindOfPayload P p = .vendor
  | .msgUnknown p => Machine.kindOfPayload P p = .unknown

end Sys2Proof
end

