-- ==== Sys2Proof/Decode.lean ====
section
/-! DEFINITION. The packet decoder (30_encoding.md R65 to R72), the payload classifier (R63), the encoder of both, and the
host's reading of one table word. -/

namespace Sys2Proof

open Machine

/-- Why a command packet stands for no instruction: an assigned code whose operands cannot be parsed (R67). -/
inductive Reject where
  | operandFormatError
  deriving DecidableEq, Repr

/-! ## Operand parsers (R66): each takes its bytes off the front -/

/-- `k` bytes as a big-endian number. -/
def takeNat (k : Nat) (bs : Bytes) : Option (Nat × Bytes) :=
  if bs.length < k then none else some (beNat (bs.take k), bs.drop k)

/-- A big-endian field of `8 * k` bits. -/
def takeBV (k : Nat) (bs : Bytes) : Option (BitVec (8 * k) × Bytes) :=
  (takeNat k bs).map fun (v, r) => (BitVec.ofNat (8 * k) v, r)

/-- `Bytes`: a u32 length, then that many bytes. -/
def takeBytes (bs : Bytes) : Option (Bytes × Bytes) := do
  let (n, r) ← takeNat 4 bs
  if r.length < n then none else some (r.take n, r.drop n)

/-- `Bool`: 0x00 or 0x01. -/
def takeBool : Bytes → Option (Bool × Bytes)
  | [] => none
  | b :: r => if b = 0x00#8 then some (false, r) else if b = 0x01#8 then some (true, r) else none

/-- `Option T` with `T` an i32 or u32: 0x00, or 0x01 and the value. -/
def takeOption32 : Bytes → Option (Option (BitVec 32) × Bytes)
  | [] => none
  | b :: r =>
    if b = 0x00#8 then some (none, r)
    else if b = 0x01#8 then (takeBV 4 r).map fun (v, r) => (some v, r)
    else none

/-- The `ReportIn` record, its fields in the order of R71. -/
def takeReportIn (bs : Bytes) : Option (ReportIn × Bytes) := do
  let (status, r) ← takeBV 1 bs
  let (addressType, r) ← takeBV 1 r
  let (address, r) ← takeBV 4 r
  let (latitude, r) ← takeBV 8 r
  let (longitude, r) ← takeBV 8 r
  let (altitude, r) ← takeBV 4 r
  let (misc, r) ← takeBV 1 r
  let (navIntegrityCat, r) ← takeBV 1 r
  let (navAccuracyCat, r) ← takeBV 1 r
  let (hVelocity, r) ← takeOption32 r
  let (vVelocity, r) ← takeOption32 r
  let (trackHeading, r) ← takeBV 8 r
  let (emitterCategory, r) ← takeBV 1 r
  let (callSign, r) ← takeBytes r
  let (code, r) ← takeBV 1 r
  return ({ status, addressType, address, latitude, longitude, altitude, misc, navIntegrityCat, navAccuracyCat,
            hVelocity, vVelocity, trackHeading, emitterCategory, callSign, code }, r)

/-- A command's operands in the order of its signature (R70), and the bytes left after them. -/
def takeOperands (k : Cmd) (bs : Bytes) : Option (Instr × Bytes) :=
  match k with
  | .crcCompute => (takeBytes bs).map fun (d, r) => (.crcCompute d, r)
  | .crcCheck => do
    let (d, r) ← takeBytes bs
    let (c, r) ← takeBytes r
    return (.crcCheck d c, r)
  | .escape => (takeBytes bs).map fun (d, r) => (.escape d, r)
  | .unescape => (takeBytes bs).map fun (d, r) => (.unescape d, r)
  | .prepareFrame => (takeBytes bs).map fun (d, r) => (.prepareFrame d, r)
  | .encHeartbeat => do
    let (s1, r) ← takeBV 1 bs
    let (s2, r) ← takeBV 1 r
    let (ts, r) ← takeBV 4 r
    let (u, r) ← takeBV 1 r
    let (bl, r) ← takeBV 2 r
    return (.encHeartbeat s1 s2 ts u bl, r)
  | .encOwnship => (takeReportIn bs).map fun (p, r) => (.encOwnship p, r)
  | .encTraffic => (takeReportIn bs).map fun (p, r) => (.encTraffic p, r)
  | .encGeoalt => do
    let (a, r) ← takeBV 4 bs
    let (m, r) ← takeOption32 r
    let (w, r) ← takeBool r
    return (.encGeoalt a m w, r)
  | .encGpstime => do
    let (c, r) ← takeBV 4 bs
    let (q, r) ← takeBV 1 r
    let (h, r) ← takeBV 1 r
    let (m, r) ← takeBV 1 r
    return (.encGpstime c q h m, r)
  | .encUplink => do
    let (t, r) ← takeBV 4 bs
    let (h, r) ← takeBytes r
    let (d, r) ← takeBytes r
    return (.encUplink t h d, r)
  | .decPayload => (takeBytes bs).map fun (d, r) => (.decPayload d, r)
  | .addBytes => (takeBytes bs).map fun (d, r) => (.addBytes d, r)
  | .readOut => some (.readOut, bs)
  | .readStats => some (.readStats, bs)
  | .readStatus => some (.readStatus, bs)
  | .readBuffer => some (.readBuffer, bs)
  | .reset => some (.reset, bs)
  | .uatIframes => (takeBytes bs).map fun (d, r) => (.uatIframes d, r)
  | .uatApdu => (takeBytes bs).map fun (d, r) => (.uatApdu d, r)
  | .dlacDecode => (takeBytes bs).map fun (d, r) => (.dlacDecode d, r)

/-- The command packet decoder (R65, R67, R72): a reserved code or the empty packet is the row RESERVED_COMMAND; the
packet must end exactly after the last operand. -/
def decodePacket : Bytes → Except Reject Instr
  | [] => .ok (.reservedCommand [])
  | c :: ops =>
    match cmdOfCode c with
    | none => .ok (.reservedCommand (c :: ops))
    | some k =>
      match takeOperands k ops with
      | some (i, []) => .ok i
      | _ => .error .operandFormatError

/-- The message row a payload belongs to (R63, R181). -/
def decodePayload (P : Params) (p : Bytes) : Instr :=
  match kindOfPayload P p with
  | .heartbeat => .msgHeartbeat p
  | .ownship => .msgOwnship p
  | .traffic => .msgTraffic p
  | .geoalt => .msgGeoalt p
  | .uplink => .msgUplink p
  | .gpstime => .msgGpstime p
  | .vendor => .msgVendor p
  | .unknown => .msgUnknown p

/-- The decoder of a host input. -/
def decode (P : Params) : HostInput → Except Reject Instr
  | .packet bs => decodePacket bs
  | .payload p => .ok (decodePayload P p)

/-! ## The encoder -/

/-- `Bytes` as an operand. -/
def putBytes (d : Bytes) : Bytes := toBE 4 d.length ++ d

/-- `Bool` as an operand. -/
def putBool (b : Bool) : Bytes := if b then [0x01#8] else [0x00#8]

/-- `Option` of a 32-bit value as an operand. -/
def putOption32 : Option (BitVec 32) → Bytes
  | none => [0x00#8]
  | some v => 0x01#8 :: toBE 4 v.toNat

/-- `ReportIn` as an operand (R71). -/
def putReportIn (p : ReportIn) : Bytes :=
  [p.status, p.addressType] ++ toBE 4 p.address.toNat ++ toBE 8 p.latitude.toNat ++ toBE 8 p.longitude.toNat ++
    toBE 4 p.altitude.toNat ++ [p.misc, p.navIntegrityCat, p.navAccuracyCat] ++ putOption32 p.hVelocity ++
    putOption32 p.vVelocity ++ toBE 8 p.trackHeading.toNat ++ [p.emitterCategory] ++ putBytes p.callSign ++ [p.code]

/-- The host input of an instruction: the packet of a command (R65, R70), the payload of a message row (R63). -/
def encode : Instr → HostInput
  | .crcCompute d => .packet (codeOfCmd .crcCompute :: putBytes d)
  | .crcCheck d c => .packet (codeOfCmd .crcCheck :: (putBytes d ++ putBytes c))
  | .escape d => .packet (codeOfCmd .escape :: putBytes d)
  | .unescape d => .packet (codeOfCmd .unescape :: putBytes d)
  | .prepareFrame d => .packet (codeOfCmd .prepareFrame :: putBytes d)
  | .encHeartbeat s1 s2 ts u bl =>
    .packet (codeOfCmd .encHeartbeat :: ([s1, s2] ++ toBE 4 ts.toNat ++ [u] ++ toBE 2 bl.toNat))
  | .encOwnship p => .packet (codeOfCmd .encOwnship :: putReportIn p)
  | .encTraffic p => .packet (codeOfCmd .encTraffic :: putReportIn p)
  | .encGeoalt a m w => .packet (codeOfCmd .encGeoalt :: (toBE 4 a.toNat ++ putOption32 m ++ putBool w))
  | .encGpstime c q h m => .packet (codeOfCmd .encGpstime :: (toBE 4 c.toNat ++ [q, h, m]))
  | .encUplink t h d => .packet (codeOfCmd .encUplink :: (toBE 4 t.toNat ++ putBytes h ++ putBytes d))
  | .decPayload d => .packet (codeOfCmd .decPayload :: putBytes d)
  | .addBytes d => .packet (codeOfCmd .addBytes :: putBytes d)
  | .readOut => .packet [codeOfCmd .readOut]
  | .readStats => .packet [codeOfCmd .readStats]
  | .readStatus => .packet [codeOfCmd .readStatus]
  | .readBuffer => .packet [codeOfCmd .readBuffer]
  | .reset => .packet [codeOfCmd .reset]
  | .uatIframes d => .packet (codeOfCmd .uatIframes :: putBytes d)
  | .uatApdu d => .packet (codeOfCmd .uatApdu :: putBytes d)
  | .dlacDecode d => .packet (codeOfCmd .dlacDecode :: putBytes d)
  | .reservedCommand p => .packet p
  | .msgHeartbeat p => .payload p
  | .msgOwnship p => .payload p
  | .msgTraffic p => .payload p
  | .msgGeoalt p => .payload p
  | .msgUplink p => .payload p
  | .msgGpstime p => .payload p
  | .msgVendor p => .payload p
  | .msgUnknown p => .payload p

/-! ## One word of the opcode table -/

/-- The payload length of a message row (R63); message 101 at its 12-byte form. -/
def rowLength : MsgKind → Nat
  | .heartbeat => 7
  | .ownship => 28
  | .traffic => 28
  | .geoalt => 5
  | .uplink => 436
  | .gpstime => 12
  | .vendor => 1
  | .unknown => 1

/-- `bs` continued with zero bytes up to `n` bytes. -/
def padZeros (n : Nat) (bs : Bytes) : Bytes := bs ++ List.replicate (n - bs.length) 0x00#8

/-- The shortest continuation of `bs` by zero bytes that is a whole packet; `bs` itself where there is none within the
longest packet of zero operands (ENC_OWNSHIP's). -/
def padPacket (bs : Bytes) : Bytes :=
  ((List.range 64).map (fun k => bs ++ List.replicate k 0x00#8)).find? (fun q =>
    match decodePacket q with
    | .ok _ => true
    | .error _ => false) |>.getD bs

/-- The host input a table word stands for: byte 0 in bits 7..0. An assigned command code makes a packet; otherwise an
ID with a decoder makes a payload of its row's length; otherwise the packet of a reserved code. The two opcode
spaces share the number 0x00 and others, which as command codes are reserved: there the message row is taken (DESIGN CHOICE,
log 10). -/
def tableInput (nbits w : Nat) : HostInput :=
  let bs := toLE ((nbits + 7) / 8) w
  match bs with
  | [] => .packet []
  | c :: _ =>
    if (cmdOfCode c).isSome then .packet (padPacket bs)
    else if (decodedIds standardParams).contains c then
      .payload (padZeros (rowLength (kindOfId standardParams c)) bs)
    else .packet bs

/-- The instruction the decoder reads from a table word, every bit above `nbits` zero. -/
def decodeTableWord (nbits w : Nat) : Option Instr :=
  match decode standardParams (tableInput nbits w) with
  | .ok i => some i
  | .error _ => none

end Sys2Proof
end

