-- ==== Sys2Proof/Machine/State.lean ====
section
/-! DEFINITION. The state of CORE (10_state.md R22, R29, R32), the decode results it queues (43_messages.md R180), and the
outcomes of a step that are no next state. -/

namespace Sys2Proof.Machine

/-- The report record of an ownship or traffic report, fields and widths of R180. Latitude, longitude and track are
binary64 bits; altitude (ft) and vertical velocity (fpm) are exact integers. -/
structure Report where
  status : BitVec 4
  addressType : BitVec 4
  address : BitVec 24
  latitude : F64
  longitude : F64
  altitude : Int
  misc : BitVec 4
  navIntegrityCat : BitVec 4
  navAccuracyCat : BitVec 4
  hVelocity : Option (BitVec 12)
  vVelocity : Option Int
  trackHeading : F64
  emitterCategory : Byte
  callSign : Bytes
  code : BitVec 4
  deriving DecidableEq, Repr

/-- The recorded reasons an `Invalid` result carries (R180, 60_exceptions.md R300). -/
inductive InvalidReason where
  | malformedField
  | invalidTimeField
  deriving DecidableEq, Repr

/-- A decode result (R180). -/
inductive DecodeResult where
  | heartbeat (status1 status2 : Byte) (timestamp : BitVec 32) (uplinkMsgCount : Byte) (basicLongMsgCount : BitVec 16)
  | ownshipReport (r : Report)
  | trafficReport (r : Report)
  | geometricAltitude (altitude : Int) (verticalMetrics : BitVec 16)
  | gpsTime (hour minute : Byte) (waas : Option Bool)
  | uplinkData (timeOfReception : BitVec 24) (header data : Bytes)
  | unknown (id : Byte) (payload : Bytes)
  | invalid (reason : InvalidReason)
  | absent
  deriving DecidableEq, Repr

/-- One entry of STATS (R27): the counters of one observed message ID. -/
structure StatEntry where
  id : Byte
  good : BitVec 64
  bad : BitVec 64
  deriving DecidableEq, Repr

/-- Why a step is refused in the spec's sense (R29): the mark the state element REFUSED takes. It is a value of the
state, not an outcome that stops the machine. -/
inductive RefusalReason where
  /-- An append would make BUF longer than `BUF_CAP` (44_stream.md R231). -/
  | bufferOverflow
  /-- An enqueue would make OUTQ longer than `OUTQ_CAP` (R237). -/
  | outqOverflow
  /-- A payload's ID is in `VENDOR_IDS` (R181, R198). -/
  | vendorLayoutNotInSource
  /-- A GPS-time step needs `GPS_LAYOUT` and it is not given (R196, R197). -/
  | gpsLayoutOpen
  deriving DecidableEq, Repr

/-- CORE between two commands. The elements of R22, then the model's own fields (DESIGN CHOICE, log 1 and log 3):
`params`, the parameters of R6, fixed for a run; `input`, the packets and payloads the host has yet to hand over, first
one first; `results`, the result packets CORE has answered, oldest first (70_reset_and_hazards.md R351). -/
structure State where
  /-- BUF: bytes received and not yet consumed (R23). -/
  buf : Bytes
  /-- SYNC: `true` is Synchronized (R24). -/
  sync : Bool
  /-- RESYNC_COUNT (R25). -/
  resyncCount : BitVec 64
  /-- TOTAL_FRAMES (R26). -/
  totalFrames : BitVec 64
  /-- STATS, in ascending ID order, one entry an ID (R27; DESIGN CHOICE, log 18). -/
  stats : List StatEntry
  /-- OUTQ, oldest first (R28). -/
  outq : List DecodeResult
  /-- REFUSED (R29). -/
  refused : Option RefusalReason
  /-- The model's own: the parameters of R6. -/
  params : Params
  /-- The model's own: what the host will hand over, first one first. -/
  input : List HostInput
  /-- The model's own: the result packets so far, oldest first. -/
  results : List Bytes
  deriving DecidableEq, Repr

/-- CORE as created (R32, R330): every element at the value R32 gives; no command pending and no result given; the
parameters at the values R6 takes (log 3, log 4). -/
def State.reset : State where
  buf := []
  sync := false
  resyncCount := 0#64
  totalFrames := 0#64
  stats := []
  outq := []
  refused := none
  params := standardParams
  input := []
  results := []

/-- What stops the machine with a fault: nothing. CORE has no trap (60_exceptions.md R312), every error is the status of a
command's own result (R301), and 93_implementation_defined.md uses neither fault nor stuck. So the type has no constructor. -/
inductive Fault where
  deriving DecidableEq, Repr

/-- Why a step has no outcome in the model. -/
inductive Refusal where
  /-- Raised by an arm of `exec` whose instruction has no meaning yet; safe: it claims nothing. No arm raises it. -/
  | notModelled (mnemonic : String)
  deriving DecidableEq, Repr

end Sys2Proof.Machine
end

