-- ==== Sys2Proof/Machine/Flags.lean ====
section
/-! DEFINITION. The sync flag and the STATUS word (10_state.md R24, R33), the wrapping counters (R25 to R27), and the status
codes (60_exceptions.md R300). CORE has no other flag. -/

namespace Sys2Proof.Machine

/-- SYNC set by RESYNC cases (b) and (c) (R24, 44_stream.md R234). -/
def State.setSync (s : State) : State := { s with sync := true }

/-- SYNC cleared by EXTRACT when BUF does not start with a flag byte (R24, R234). -/
def State.clearSync (s : State) : State := { s with sync := false }

/-- The STATUS word: bit 0 is SYNC, bits 31:1 read 0 (R33). -/
def statusWord (sync : Bool) : BitVec 32 := if sync then 1#32 else 0#32

/-- A statistics counter plus 1, modulo 2 to the `CTR_W` (R25, R26, R27, D9; above 64 it acts as 64,
log 13). -/
def bump (w : Nat) (c : BitVec 64) : BitVec 64 := BitVec.ofNat 64 ((c.toNat + 1) % 2 ^ w)

/-- STATS with an entry for `id`: a new one has both counters 0 (R27, "created lazily"). -/
def ensureEntry (id : Byte) : List StatEntry → List StatEntry
  | [] => [{ id := id, good := 0#64, bad := 0#64 }]
  | e :: es =>
    if id = e.id then e :: es
    else if id < e.id then { id := id, good := 0#64, bad := 0#64 } :: e :: es
    else e :: ensureEntry id es

/-- The `good` counter of `id` plus 1 (R27). -/
def countGood (w : Nat) (id : Byte) (l : List StatEntry) : List StatEntry :=
  l.map fun e => if e.id = id then { e with good := bump w e.good } else e

/-- The `bad` counter of `id` plus 1 (R27). -/
def countBad (w : Nat) (id : Byte) (l : List StatEntry) : List StatEntry :=
  l.map fun e => if e.id = id then { e with bad := bump w e.bad } else e

/-- The entry of an ID, absent where the ID was never observed (R27, R34). -/
def lookupStat (l : List StatEntry) (id : Byte) : Option StatEntry := l.find? fun e => e.id == id

/-- The error codes of R300. -/
inductive Status where
  | ok | frameTooShort | crcMismatch | unknownMessageId | malformedField | invalidTimeField
  | encodeValueOutOfRange | crcLengthError | illegalCommand | operandFormatError | empty
  deriving DecidableEq, Repr

/-- The code of each (R300). -/
def Status.code : Status → Byte
  | .ok => 0x00#8
  | .frameTooShort => 0x01#8
  | .crcMismatch => 0x02#8
  | .unknownMessageId => 0x03#8
  | .malformedField => 0x04#8
  | .invalidTimeField => 0x05#8
  | .encodeValueOutOfRange => 0x06#8
  | .crcLengthError => 0x07#8
  | .illegalCommand => 0x08#8
  | .operandFormatError => 0x09#8
  | .empty => 0x0A#8

/-- The reason byte of an `Invalid` result (30_encoding.md R68). -/
def InvalidReason.code : InvalidReason → Byte
  | .malformedField => Status.code .malformedField
  | .invalidTimeField => Status.code .invalidTimeField

end Sys2Proof.Machine
end

