-- ==== Sys2Proof/Machine/Operands.lean ====
section
/-! DEFINITION. What a binary64 operand denotes and how an exact result becomes one (42_fields.md R141), the values a command
returns, and their encodings (30_encoding.md R66, R68, R69). The operand parsers of a packet are in Decode.lean. -/

namespace Sys2Proof.Machine

/-- What a binary64 denotes: no number, an infinity, or the exact rational `num / den` with `den > 0` (R141; log 14). -/
inductive RealVal where
  | nan
  | infinite (negative : Bool)
  | finite (num : Int) (den : Nat)
  deriving DecidableEq, Repr

/-- The number a binary64 denotes (IEEE 754: sign bit 63, exponent bits 62:52 biased by 1023, fraction bits 51:0;
exponent 0 is subnormal, exponent 2047 is infinity or NaN). -/
def realOf (b : F64) : RealVal :=
  let negative := b.msb
  let e := (b.extractLsb' 52 11).toNat
  let f := (b.extractLsb' 0 52).toNat
  if e = 2047 then (if f = 0 then .infinite negative else .nan)
  else
    let m : Nat := if e = 0 then f else 2 ^ 52 + f
    let x := if e = 0 then 1 else e
    let mag : Nat := m * 2 ^ (x - 1075)
    .finite (if negative then -(mag : Int) else (mag : Int)) (2 ^ (1075 - x))

/-- The binary64 of `m / 2^k` for `|m| < 2^53` with a normal exponent, which is exact; zero is +0
(R141; DESIGN CHOICE, log 12). -/
def f64OfDyadic (m : Int) (k : Nat) : F64 :=
  if m = 0 then 0#64
  else
    let a := m.natAbs
    let e := a.log2
    let sign := if m < 0 then 2 ^ 63 else 0
    BitVec.ofNat 64 (sign + (e + 1023 - k) * 2 ^ 52 + (a * 2 ^ (52 - e) - 2 ^ 52))

/-- An I-frame (45_uat.md R270, 30_encoding.md R69). -/
structure IFrame where
  length : BitVec 16
  type : BitVec 8
  data : Bytes
  deriving DecidableEq, Repr

/-- An application PDU (45_uat.md R274, R275). -/
structure Apdu where
  productId : BitVec 16
  hour : Byte
  minute : Byte
  payload : Bytes
  deriving DecidableEq, Repr

/-- The result value of a command, by its type (R70). -/
inductive Value where
  | unit
  | bool (b : Bool)
  | count (n : Nat)
  | bytes (b : Bytes)
  | decoded (r : DecodeResult)
  | stats (totalFrames resyncCount : BitVec 64) (perType : List StatEntry)
  | words (status : BitVec 32) (bufLen outqLen : Nat)
  | frames (l : List IFrame)
  | apdu (a : Option Apdu)
  deriving DecidableEq, Repr

/-- A u32 length or count (R65). A number that does not fit 32 bits has no encoding in the spec: it reads a free
value (log 7). -/
def putU32 (n : Nat) : Bytes := if n < 2 ^ 32 then toBE 4 n else toBE 4 (Config.overlongU32 n).toNat

/-- `Bytes` as a result: u32 length, then the bytes (R66). -/
def putBytesResult (b : Bytes) : Bytes := putU32 b.length ++ b

/-- `i32`: 4 bytes, two's complement (R66). -/
def putI32 (x : Int) : Bytes := toBE 4 (BitVec.ofInt 32 x).toNat

/-- `Bool` as a result (R66). -/
def putBoolResult (b : Bool) : Bytes := if b then [0x01#8] else [0x00#8]

/-- `Option T` as a result: 0x00, or 0x01 and the value (R66). -/
def putOptionResult {α : Type} (f : α → Bytes) : Option α → Bytes
  | none => [0x00#8]
  | some a => 0x01#8 :: f a

/-- The `Report` record, its fields in the order of R68. -/
def putReport (r : Report) : Bytes :=
  [r.status.setWidth 8, r.addressType.setWidth 8] ++ toBE 4 r.address.toNat ++ toBE 8 r.latitude.toNat ++
    toBE 8 r.longitude.toNat ++ putI32 r.altitude ++
    [r.misc.setWidth 8, r.navIntegrityCat.setWidth 8, r.navAccuracyCat.setWidth 8] ++
    putOptionResult (fun v => toBE 2 v.toNat) r.hVelocity ++ putOptionResult putI32 r.vVelocity ++
    toBE 8 r.trackHeading.toNat ++ [r.emitterCategory] ++ putBytesResult r.callSign ++ [r.code.setWidth 8]

/-- A `DecodeResult`: its tag, then its variant's fields (R68). -/
def putDecodeResult : DecodeResult → Bytes
  | .heartbeat s1 s2 ts u bl => 0x00#8 :: ([s1, s2] ++ toBE 4 ts.toNat ++ [u] ++ toBE 2 bl.toNat)
  | .ownshipReport r => 0x01#8 :: putReport r
  | .trafficReport r => 0x02#8 :: putReport r
  | .geometricAltitude a vm => 0x03#8 :: (putI32 a ++ toBE 2 vm.toNat)
  | .gpsTime h m w => 0x04#8 :: ([h, m] ++ putOptionResult putBoolResult w)
  | .uplinkData t h d => 0x05#8 :: (toBE 4 t.toNat ++ putBytesResult h ++ putBytesResult d)
  | .unknown id p => 0x06#8 :: (id :: putBytesResult p)
  | .invalid reason => [0x07#8, reason.code]
  | .absent => [0x08#8]

/-- `Entry` of `Stats` (R69). -/
def putStatEntry (e : StatEntry) : Bytes := e.id :: (toBE 8 e.good.toNat ++ toBE 8 e.bad.toNat)

/-- `List T`: u32 count, then the elements (R66). -/
def putList {α : Type} (f : α → Bytes) (l : List α) : Bytes := putU32 l.length ++ l.flatMap f

/-- `IFrame` (R69). -/
def putIFrame (f : IFrame) : Bytes := toBE 2 f.length.toNat ++ [f.type] ++ putBytesResult f.data

/-- `Apdu` (R69). -/
def putApdu (a : Apdu) : Bytes := toBE 2 a.productId.toNat ++ [a.hour, a.minute] ++ putBytesResult a.payload

/-- The bytes of a result value after the status byte (R65, R66, R69, 10_state.md R33). -/
def Value.encode : Value → Bytes
  | .unit => []
  | .bool b => putBoolResult b
  | .count n => putU32 n
  | .bytes b => putBytesResult b
  | .decoded r => putDecodeResult r
  | .stats t r l => toBE 8 t.toNat ++ toBE 8 r.toNat ++ putList putStatEntry l
  | .words st b q => toBE 4 st.toNat ++ toBE 4 (min b (2 ^ 32 - 1)) ++ toBE 4 (min q (2 ^ 32 - 1))
  | .frames l => putList putIFrame l
  | .apdu a => putOptionResult putApdu a

end Sys2Proof.Machine
end

