-- ==== Sys2Proof/Machine/Ops.lean ====
section
/-! DEFINITION. The named operations every meaning is built from: how a command ends (00_scope.md R9, R12; 10_state.md R29;
60_exceptions.md R300, R301), the buffer primitives (20_memory.md R43) and the output queue (44_stream.md R237). CORE has no
trap entry and no trap return (R312, R313): what stands in their place is `State.raise`, which ends a command with a
status and writes no state of CORE. -/

namespace Sys2Proof.Machine

/-- CORE answers a result packet (30_encoding.md R65). -/
def State.answer (s : State) (packet : Bytes) : State := { s with results := s.results ++ [packet] }

/-- `return v`: status `OK` and the value (R12, R65). -/
def State.returnValue (s : State) (v : Value) : State := s.answer (Status.code .ok :: v.encode)

/-- `raise E`: the status alone, and no other state written (R12, R65, R301). -/
def State.raise (s : State) (e : Status) : State := s.answer [e.code]

/-- `refuse r`: REFUSED takes the mark and nothing else is written, a result packet neither (R12, R29, R305;
DEDUCED, log 8; a later refusal overwrites the mark, log 20). -/
def State.refuse (s : State) (r : RefusalReason) : State := { s with refused := some r }

/-- How a pure command ends: with a value, a status or a refusal (R9, R18). -/
inductive Ending where
  | value (v : Value)
  | raised (e : Status)
  | refused (r : RefusalReason)
  deriving DecidableEq, Repr

/-- A pure command's whole effect on the state (R18, R301): its ending. -/
def State.finish (s : State) : Ending → State
  | .value v => s.returnValue v
  | .raised e => s.raise e
  | .refused r => s.refuse r

/-- A command whose checks may raise ends with its value or with the status raised. -/
def endingOf (v : Except Status Value) : Ending :=
  match v with
  | .ok v => .value v
  | .error e => .raised e

/-- `BufFind(b, from)`: the least index at or after `from` that holds `b` (R43). -/
def bufFind (buf : Bytes) (b : Byte) (start : Nat) : Option Nat :=
  ((buf.drop start).findIdx? (fun x => x == b)).map (· + start)

/-- `BufDrop(k)` (R43). -/
def State.bufDrop (s : State) (k : Nat) : State := { s with buf := s.buf.drop k }

/-- `BufAppend(d)`: refused past a finite `BUF_CAP`, before any byte is appended (R43, R231). -/
def State.bufAppend (s : State) (d : Bytes) : Except RefusalReason State :=
  match s.params.bufCap with
  | some cap => if cap < s.buf.length + d.length then .error .bufferOverflow else .ok { s with buf := s.buf ++ d }
  | none => .ok { s with buf := s.buf ++ d }

/-- `Enqueue(r)`: refused when OUTQ already holds a finite `OUTQ_CAP` of entries (R237). -/
def State.enqueue (s : State) (r : DecodeResult) : Except RefusalReason State :=
  match s.params.outqCap with
  | some cap => if cap ≤ s.outq.length then .error .outqOverflow else .ok { s with outq := s.outq ++ [r] }
  | none => .ok { s with outq := s.outq ++ [r] }

end Sys2Proof.Machine
end

