-- ==== Sys2Proof/Machine/Fields.lean ====
section
/-! DEFINITION. The field encoders and decoders (42_fields.md R140 to R162), and each codec run both ways, which the
quantization laws of R163 speak of. -/

namespace Sys2Proof.Machine

/-- `pack_N(v)` for `N = 8 * k` (R140): the only encode step that fails instead of clamping. -/
def pack (k : Nat) (v : Int) : Except Status Bytes :=
  if v < 0 ∨ (2 : Int) ^ (8 * k) ≤ v then .error .encodeValueOutOfRange else .ok (toBE k v.toNat)

/-- Degrees clamped to `[-limit, limit]` as an exact rational; NaN raises, an infinity clamps (R141, R142, R143). -/
def clampDegrees (limit : Nat) (deg : F64) : Except Status (Int × Nat) :=
  match realOf deg with
  | .nan => .error .encodeValueOutOfRange
  | .infinite negative => .ok (if negative then -(limit : Int) else (limit : Int), 1)
  | .finite num den =>
    if num > (limit * den : Nat) then .ok ((limit : Int), 1)
    else if num < -((limit * den : Nat) : Int) then .ok (-(limit : Int), 1)
    else .ok (num, den)

/-- The 24-bit two's complement code of clamped degrees: scale 2^23/180, truncated toward zero (R142, R143). -/
def coordCode (q : Int × Nat) : BitVec 24 := BitVec.ofInt 24 (truncQ (q.1 * 2 ^ 23) (180 * q.2))

/-- `lat_enc` (R142). -/
def latEnc (deg : F64) : Except Status (BitVec 24) := (clampDegrees 90 deg).map coordCode

/-- `lon_enc` (R143). -/
def lonEnc (deg : F64) : Except Status (BitVec 24) := (clampDegrees 180 deg).map coordCode

/-- `coord_dec` (R144): the exact binary64 of `sext_24(raw) * 180 / 2^23`. -/
def coordDec (raw : BitVec 24) : F64 := f64OfDyadic (raw.toInt * 180) 23

/-- `alt_enc` (R145). -/
def altEnc (quant : AltQuant) (mode : RoundMode) (ft : Int) : BitVec 12 :=
  let q := match quant with
    | .round => roundQ mode (ft + 1000) 25
    | .trunc => truncQ (ft + 1000) 25
  BitVec.ofInt 12 (clampInt q 0 0xFFE)

/-- `alt_dec` (R146). -/
def altDec (raw : BitVec 12) : Int := (raw.toNat : Int) * 25 - 1000

/-- `hvel_enc` (R147). -/
def hvelEnc : Option Int → BitVec 12
  | none => 0xFFF#12
  | some k => BitVec.ofInt 12 (clampInt k 0 0xFFE)

/-- `hvel_dec` (R148). -/
def hvelDec (raw : BitVec 12) : Option (BitVec 12) := if raw = 0xFFF#12 then none else some raw

/-- `vvel_enc` (R149). -/
def vvelEnc (P : Params) : Option Int → BitVec 12
  | none => 0x800#12
  | some f =>
    if f > 32576 then P.vvelPosLimit
    else if f < -32576 then P.vvelNegLimit
    else BitVec.ofInt 12 (truncQ f 64)

/-- `raw ∈ VVEL_RESERVED`, the set given as ranges of raw codes (R6, R150). -/
def vvelIsReserved (P : Params) (raw : BitVec 12) : Bool :=
  P.vvelReserved.any fun (lo, hi) => decide (lo ≤ raw.toNat ∧ raw.toNat ≤ hi)

/-- `vvel_dec` (R150). -/
def vvelDec (P : Params) (raw : BitVec 12) : Option Int :=
  if raw = 0x800#12 then none
  else if vvelIsReserved P raw then some 0
  else some (raw.toInt * 64)

/-- `track_enc` (R151): NaN and the infinities raise. -/
def trackEnc (mode : RoundMode) (deg : F64) : Except Status Byte :=
  match realOf deg with
  | .nan => .error .encodeValueOutOfRange
  | .infinite _ => .error .encodeValueOutOfRange
  | .finite num den => .ok (BitVec.ofInt 8 (roundQ mode (num * 256) (360 * den)))

/-- `track_dec` (R152): `raw * 360 / 256`, that is `raw * 45 / 32`, exactly. -/
def trackDec (raw : Byte) : F64 := f64OfDyadic ((raw.toNat : Int) * 45) 5

/-- `callsign_enc` (R153). -/
def callsignEnc (s : Bytes) : Bytes :=
  if 8 ≤ s.length then s.take 8 else s ++ List.replicate (8 - s.length) 0x20#8

/-- `b` with every trailing 0x20 removed (R154). -/
def stripSpaces (b : Bytes) : Bytes := (b.reverse.dropWhile (fun x => x == 0x20#8)).reverse

/-- `callsign_dec` (R154): the placeholder where nothing is left. -/
def callsignDec (b : Bytes) : Bytes :=
  match stripSpaces b with
  | [] => emptyCallsign
  | c :: t => c :: t

/-- `geoalt_enc` (R155). -/
def geoaltEnc (mode : RoundMode) (ft : Int) : BitVec 16 :=
  BitVec.ofInt 16 (clampInt (roundQ mode ft 5) (-32768) 32767)

/-- `geoalt_dec` (R156). -/
def geoaltDec (raw : BitVec 16) : Int := raw.toInt * 5

/-- `vm_enc` (R157): the warning bit above a 15-bit merit. -/
def vmEnc (merit : Option (BitVec 32)) (warning : Bool) : BitVec 16 :=
  let m : BitVec 16 := match merit with
    | none => 0x7FFF#16
    | some v => BitVec.ofNat 16 (min v.toNat 0x7FFE)
  (if warning then 0x8000#16 else 0#16) ||| m

/-- `vm_warning` (R158). -/
def vmWarning (vm : BitVec 16) : Bool := vm.getLsbD 15

/-- `vm_merit` (R158). -/
def vmMerit (vm : BitVec 16) : Option (BitVec 16) :=
  let m := vm &&& 0x7FFF#16
  if m = 0x7FFF#16 then none else some m

/-- `ts_enc` (R159): the timestamp clamped to 17 bits; its bit 16 replaces bit 7 of status2. The result is status2 and
payload bytes 3 and 4. -/
def tsEnc (ts : BitVec 32) (st2 : Byte) : Byte × Byte × Byte :=
  let t : BitVec 17 := BitVec.ofNat 17 (min ts.toNat 0x1FFFF)
  ((st2 &&& 0x7F#8) ||| (if t.getLsbD 16 then 0x80#8 else 0#8), t.extractLsb' 0 8, t.extractLsb' 8 8)

/-- `ts_dec` (R159). -/
def tsDec (st2 lo hi : Byte) : BitVec 32 :=
  (if st2.getLsbD 7 then 0x10000#32 else 0#32) ||| (hi.setWidth 32 <<< 8) ||| lo.setWidth 32

/-- `counts_enc` (R160): bits 15:11 and 9:0; bit 10 is 0. -/
def countsEnc (u : Byte) (bl : BitVec 16) : BitVec 16 :=
  (BitVec.ofNat 16 (min u.toNat 31) <<< 11) ||| BitVec.ofNat 16 (min bl.toNat 1023)

/-- `counts_dec` (R160). -/
def countsDec (w : BitVec 16) : Byte × BitVec 16 :=
  ((w.extractLsb' 11 5).setWidth 8, (w.extractLsb' 0 10).setWidth 16)

/-- `nib_enc` (R161). -/
def nibEnc (v : Byte) : BitVec 4 := BitVec.ofNat 4 (min v.toNat 15)

/-- `tor_enc` (R162). -/
def torEnc (order : ByteOrder) (t : BitVec 32) : Except Status Bytes :=
  (pack 3 t.toNat).map fun b => match order with
    | .big => b
    | .little => b.reverse

/-- `tor_dec` (R162). -/
def torDec (order : ByteOrder) (b : Bytes) : BitVec 24 :=
  BitVec.ofNat 24 (match order with
    | .big => beNat b
    | .little => beNat b.reverse)

/-! ## Quantization (R163): a code decoded and encoded again, and a value encoded and decoded again -/

/-- A latitude code, decoded and encoded again (R163). -/
def latReencode (raw : BitVec 24) : Except Status (BitVec 24) := latEnc (coordDec raw)

/-- A longitude code, decoded and encoded again (R163). -/
def lonReencode (raw : BitVec 24) : Except Status (BitVec 24) := lonEnc (coordDec raw)

/-- An altitude code, decoded and encoded again (R163). -/
def altReencode (quant : AltQuant) (mode : RoundMode) (raw : BitVec 12) : BitVec 12 := altEnc quant mode (altDec raw)

/-- A horizontal velocity code, decoded and encoded again (R163). -/
def hvelReencode (raw : BitVec 12) : BitVec 12 := hvelEnc ((hvelDec raw).map fun v => (v.toNat : Int))

/-- A vertical velocity code, decoded and encoded again (R163). -/
def vvelReencode (P : Params) (raw : BitVec 12) : BitVec 12 := vvelEnc P (vvelDec P raw)

/-- A track byte, decoded and encoded again (R163). -/
def trackReencode (mode : RoundMode) (raw : Byte) : Except Status Byte := trackEnc mode (trackDec raw)

/-- A geometric altitude code, decoded and encoded again (R163). -/
def geoaltReencode (mode : RoundMode) (raw : BitVec 16) : BitVec 16 := geoaltEnc mode (geoaltDec raw)

/-- A latitude as a frame carries it: encoded, then decoded (R163). -/
def latQuantized (deg : F64) : Except Status F64 := (latEnc deg).map coordDec

/-- A longitude as a frame carries it (R163). -/
def lonQuantized (deg : F64) : Except Status F64 := (lonEnc deg).map coordDec

/-- An altitude as a frame carries it (R163). -/
def altQuantized (quant : AltQuant) (mode : RoundMode) (ft : Int) : Int := altDec (altEnc quant mode ft)

/-- A track or heading as a frame carries it (R163). -/
def trackQuantized (mode : RoundMode) (deg : F64) : Except Status F64 := (trackEnc mode deg).map trackDec

end Sys2Proof.Machine
end

