-- ==== Sys2Proof/Machine/Crc.lean ====
section
/-! DEFINITION. The CRC-16 engine (40_crc.md R100 to R105): CRC_COMPUTE and CRC_CHECK. -/

namespace Sys2Proof.Machine

/-- One of the eight steps of the table generator (R101): shift left, and subtract the polynomial 0x1021 where bit 15
was set. -/
def crcShift (c : BitVec 16) : BitVec 16 := if c.msb then (c <<< 1) ^^^ 0x1021#16 else c <<< 1

/-- `CRC_TABLE[i]`, generated (R30, R101). -/
def crcTable (i : Byte) : BitVec 16 := Nat.repeat crcShift 8 (i.setWidth 16 <<< 8)

/-- `crc_update`: the byte enters after the lookup, in the low byte; the index is the high byte alone (R102). -/
def crcUpdate (c : BitVec 16) (b : Byte) : BitVec 16 :=
  crcTable (c.extractLsb' 8 8) ^^^ (c <<< 8) ^^^ b.setWidth 16

/-- `crcValue(data)`, the register after every byte, from 0x0000 (R102). -/
def crcValue (data : Bytes) : BitVec 16 := data.foldl crcUpdate 0#16

/-- `crc_bytes(data)`: the two check bytes, low byte first (R103). -/
def crcBytes (data : Bytes) : Bytes := [(crcValue data).extractLsb' 0 8, (crcValue data).extractLsb' 8 8]

/-- `crc_check` (R105): a length error before any CRC is computed, else the comparison of both bytes. -/
def crcCheck (data crc : Bytes) : Except Status Bool :=
  if crc.length ≠ 2 then .error .crcLengthError else .ok (crcBytes data == crc)

/-- CRC_COMPUTE (R104). -/
def execCrcCompute (data : Bytes) (s : State) : Host.Outcome State Fault Refusal :=
  .next (s.finish (.value (.bytes (crcBytes data))))

/-- CRC_CHECK (R105). -/
def execCrcCheck (data crc : Bytes) (s : State) : Host.Outcome State Fault Refusal :=
  .next (s.finish (endingOf ((crcCheck data crc).map .bool)))

end Sys2Proof.Machine
end

