-- ==== Sys2Proof/Machine/Frame.lean ====
section
/-! DEFINITION. The frame codec (41_frame.md R120 to R122): ESCAPE, UNESCAPE and PREPARE_FRAME. -/

namespace Sys2Proof.Machine

/-- The flag byte 0x7E, which delimits frames (R15). -/
abbrev flagByte : Byte := 0x7E#8

/-- The escape byte 0x7D (R15). -/
abbrev escByte : Byte := 0x7D#8

/-- One byte stuffed (R61, R120). -/
def escapeByte (b : Byte) : Bytes := if b = escByte ∨ b = flagByte then [escByte, b ^^^ 0x20#8] else [b]

/-- `escape(data)` (R120). -/
def escape (data : Bytes) : Bytes := data.flatMap escapeByte

/-- `unescape(data)` (R121): the byte after 0x7D is taken whatever its value; a final 0x7D follows `LONE_ESC`. -/
def unescape (mode : LoneEsc) : Bytes → Bytes
  | [] => []
  | [b] =>
    if b = escByte then (match mode with
      | .keep => [escByte]
      | .drop => [])
    else [b]
  | b :: c :: rest => if b = escByte then (c ^^^ 0x20#8) :: unescape mode rest else b :: unescape mode (c :: rest)

/-- `prepare_frame(payload)` (R60, R122): the CRC of the unescaped payload, escaped with it, between two flags. -/
def prepareFrame (payload : Bytes) : Bytes := [flagByte] ++ escape (payload ++ crcBytes payload) ++ [flagByte]

/-- ESCAPE (R120). -/
def execEscape (data : Bytes) (s : State) : Host.Outcome State Fault Refusal :=
  .next (s.finish (.value (.bytes (escape data))))

/-- UNESCAPE (R121). -/
def execUnescape (data : Bytes) (s : State) : Host.Outcome State Fault Refusal :=
  .next (s.finish (.value (.bytes (unescape s.params.loneEsc data))))

/-- PREPARE_FRAME (R122). -/
def execPrepareFrame (payload : Bytes) (s : State) : Host.Outcome State Fault Refusal :=
  .next (s.finish (.value (.bytes (prepareFrame payload))))

end Sys2Proof.Machine
end

