-- ==== Sys2Proof/Machine/Messages.lean ====
section
/-! DEFINITION. The message codec (43_messages.md R180 to R198): the decoders, DEC_PAYLOAD, the encoders, and the message rows
of the opcode table. -/

namespace Sys2Proof.Machine

/-! ## Decoders -/

/-- A field of `w` bits at bit offset `o` of a payload (R42, R185). -/
def fieldAt (p : Bytes) (o w : Nat) : BitVec w := BitVec.ofNat w (getbits p o w)

/-- `dec_heartbeat` (R183): exactly 7 bytes; status2 is returned raw. -/
def decHeartbeat : Bytes → DecodeResult
  | [_, status1, status2, lo, hi, c0, c1] =>
    let (u, bl) := countsDec (BitVec.ofNat 16 (beNat [c0, c1]))
    .heartbeat status1 status2 (tsDec status2 lo hi) u bl
  | _ => .invalid .malformedField

/-- The report record of a payload, by the layout of R185. -/
def reportOf (P : Params) (p : Bytes) : Report where
  status := fieldAt p 8 4
  addressType := fieldAt p 12 4
  address := fieldAt p 16 24
  latitude := coordDec (fieldAt p 40 24)
  longitude := coordDec (fieldAt p 64 24)
  altitude := altDec (fieldAt p 88 12)
  misc := fieldAt p 100 4
  navIntegrityCat := fieldAt p 104 4
  navAccuracyCat := fieldAt p 108 4
  hVelocity := hvelDec (fieldAt p 112 12)
  vVelocity := vvelDec P (fieldAt p 124 12)
  trackHeading := trackDec (fieldAt p 136 8)
  emitterCategory := fieldAt p 144 8
  callSign := callsignDec (slice p 19 27)
  code := fieldAt p 216 4

/-- `dec_report` (R186, R187): the length and the ID byte are checked, in that order (R182). -/
def decReport (P : Params) (p : Bytes) (id : Byte) (variant : Report → DecodeResult) : DecodeResult :=
  if p.length ≠ 28 ∨ p.head? ≠ some id then .invalid .malformedField else variant (reportOf P p)

/-- `dec_geoalt` (R190): exactly 5 bytes. -/
def decGeoalt : Bytes → DecodeResult
  | [_, a0, a1, v0, v1] =>
    .geometricAltitude (geoaltDec (BitVec.ofNat 16 (beNat [a0, a1]))) (BitVec.ofNat 16 (beNat [v0, v1]))
  | _ => .invalid .malformedField

/-- `dec_uplink` (R194): exactly 436 bytes. -/
def decUplink (P : Params) (p : Bytes) : DecodeResult :=
  if p.length ≠ 436 then .invalid .malformedField
  else .uplinkData (torDec P.torOrder (slice p 1 4)) (slice p 4 12) (slice p 12 436)

/-- `GPS_LAYOUT.decode` (R196): hour, minute and WAAS of a 12-byte or 21-byte payload.
DESIGN CHOICE (log 5), for the spec leaves the WAAS indication open: a set bit reads `Some true` and a clear bit `Some false`;
it is `None` where the layout names no bit for that length, whatever the payload holds. Hour and minute are read in binary. -/
def gpsDecode (L : GpsLayout) (p : Bytes) : Byte × Byte × Option Bool :=
  let v := if p.length = 12 then L.short else L.long
  (p.getD v.hour 0#8, p.getD v.minute 0#8, v.waas.map fun (b, i) => (p.getD b 0#8).getLsbD i)

/-- `dec_gpstime` (R196): 29 bytes are `Absent` before the layout is consulted; then the length, the layout, the ranges. -/
def decGpstime (P : Params) (p : Bytes) : Except RefusalReason DecodeResult :=
  if p.length = 29 then .ok .absent
  else if p.length ≠ 12 ∧ p.length ≠ 21 then .ok (.invalid .malformedField)
  else match P.gpsLayout with
    | none => .error .gpsLayoutOpen
    | some L =>
      let (h, m, w) := gpsDecode L p
      if h.toNat > 23 ∨ m.toNat > 59 then .ok (.invalid .invalidTimeField) else .ok (.gpsTime h m w)

/-- `dec_payload` (R181): the empty payload, then `VENDOR_IDS`, then the decoder the ID selects. -/
def decPayload (P : Params) (p : Bytes) : Except RefusalReason DecodeResult :=
  match p with
  | [] => .ok (.invalid .malformedField)
  | id :: _ =>
    if P.vendorIds.contains id then .error .vendorLayoutNotInSource
    else if id = 0x00#8 then .ok (decHeartbeat p)
    else if id = 0x0A#8 then .ok (decReport P p 0x0A#8 .ownshipReport)
    else if id = P.idTraffic then .ok (decReport P p P.idTraffic .trafficReport)
    else if id = P.idGeoalt then .ok (decGeoalt p)
    else if id = P.idUplink then .ok (decUplink P p)
    else if id = 0x65#8 then decGpstime P p
    else .ok (.unknown id p)

/-- How a decode ends as a command (R181). -/
def endingOfDecode : Except RefusalReason DecodeResult → Ending
  | .ok r => .value (.decoded r)
  | .error r => .refused r

/-! ## Encoders: the payload of each -/

/-- The heartbeat payload (R184). -/
def heartbeatPayload (status1 status2 : Byte) (timestamp : BitVec 32) (u : Byte) (bl : BitVec 16) : Bytes :=
  let (st2, lo, hi) := tsEnc timestamp status2
  let w := countsEnc u bl
  [0x00#8, status1, st2, lo, hi, w.extractLsb' 8 8, w.extractLsb' 0 8]

/-- `enc_report(r, id)` (R188): the address is checked first, then latitude, longitude and track (60_exceptions.md R310); the
spare bits 220 to 223 stay 0. -/
def encReport (P : Params) (r : ReportIn) (id : Byte) : Except Status Bytes := do
  let a ← pack 3 r.address.toNat
  let lat ← latEnc r.latitude
  let lon ← lonEnc r.longitude
  let trk ← trackEnc P.roundMode r.trackHeading
  let p := List.replicate 28 0#8
  let p := setbits p 0 8 id.toNat
  let p := setbits p 8 4 (nibEnc r.status).toNat
  let p := setbits p 12 4 (nibEnc r.addressType).toNat
  let p := setbits p 16 24 (beNat a)
  let p := setbits p 40 24 lat.toNat
  let p := setbits p 64 24 lon.toNat
  let p := setbits p 88 12 (altEnc P.altQuant P.roundMode r.altitude.toInt).toNat
  let p := setbits p 100 4 (nibEnc r.misc).toNat
  let p := setbits p 104 4 (nibEnc r.navIntegrityCat).toNat
  let p := setbits p 108 4 (nibEnc r.navAccuracyCat).toNat
  let p := setbits p 112 12 (hvelEnc (r.hVelocity.map BitVec.toInt)).toNat
  let p := setbits p 124 12 (vvelEnc P (r.vVelocity.map BitVec.toInt)).toNat
  let p := setbits p 136 8 trk.toNat
  let p := setbits p 144 8 r.emitterCategory.toNat
  let p := setbits p 152 64 (beNat (callsignEnc r.callSign))
  let p := setbits p 216 4 (nibEnc r.code).toNat
  return p

/-- The geometric altitude payload (R191). -/
def geoaltPayload (P : Params) (altitude : BitVec 32) (merit : Option (BitVec 32)) (warning : Bool) : Bytes :=
  let a := geoaltEnc P.roundMode altitude.toInt
  let v := vmEnc merit warning
  [P.idGeoalt, a.extractLsb' 8 8, a.extractLsb' 0 8, v.extractLsb' 8 8, v.extractLsb' 0 8]

/-- The uplink payload (R195): the block lengths are checked first, then the time of reception. -/
def uplinkPayload (P : Params) (timeOfReception : BitVec 32) (header data : Bytes) : Except Status Bytes :=
  if header.length ≠ 8 ∨ data.length ≠ 424 then .error .encodeValueOutOfRange
  else (torEnc P.torOrder timeOfReception).map fun t => P.idUplink :: (t ++ header ++ data)

/-- `GPS_LAYOUT.encode` (R197): the 11 bytes after the ID. The status byte is 0x30 + quality; hour and minute stand where
the layout's 12-byte decode reads them; every other byte is a free value (log 5). -/
def gpsBody (L : GpsLayout) (count : BitVec 32) (q hour minute : Byte) : Bytes :=
  (List.range 11).map fun j =>
    if j + 1 = L.status then 0x30#8 + q
    else if j + 1 = L.short.hour then hour
    else if j + 1 = L.short.minute then minute
    else Config.gpsFillByte L count q hour minute (j + 1)

/-- ENC_GPSTIME up to its ending (R197): hour and minute, then the clamp of quality, then the layout. -/
def gpstimeEnding (P : Params) (count : BitVec 32) (quality hour minute : Byte) : Ending :=
  if hour.toNat > 23 ∨ minute.toNat > 59 then .raised .encodeValueOutOfRange
  else
    let q := BitVec.ofNat 8 (min quality.toNat 2)
    match P.gpsLayout with
    | none => .refused .gpsLayoutOpen
    | some L => .value (.bytes (prepareFrame (0x65#8 :: gpsBody L count q hour minute)))

/-- The frame of a payload, as a result (R122). -/
def framed (payload : Except Status Bytes) : Ending := endingOf (payload.map fun p => .bytes (prepareFrame p))

/-! ## Meanings -/

/-- ENC_HEARTBEAT (R184). -/
def execEncHeartbeat (status1 status2 : Byte) (timestamp : BitVec 32) (u : Byte) (bl : BitVec 16) (s : State) :
    Host.Outcome State Fault Refusal :=
  .next (s.finish (framed (.ok (heartbeatPayload status1 status2 timestamp u bl))))

/-- ENC_OWNSHIP (R188). -/
def execEncOwnship (r : ReportIn) (s : State) : Host.Outcome State Fault Refusal :=
  .next (s.finish (framed (encReport s.params r 0x0A#8)))

/-- ENC_TRAFFIC (R189). -/
def execEncTraffic (r : ReportIn) (s : State) : Host.Outcome State Fault Refusal :=
  .next (s.finish (framed (encReport s.params r s.params.idTraffic)))

/-- ENC_GEOALT (R191). -/
def execEncGeoalt (altitude : BitVec 32) (merit : Option (BitVec 32)) (warning : Bool) (s : State) :
    Host.Outcome State Fault Refusal :=
  .next (s.finish (framed (.ok (geoaltPayload s.params altitude merit warning))))

/-- ENC_GPSTIME (R197). -/
def execEncGpstime (count : BitVec 32) (quality hour minute : Byte) (s : State) : Host.Outcome State Fault Refusal :=
  .next (s.finish (gpstimeEnding s.params count quality hour minute))

/-- ENC_UPLINK (R195). -/
def execEncUplink (timeOfReception : BitVec 32) (header data : Bytes) (s : State) : Host.Outcome State Fault Refusal :=
  .next (s.finish (framed (uplinkPayload s.params timeOfReception header data)))

/-- DEC_PAYLOAD (R181). -/
def execDecPayload (p : Bytes) (s : State) : Host.Outcome State Fault Refusal :=
  .next (s.finish (endingOfDecode (decPayload s.params p)))

/-- MSG_HEARTBEAT: the decoder of R183 applied to a payload. -/
def execMsgHeartbeat (p : Bytes) (s : State) : Host.Outcome State Fault Refusal :=
  .next (s.finish (.value (.decoded (decHeartbeat p))))

/-- MSG_OWNSHIP: the decoder of R186. -/
def execMsgOwnship (p : Bytes) (s : State) : Host.Outcome State Fault Refusal :=
  .next (s.finish (.value (.decoded (decReport s.params p 0x0A#8 .ownshipReport))))

/-- MSG_TRAFFIC: the decoder of R187. -/
def execMsgTraffic (p : Bytes) (s : State) : Host.Outcome State Fault Refusal :=
  .next (s.finish (.value (.decoded (decReport s.params p s.params.idTraffic .trafficReport))))

/-- MSG_GEOALT: the decoder of R190. -/
def execMsgGeoalt (p : Bytes) (s : State) : Host.Outcome State Fault Refusal :=
  .next (s.finish (.value (.decoded (decGeoalt p))))

/-- MSG_UPLINK: the decoder of R194. -/
def execMsgUplink (p : Bytes) (s : State) : Host.Outcome State Fault Refusal :=
  .next (s.finish (.value (.decoded (decUplink s.params p))))

/-- MSG_GPSTIME: the decoder of R196. -/
def execMsgGpstime (p : Bytes) (s : State) : Host.Outcome State Fault Refusal :=
  .next (s.finish (endingOfDecode (decGpstime s.params p)))

/-- MSG_VENDOR (R181, R198): the refusal the spec gives a payload whose ID is in `VENDOR_IDS`, a write of REFUSED. -/
def execMsgVendor (_p : Bytes) (s : State) : Host.Outcome State Fault Refusal :=
  .next (s.finish (.refused .vendorLayoutNotInSource))

/-- MSG_UNKNOWN (R181): `Unknown` with the ID and the whole payload; the empty payload is malformed. -/
def execMsgUnknown (p : Bytes) (s : State) : Host.Outcome State Fault Refusal :=
  .next (s.finish (.value (.decoded (match p with
    | [] => .invalid .malformedField
    | id :: _ => .unknown id p))))

end Sys2Proof.Machine
end

