-- ==== Sys2Proof/Machine/Stream.lean ====
section
/-! DEFINITION. The stream decoder (44_stream.md R230 to R244): RESYNC, EXTRACT and FRAME_DECODE inside ADD_BYTES, READ_OUT,
READ_STATUS, READ_STATS, READ_BUFFER, RESET, and the reserved command codes (30_encoding.md R72). -/

namespace Sys2Proof.Machine

/-- RESYNC (R233): the state after it, and whether it found a flag byte. -/
def State.resync (s : State) : State × Bool :=
  let s := { s with resyncCount := bump s.params.ctrW s.resyncCount }
  match bufFind s.buf flagByte 0 with
  | none => (s.bufDrop s.buf.length, false)
  | some p =>
    if s.buf[p + 1]? = some flagByte then ((s.bufDrop (p + 1)).setSync, true)
    else ((s.bufDrop p).setSync, true)

/-- FRAME_DECODE (R236), with the refusals of `dec_payload` and of `Enqueue`. -/
def State.frameDecode (s : State) (body : Bytes) : Except RefusalReason State :=
  let u := unescape s.params.loneEsc body
  if u.length < 5 then .ok s
  else
    let payload := u.take (u.length - 2)
    let check := u.drop (u.length - 2)
    let id := u.headD 0#8
    let entered := ensureEntry id s.stats
    if crcCheck payload check = .ok true then
      let s := { s with stats := countGood s.params.ctrW id entered }
      match decPayload s.params payload with
      | .error r => .error r
      | .ok .absent => .ok s
      | .ok r => s.enqueue r
    else .ok { s with stats := countBad s.params.ctrW id entered }

/-- EXTRACT (R235): the state after it, and whether the drain loop goes on. -/
def State.extract (s : State) : Except RefusalReason (State × Bool) :=
  if s.buf.head? ≠ some flagByte then .ok (s.clearSync, true)
  else match bufFind s.buf flagByte 1 with
    | none => .ok (s, false)
    | some i =>
      let body := slice s.buf 1 i
      let s := s.bufDrop (i + 1)
      let s := { s with totalFrames := bump s.params.ctrW s.totalFrames }
      (s.frameDecode body).map fun s => (s, true)

/-- The drain loop (R232), one pass for each unit of fuel. -/
def State.drain : Nat → State → Except RefusalReason State
  | 0, s => .ok s
  | fuel + 1, s =>
    let (s, found) := if s.sync then (s, true) else s.resync
    if !found then .ok s
    else if s.buf.isEmpty then .ok s
    else match s.extract with
      | .error r => .error r
      | .ok (s, false) => .ok s
      | .ok (s, true) => State.drain fuel s

/-- Fuel the drain loop cannot use up: every pass but the last shortens BUF by 2, or clears SYNC with BUF non-empty
(R232). -/
def State.drainFuel (s : State) : Nat := 2 * s.buf.length + 2

/-- ADD_BYTES up to its ending (R230): the state after it and the number of results it appended. -/
def State.addBytes (s : State) (data : Bytes) : Except RefusalReason (State × Nat) :=
  match s.bufAppend data with
  | .error r => .error r
  | .ok t =>
    match State.drain t.drainFuel t with
    | .error r => .error r
    | .ok t => .ok (t, t.outq.length - s.outq.length)

/-- ADD_BYTES (R230, R231): a refusal anywhere inside leaves every element but REFUSED as before the command (R29). -/
def execAddBytes (data : Bytes) (s : State) : Host.Outcome State Fault Refusal :=
  match s.addBytes data with
  | .ok (t, n) => .next (t.returnValue (.count n))
  | .error r => .next (s.refuse r)

/-- READ_OUT (R240). -/
def execReadOut (s : State) : Host.Outcome State Fault Refusal :=
  match s.outq with
  | [] => .next (s.raise .empty)
  | r :: rest => .next ({ s with outq := rest }.returnValue (.decoded r))

/-- READ_STATS (R242). -/
def execReadStats (s : State) : Host.Outcome State Fault Refusal :=
  .next (s.returnValue (.stats s.totalFrames s.resyncCount s.stats))

/-- READ_STATUS (R241, 10_state.md R33). -/
def execReadStatus (s : State) : Host.Outcome State Fault Refusal :=
  .next (s.returnValue (.words (statusWord s.sync) s.buf.length s.outq.length))

/-- READ_BUFFER (R243). -/
def execReadBuffer (s : State) : Host.Outcome State Fault Refusal := .next (s.returnValue (.bytes s.buf))

/-- RESET (R244): every element of R22 but REFUSED; the parameters are not changed (R331). -/
def execReset (s : State) : Host.Outcome State Fault Refusal :=
  .next ({ s with
    buf := [], sync := false, resyncCount := 0#64, totalFrames := 0#64, stats := [], outq := [] }.returnValue .unit)

/-- RESERVED_COMMAND (30_encoding.md R72): status `IllegalCommand`, no state written. -/
def execReservedCommand (_packet : Bytes) (s : State) : Host.Outcome State Fault Refusal :=
  .next (s.raise .illegalCommand)

end Sys2Proof.Machine
end

