-- ==== Sys2Proof/Machine/Uat.lean ====
section
/-! DEFINITION. The UAT sub-decoder (45_uat.md R270 to R284): UAT_IFRAMES, UAT_APDU and DLAC_DECODE. -/

namespace Sys2Proof.Machine

/-- The 9-bit length of an I-frame header (R270). -/
def iframeLength (h0 h1 : Byte) : Nat := h0.toNat * 2 + h1.toNat / 128

/-- The scan of R271 over the bytes not yet scanned, one header for each unit of fuel. -/
def iframesFrom : Nat → Bytes → List IFrame
  | 0, _ => []
  | fuel + 1, h0 :: h1 :: rest =>
    if h0 = 0x00#8 ∧ h1 = 0x00#8 then []
    else
      let n := iframeLength h0 h1
      let head : IFrame := { length := BitVec.ofNat 16 n, type := h1 &&& 0x0F#8, data := rest.take n }
      if rest.length < n then [head] else head :: iframesFrom fuel (rest.drop n)
  | _ + 1, _ => []

/-- The I-frames of a data block (R271). -/
def iframes (data : Bytes) : List IFrame := iframesFrom data.length data

/-- The application PDU of an I-frame's data (R274, R275). -/
def apduOf : Bytes → Option Apdu
  | d0 :: d1 :: d2 :: d3 :: payload =>
    some { productId := ((d0 &&& 0x1F#8).setWidth 16 <<< 6) ||| (d1.setWidth 16 >>> 2)
           hour := (d2 >>> 2) &&& 0x1F#8
           minute := ((d2 &&& 0x03#8) <<< 4) ||| (d3 >>> 4)
           payload := payload }
  | _ => none

/-- Symbols from the `i`-th on, at most `fuel` of them: symbol 0 ends the text, a partial last one is dropped (R280). -/
def dlacFrom (alphabet : List Byte) (data : Bytes) : Nat → Nat → Bytes
  | 0, _ => []
  | fuel + 1, i =>
    if 6 * i + 6 ≤ 8 * data.length then
      let c := getbits data (6 * i) 6
      if c = 0 then [] else alphabet.getD c 0#8 :: dlacFrom alphabet data fuel (i + 1)
    else []

/-- The DLAC text of a byte string (R280). -/
def dlacDecode (alphabet : List Byte) (data : Bytes) : Bytes :=
  dlacFrom alphabet data (8 * data.length / 6) 0

/-- The symbol of a byte: the least one but 0, which ends a text (R284, R285). -/
def dlacSymbolOf (alphabet : List Byte) (b : Byte) : Option Nat :=
  ((alphabet.drop 1).findIdx? (fun x => x == b)).map (· + 1)

/-- 6-bit symbols packed most significant bit first, padded with zero bits to a whole byte (R285). -/
def packSymbols (l : List Nat) : Bytes :=
  let n := (6 * l.length + 7) / 8
  toBE n (l.foldl (fun a c => a * 64 + c) 0 <<< (8 * n - 6 * l.length))

/-- The encoder of test texts, which is no command of CORE: every character's symbol, then symbol 0 (R285). -/
def dlacEncode (alphabet : List Byte) (text : Bytes) : Option Bytes :=
  (text.mapM (dlacSymbolOf alphabet)).map fun l => packSymbols (l ++ [0])

/-- UAT_IFRAMES (R271). -/
def execUatIframes (data : Bytes) (s : State) : Host.Outcome State Fault Refusal :=
  .next (s.finish (.value (.frames (iframes data))))

/-- UAT_APDU (R275). -/
def execUatApdu (frameData : Bytes) (s : State) : Host.Outcome State Fault Refusal :=
  .next (s.finish (.value (.apdu (apduOf frameData))))

/-- DLAC_DECODE (R280). -/
def execDlacDecode (data : Bytes) (s : State) : Host.Outcome State Fault Refusal :=
  .next (s.finish (.value (.bytes (dlacDecode s.params.dlacAlphabet data))))

end Sys2Proof.Machine
end

