-- ==== Sys2Proof/Machine/Dispatch.lean ====
section
/-! DEFINITION. One arm per instruction. -/

namespace Sys2Proof.Machine

def exec (i : Instr) (s : State) : Host.Outcome State Fault Refusal :=
  match i with
  | .crcCompute data => Sys2Proof.Machine.execCrcCompute data s
  | .crcCheck data crc => Sys2Proof.Machine.execCrcCheck data crc s
  | .escape data => Sys2Proof.Machine.execEscape data s
  | .unescape data => Sys2Proof.Machine.execUnescape data s
  | .prepareFrame payload => Sys2Proof.Machine.execPrepareFrame payload s
  | .encHeartbeat status1 status2 timestamp u bl => Sys2Proof.Machine.execEncHeartbeat status1 status2 timestamp u bl s
  | .encOwnship r => Sys2Proof.Machine.execEncOwnship r s
  | .encTraffic r => Sys2Proof.Machine.execEncTraffic r s
  | .encGeoalt altitude merit warning => Sys2Proof.Machine.execEncGeoalt altitude merit warning s
  | .encGpstime count quality hour minute => Sys2Proof.Machine.execEncGpstime count quality hour minute s
  | .encUplink timeOfReception header data => Sys2Proof.Machine.execEncUplink timeOfReception header data s
  | .decPayload payload => Sys2Proof.Machine.execDecPayload payload s
  | .addBytes data => Sys2Proof.Machine.execAddBytes data s
  | .readOut => Sys2Proof.Machine.execReadOut s
  | .readStats => Sys2Proof.Machine.execReadStats s
  | .readStatus => Sys2Proof.Machine.execReadStatus s
  | .readBuffer => Sys2Proof.Machine.execReadBuffer s
  | .reset => Sys2Proof.Machine.execReset s
  | .uatIframes data => Sys2Proof.Machine.execUatIframes data s
  | .uatApdu frameData => Sys2Proof.Machine.execUatApdu frameData s
  | .dlacDecode data => Sys2Proof.Machine.execDlacDecode data s
  | .reservedCommand packet => Sys2Proof.Machine.execReservedCommand packet s
  | .msgHeartbeat payload => Sys2Proof.Machine.execMsgHeartbeat payload s
  | .msgOwnship payload => Sys2Proof.Machine.execMsgOwnship payload s
  | .msgTraffic payload => Sys2Proof.Machine.execMsgTraffic payload s
  | .msgGeoalt payload => Sys2Proof.Machine.execMsgGeoalt payload s
  | .msgUplink payload => Sys2Proof.Machine.execMsgUplink payload s
  | .msgGpstime payload => Sys2Proof.Machine.execMsgGpstime payload s
  | .msgVendor payload => Sys2Proof.Machine.execMsgVendor payload s
  | .msgUnknown payload => Sys2Proof.Machine.execMsgUnknown payload s

end Sys2Proof.Machine
end

