-- ==== Sys2Proof/Machine/Step.lean ====
section
/-! DEFINITION. One step: CORE takes the next host input, decodes it and completes it (00_scope.md R8, 30_encoding.md R65). -/

namespace Sys2Proof.Machine

/-- One step. With no input pending CORE holds its state (60_exceptions.md R320; DEDUCED, log 9). A packet whose operands cannot be parsed
gives status `OperandFormatError` and writes no state (R67). -/
def step (s : State) : Host.Outcome State Fault Refusal :=
  match s.input with
  | [] => .next s
  | x :: rest =>
    match decode s.params x with
    | .ok i => exec i { s with input := rest }
    | .error .operandFormatError => .next ({ s with input := rest }.raise .operandFormatError)

/-- `s` with a table word's instruction as the host's next input. -/
def State.withFetchWord (s : State) (nbits w : Nat) : State := { s with input := tableInput nbits w :: s.input }

end Sys2Proof.Machine
end

