-- ==== Sys2Proof/Safety.lean ====
section
/-! DEFINITION. The terms the claims are stated in: how a command ends, which commands are pure (00_scope.md R18), the
invariant of CORE between two commands (10_state.md R22, R27; 44_stream.md R245), the frames of a byte string read from
left to right (R232 to R236), and the CRC as a remainder (40_crc.md R106). -/

namespace Sys2Proof.Machine

/-- CORE answered status `OK` and the value bytes `value`, and changed nothing else (00_scope.md R9, 30_encoding.md R65). -/
abbrev State.okWith (s : State) (value : Bytes) : State := { s with results := s.results ++ [0x00#8 :: value] }

/-- CORE answered the bare status `code`, and changed nothing else (R65, 60_exceptions.md R301). -/
abbrev State.statusOnly (s : State) (code : Byte) : State := { s with results := s.results ++ [[code]] }

/-- The step was refused: REFUSED took the mark and nothing else changed (10_state.md R29). -/
abbrev State.refusedWith (s : State) (r : RefusalReason) : State := { s with refused := some r }

/-- The operands for which the report encoders raise `EncodeValueOutOfRange` (60_exceptions.md R303). -/
abbrev reportIllegal (r : ReportIn) : Prop :=
  2 ^ 24 ≤ r.address.toNat ∨ realOf r.latitude = .nan ∨ realOf r.longitude = .nan ∨ realOf r.trackHeading = .nan ∨
    ∃ negative, realOf r.trackHeading = .infinite negative

/-- A run whose REFUSED is `None` says something of the hardware (10_state.md R29, 70_reset_and_hazards.md R351). -/
abbrev State.Clean (s : State) : Prop := s.refused = none

/-- The pure commands (R18): every command but ADD_BYTES, READ_OUT, READ_STATS, READ_STATUS, READ_BUFFER and RESET. A
reserved code and a message row read and write no state of CORE either. -/
def isPure : Instr → Bool
  | .crcCompute _ => true
  | .crcCheck _ _ => true
  | .escape _ => true
  | .unescape _ => true
  | .prepareFrame _ => true
  | .encHeartbeat _ _ _ _ _ => true
  | .encOwnship _ => true
  | .encTraffic _ => true
  | .encGeoalt _ _ _ => true
  | .encGpstime _ _ _ _ => true
  | .encUplink _ _ _ => true
  | .decPayload _ => true
  | .addBytes _ => false
  | .readOut => false
  | .readStats => false
  | .readStatus => false
  | .readBuffer => false
  | .reset => false
  | .uatIframes _ => true
  | .uatApdu _ => true
  | .dlacDecode _ => true
  | .reservedCommand _ => true
  | .msgHeartbeat _ => true
  | .msgOwnship _ => true
  | .msgTraffic _ => true
  | .msgGeoalt _ => true
  | .msgUplink _ => true
  | .msgGpstime _ => true
  | .msgVendor _ => true
  | .msgUnknown _ => true

/-- BUF between commands (R245, law 3): empty, or it starts with its only flag byte while SYNC is true. -/
abbrev State.Settled (s : State) : Prop :=
  s.buf = [] ∨ (s.buf.head? = some flagByte ∧ s.sync = true ∧ flagByte ∉ s.buf.tail)

/-- STATS as a map (R27, R69): one entry an ID, in ascending ID order. -/
abbrev statsCanonical (l : List StatEntry) : Prop := l.Pairwise fun a b => a.id < b.id

/-- Where a reader of the stream stands before its next byte (44_stream.md R233, R235): looking for a flag byte; synchronized,
where the next byte must be a flag; inside a frame, after the body bytes read so far. -/
inductive ScanMode where
  | hunting
  | between
  | inside (body : Bytes)
  deriving DecidableEq, Repr

/-- The frame bodies in a byte string, in order, by the byte that ends them and without a buffer or a loop over it: what the
drain loop of R232 is to extract. Two flag bytes met while hunting are a closing and an opening one (R233 case (b)); a flag
byte closes a frame and opens none (R235); a synchronized reader that meets another byte hunts again (R235). -/
def frameBodies : ScanMode → Bytes → List Bytes
  | _, [] => []
  | .hunting, b :: rest =>
    if b ≠ flagByte then frameBodies .hunting rest
    else if rest.head? = some flagByte then frameBodies .between rest
    else frameBodies (.inside []) rest
  | .between, b :: rest => if b = flagByte then frameBodies (.inside []) rest else frameBodies .hunting rest
  | .inside body, b :: rest =>
    if b = flagByte then body :: frameBodies .between rest else frameBodies (.inside (body ++ [b])) rest

/-- The frame bodies ADD_BYTES of `data` meets: those of BUF and `data`, from where SYNC says the reader stands. -/
def State.bodiesOf (s : State) (data : Bytes) : List Bytes :=
  frameBodies (if s.sync then .between else .hunting) (s.buf ++ data)

/-- A body too short to be checked: fewer than 5 bytes once unescaped (R236). -/
abbrev isShort (P : Params) (body : Bytes) : Prop := (unescape P.loneEsc body).length < 5

/-- The payload of a body: its unescaped bytes but the last two (R236). -/
abbrev payloadOf (P : Params) (body : Bytes) : Bytes :=
  let u := unescape P.loneEsc body
  u.take (u.length - 2)

/-- A body long enough whose last two unescaped bytes are the check bytes of the others (R236). -/
abbrev passesCheck (P : Params) (body : Bytes) : Prop :=
  let u := unescape P.loneEsc body
  5 ≤ u.length ∧ crcBytes (payloadOf P body) = u.drop (u.length - 2)

/-- What a good body adds to OUTQ: its decode result, unless that is `Absent` (R236). -/
def queuedOf (P : Params) (body : Bytes) : Option DecodeResult :=
  match decPayload P (payloadOf P body) with
  | .ok r => if r = .absent then none else some r
  | .error _ => none

/-- The sum of the `good` counters of STATS (R245). -/
abbrev goodSum (l : List StatEntry) : Nat := (l.map fun e => e.good.toNat).sum

/-- The sum of the `bad` counters of STATS (R245). -/
abbrev badSum (l : List StatEntry) : Nat := (l.map fun e => e.bad.toNat).sum

/-- ADD_BYTES of `data` runs RESYNC case (c) on the last byte it holds (70_reset_and_hazards.md R343): after some passes of the
drain loop, SYNC is false and the only flag byte of BUF is its last byte. -/
def State.EndsAtLoneFlag (s : State) (data : Bytes) : Prop :=
  ∃ (passes : Nat) (u : State) (garbage : Bytes), State.drain passes { s with buf := s.buf ++ data } = .ok u ∧
    u.sync = false ∧ flagByte ∉ garbage ∧ u.buf = garbage ++ [flagByte]

/-- Every counter is below 2 to the `CTR_W` (R25, R26, R27). -/
abbrev State.CountersFit (s : State) : Prop :=
  s.resyncCount.toNat < 2 ^ s.params.ctrW ∧ s.totalFrames.toNat < 2 ^ s.params.ctrW ∧
    ∀ e ∈ s.stats, e.good.toNat < 2 ^ s.params.ctrW ∧ e.bad.toNat < 2 ^ s.params.ctrW

/-- A length is within a capacity; `none` is unbounded (R22, R6). -/
abbrev withinCap (cap : Option Nat) (n : Nat) : Prop := ∀ c ∈ cap, n ≤ c

/-- The invariant of CORE between two commands. -/
structure State.Inv (s : State) : Prop where
  lawful : paramsLawful s.params = true
  settled : s.Settled
  stats : statsCanonical s.stats
  counters : s.CountersFit
  bufCap : withinCap s.params.bufCap s.buf.length
  outqCap : withinCap s.params.outqCap s.outq.length

/-- Long division of a bit string by the polynomial `x^16 + x^12 + x^5 + 1` over GF(2) (R100, R106): the remainder after the
dividend's bits `n-1` down to 0, most significant first, starting from remainder `r` of degree below 16. -/
def gf2Remainder (v : Nat) : Nat → Nat → Nat
  | 0, r => r
  | n + 1, r =>
    let r := 2 * r + (if v.testBit n then 1 else 0)
    gf2Remainder v n (if r < 2 ^ 16 then r else r ^^^ 0x11021)

end Sys2Proof.Machine
end

