-- ==== Sys2Proof/Certificates/Slice0/Obligations.lean ====
section
/-! DEFINITION. The statements. `s.okWith v`, `s.statusOnly c` and `s.refusedWith r` (Safety.lean) are the whole next state:
every element of CORE they do not name is as before, so each such equation is a frame as well. A `Bytes` result of 2^32
bytes or more carries the free length of log 7 (`putBytesResult`, `putU32`). -/

open Sys2Proof Sys2Proof.Machine

/-! ## Encoding -/

/-- Decoding the encoding of a well-formed instruction gives it back, every operand at every value its encoding admits
(30_encoding.md R65, R66, R70, R71; R63 for the message rows). -/
def Obligations.EncodeThenDecodeIsIdentity : Prop :=
  ∀ (P : Params) (i : Instr), i.wf P = true → decode P (encode i) = .ok i

/-- Words written out from R65 to R72 and R63 decode to the instructions they stand for, one of every family. -/
def Obligations.WrittenOutWordsDecode : Prop :=
  decodePacket [0x02#8, 0x00#8, 0x00#8, 0x00#8, 0x01#8, 0xAA#8, 0x00#8, 0x00#8, 0x00#8, 0x02#8, 0x55#8, 0x66#8] =
      .ok (.crcCheck [0xAA#8] [0x55#8, 0x66#8]) ∧
    decodePacket [0x11#8, 0x00#8, 0x00#8, 0x00#8, 0x02#8, 0x7D#8, 0x5E#8] = .ok (.unescape [0x7D#8, 0x5E#8]) ∧
    decodePacket [0x20#8, 0x81#8, 0x41#8, 0x00#8, 0x00#8, 0xD0#8, 0xDB#8, 0x01#8, 0x00#8, 0x02#8] =
      .ok (.encHeartbeat 0x81#8 0x41#8 53467#32 0x01#8 2#16) ∧
    decodePacket [0x23#8, 0x00#8, 0x00#8, 0x0B#8, 0xB8#8, 0x01#8, 0x00#8, 0x00#8, 0x00#8, 0x0A#8, 0x01#8] =
      .ok (.encGeoalt 3000#32 (some 10#32) true) ∧
    decodePacket [0x40#8, 0x00#8, 0x00#8, 0x00#8, 0x01#8, 0x7E#8] = .ok (.addBytes [0x7E#8]) ∧
    decodePacket [0x43#8] = .ok .readStatus ∧
    decodePacket [0x51#8, 0x00#8, 0x00#8, 0x00#8, 0x01#8, 0x06#8] = .ok (.uatApdu [0x06#8]) ∧
    decodePacket [0x53#8, 0x01#8] = .ok (.reservedCommand [0x53#8, 0x01#8]) ∧
    decode standardParams (.payload [0x0B#8, 0x02#8, 0x58#8, 0x80#8, 0x0A#8]) =
      .ok (.msgGeoalt [0x0B#8, 0x02#8, 0x58#8, 0x80#8, 0x0A#8])

/-- R72: the empty packet, and any packet whose code is none of the 21 of R70, gives status `IllegalCommand` and writes no
state, whatever follows the code. -/
def Obligations.UnassignedCodesAreIllegal : Prop :=
  (∀ (packet : Bytes) (s : State), exec (.reservedCommand packet) s = .next (s.statusOnly 0x08#8)) ∧
    (∀ (s : State) (rest : List HostInput), s.input = .packet [] :: rest →
      step s = .next (State.statusOnly { s with input := rest } 0x08#8)) ∧
    ∀ (s : State) (c : Byte) (ops : Bytes) (rest : List HostInput),
      c ∉ [0x01#8, 0x02#8, 0x10#8, 0x11#8, 0x12#8, 0x20#8, 0x21#8, 0x22#8, 0x23#8, 0x24#8, 0x25#8, 0x30#8, 0x40#8, 0x41#8,
        0x42#8, 0x43#8, 0x44#8, 0x4F#8, 0x50#8, 0x51#8, 0x52#8] →
      s.input = .packet (c :: ops) :: rest → step s = .next (State.statusOnly { s with input := rest } 0x08#8)

/-- R67: a command's packet cut short, one with bytes left over, and one with an invalid `Bool` or `Option` byte cannot be
parsed; such a packet gives status `OperandFormatError` and writes no state. -/
def Obligations.UnparsablePacketsAreFormatErrors : Prop :=
  (∀ (P : Params) (i : Instr) (packet : Bytes), i.wf P = true → (∀ q, i ≠ .reservedCommand q) →
      encode i = .packet packet →
      (∀ n, 0 < n → n < packet.length → decodePacket (packet.take n) = .error .operandFormatError) ∧
      ∀ extra, extra ≠ [] → decodePacket (packet ++ extra) = .error .operandFormatError) ∧
    (∀ (a v rest : Bytes) (b : Byte), a.length = 4 → v.length = 4 → b ≠ 0x00#8 → b ≠ 0x01#8 →
      decodePacket (0x23#8 :: (a ++ b :: rest)) = .error .operandFormatError ∧
      decodePacket (0x23#8 :: (a ++ 0x00#8 :: b :: rest)) = .error .operandFormatError ∧
      decodePacket (0x23#8 :: (a ++ 0x01#8 :: (v ++ b :: rest))) = .error .operandFormatError) ∧
    (∀ (c : Byte) (a v rest : Bytes) (b : Byte), c = 0x21#8 ∨ c = 0x22#8 → a.length = 29 → v.length = 4 → b ≠ 0x00#8 →
      b ≠ 0x01#8 →
      decodePacket (c :: (a ++ b :: rest)) = .error .operandFormatError ∧
      decodePacket (c :: (a ++ 0x00#8 :: b :: rest)) = .error .operandFormatError ∧
      decodePacket (c :: (a ++ 0x01#8 :: (v ++ b :: rest))) = .error .operandFormatError) ∧
    ∀ (s : State) (q : Bytes) (rest : List HostInput), s.input = .packet q :: rest →
      decodePacket q = .error .operandFormatError →
      step s = .next (State.statusOnly { s with input := rest } 0x09#8)

/-- R8, R65: a step takes the host's first pending input away and is `exec` of the instruction it decodes to; with no input
pending CORE holds its state (60_exceptions.md R320). How a program is pending is the model's choice (log 1). -/
def Obligations.StepRunsTheDecodedInstruction : Prop :=
  (∀ (s : State) (x : HostInput) (rest : List HostInput) (i : Instr), s.input = x :: rest → decode s.params x = .ok i →
      step s = exec i { s with input := rest }) ∧
    ∀ s : State, s.input = [] → step s = .next s

/-- R181, log 2: a payload handed over as a message row has the effect DEC_PAYLOAD has on it. -/
def Obligations.MessageRowsAgreeWithDecPayload : Prop :=
  ∀ (s : State) (p : Bytes), exec (decodePayload s.params p) s = exec (.decPayload p) s

/-! ## CRC engine -/

/-- R104: CRC_COMPUTE has command code 0x01 and returns the two check bytes, for every length; its corner cases and its
example. The single-byte corner case is marked derived in the rule itself. -/
def Obligations.CrcComputeReturnsCheckBytes : Prop :=
  (∀ (data : Bytes) (s : State),
      exec (.crcCompute data) s = .next (s.okWith ([0x00#8, 0x00#8, 0x00#8, 0x02#8] ++ crcBytes data))) ∧
    (∀ data : Bytes, data.length < 2 ^ 32 →
      decodePacket (0x01#8 :: (toBE 4 data.length ++ data)) = .ok (.crcCompute data)) ∧
    crcBytes [] = [0x00#8, 0x00#8] ∧
    (∀ b : Byte, crcBytes [b] = [b, 0x00#8]) ∧
    crcBytes [0x00#8, 0x81#8, 0x41#8, 0xDB#8, 0xD0#8, 0x08#8, 0x02#8] = [0xB3#8, 0x8B#8]

/-- R105: CRC_CHECK has command code 0x02, raises `CrcLengthError` unless `crc` has 2 bytes, and otherwise compares both
bytes in order. -/
def Obligations.CrcCheckComparesBothBytes : Prop :=
  (∀ (data crc : Bytes) (s : State), crc.length ≠ 2 → exec (.crcCheck data crc) s = .next (s.statusOnly 0x07#8)) ∧
    (∀ (data : Bytes) (c0 c1 : Byte) (s : State), exec (.crcCheck data [c0, c1]) s =
      .next (s.okWith [if crcBytes data = [c0, c1] then 0x01#8 else 0x00#8])) ∧
    (∀ data crc : Bytes, data.length < 2 ^ 32 → crc.length < 2 ^ 32 →
      decodePacket (0x02#8 :: (toBE 4 data.length ++ data ++ (toBE 4 crc.length ++ crc))) = .ok (.crcCheck data crc)) ∧
    (∀ s : State, exec (.crcCheck [] [0x00#8, 0x00#8]) s = .next (s.okWith [0x01#8])) ∧
    (∀ s : State, exec (.crcCheck [0x00#8, 0x81#8, 0x41#8, 0xDB#8, 0xD0#8, 0x08#8, 0x02#8] [0xB3#8, 0x8B#8]) s =
      .next (s.okWith [0x01#8])) ∧
    ∀ s : State, exec (.crcCheck [0x00#8, 0x81#8, 0x41#8, 0xDB#8, 0xD0#8, 0x08#8, 0x02#8] [0x8B#8, 0xB3#8]) s =
      .next (s.okWith [0x00#8])

/-- R106: the table-driven register is the remainder of the message polynomial, so CRC_COMPUTE answers that remainder, low
byte first (R103). -/
def Obligations.CrcIsThePolynomialRemainder : Prop :=
  ∀ data : Bytes,
    (crcValue data).toNat = gf2Remainder (beNat data) (8 * data.length) 0 ∧
    ∀ s : State, exec (.crcCompute data) s =
      .next (s.okWith ([0x00#8, 0x00#8, 0x00#8, 0x02#8] ++ toLE 2 (gf2Remainder (beNat data) (8 * data.length) 0)))

/-- R346: the CRC is linear over XOR for equal lengths, and CRC_CHECK passes a corrupted message of that length exactly when
the check bytes of the error pattern are the error in the check bytes. -/
def Obligations.CrcLinearityDecidesUndetectedErrors : Prop :=
  (∀ a b : Bytes, a.length = b.length → crcValue (List.zipWith (· ^^^ ·) a b) = crcValue a ^^^ crcValue b) ∧
    ∀ (message errors checkErrors : Bytes) (s : State), errors.length = message.length → checkErrors.length = 2 →
      (exec (.crcCheck (List.zipWith (· ^^^ ·) message errors) (List.zipWith (· ^^^ ·) (crcBytes message) checkErrors)) s =
          .next (s.okWith [0x01#8]) ↔ crcBytes errors = checkErrors)

/-! ## Frame codec -/

/-- R120: ESCAPE has command code 0x10, stuffs 0x7D and 0x7E and passes every other byte; the length law (which the rule
marks derived) and the two examples. -/
def Obligations.EscapeStuffsReservedBytes : Prop :=
  (∀ (data : Bytes) (s : State), exec (.escape data) s = .next (s.okWith (putBytesResult
      (data.flatMap fun b => if b = 0x7D#8 ∨ b = 0x7E#8 then [0x7D#8, b ^^^ 0x20#8] else [b])))) ∧
    (∀ data : Bytes, data.length < 2 ^ 32 →
      decodePacket (0x10#8 :: (toBE 4 data.length ++ data)) = .ok (.escape data)) ∧
    (∀ data : Bytes, (escape data).length = data.length + data.countP fun b => b = 0x7D#8 ∨ b = 0x7E#8) ∧
    (∀ n : Nat, (escape (List.replicate n 0x7E#8)).length = 2 * n) ∧
    escape [] = [] ∧ escape [0x5D#8, 0x5E#8, 0x20#8] = [0x5D#8, 0x5E#8, 0x20#8] ∧
    escape [0x7E#8] = [0x7D#8, 0x5E#8] ∧ escape [0x7D#8] = [0x7D#8, 0x5D#8]

/-- R121, R123: UNESCAPE consumes the byte after 0x7D whatever its value, and a final 0x7D follows `LONE_ESC`; so it gives back
what ESCAPE stuffed, for every byte string and either `LONE_ESC`. -/
def Obligations.UnescapeConsumesPairsAndInvertsEscape : Prop :=
  (∀ (data : Bytes) (s : State),
      exec (.unescape data) s = .next (s.okWith (putBytesResult (unescape s.params.loneEsc data))) ∧
      exec (.unescape (escape data)) s = .next (s.okWith (putBytesResult data))) ∧
    ∀ mode : LoneEsc, unescape mode [] = [] ∧
      (∀ (b : Byte) (rest : Bytes), b ≠ 0x7D#8 → unescape mode (b :: rest) = b :: unescape mode rest) ∧
      (∀ (c : Byte) (rest : Bytes), unescape mode (0x7D#8 :: c :: rest) = (c ^^^ 0x20#8) :: unescape mode rest) ∧
      (mode = .keep → unescape mode [0x7D#8] = [0x7D#8]) ∧ (mode = .drop → unescape mode [0x7D#8] = []) ∧
      ∀ data : Bytes, unescape mode (escape data) = data

/-- R122: PREPARE_FRAME has command code 0x12 and returns a flag, the escaped payload and check bytes, and a flag; no other
flag stands in the frame (derived in the rule); the empty payload; the example. -/
def Obligations.PrepareFrameDelimitsStuffedPayload : Prop :=
  (∀ (payload : Bytes) (s : State), exec (.prepareFrame payload) s =
      .next (s.okWith (putBytesResult ([0x7E#8] ++ escape (payload ++ crcBytes payload) ++ [0x7E#8])))) ∧
    (∀ payload : Bytes, payload.length < 2 ^ 32 →
      decodePacket (0x12#8 :: (toBE 4 payload.length ++ payload)) = .ok (.prepareFrame payload)) ∧
    (∀ payload : Bytes, 0x7E#8 ∉ escape (payload ++ crcBytes payload)) ∧
    (∀ s : State, exec (.prepareFrame []) s =
      .next (s.okWith [0x00#8, 0x00#8, 0x00#8, 0x04#8, 0x7E#8, 0x00#8, 0x00#8, 0x7E#8])) ∧
    ∀ s : State, exec (.prepareFrame [0x00#8, 0x81#8, 0x01#8, 0x90#8, 0x7E#8, 0x00#8, 0x02#8]) s =
      .next (s.okWith [0x00#8, 0x00#8, 0x00#8, 0x0C#8, 0x7E#8, 0x00#8, 0x81#8, 0x01#8, 0x90#8, 0x7D#8, 0x5E#8, 0x00#8,
        0x02#8, 0x0C#8, 0x1B#8, 0x7E#8])

/-! ## Field codecs -/

/-- R144: the decoded coordinate is a binary64 that denotes exactly `sext_24(raw) * 180 / 2^23`, for every code (the rule marks
its exactness derived); the rule's examples. MSG_OWNSHIP and MSG_TRAFFIC decode both coordinates by it (ReportDecodeLayout). -/
def Obligations.CoordinateDecodeIsExact : Prop :=
  (∀ raw : BitVec 24, ∃ (num : Int) (den : Nat), 0 < den ∧ realOf (coordDec raw) = .finite num den ∧
      num * 2 ^ 23 = raw.toInt * 180 * den) ∧
    coordDec 0x17BE76#24 = 0x4040B1EAF8000000#64 ∧ coordDec 0xB5AAE5#24 = 0xC05A21EB7E000000#64 ∧
    coordDec 0x800000#24 = 0xC066800000000000#64 ∧ coordDec 0x400000#24 = 0x4056800000000000#64

/-- R163, R143: decoding a coordinate and encoding it again gives the code back: every longitude code, and every latitude code
in [-2^22, 2^22]. Encoding a coordinate in range and decoding it again ends less than one step (180/2^23 degrees) toward zero
of it; only +180 degrees of longitude comes back as -180, the same meridian. -/
def Obligations.CoordinateQuantization : Prop :=
  (∀ raw : BitVec 24, lonReencode raw = .ok raw) ∧
    (∀ raw : BitVec 24, -(2 ^ 22) ≤ raw.toInt → raw.toInt ≤ 2 ^ 22 → latReencode raw = .ok raw) ∧
    ∀ (deg : F64) (num : Int) (den : Nat), realOf deg = .finite num den →
      let OneStepTowardZero (v : Except Status F64) : Prop := ∃ (x : F64) (n : Int) (d : Nat),
        v = .ok x ∧ realOf x = .finite n d ∧ 0 < d ∧ (0 ≤ num → 0 ≤ n) ∧ (num ≤ 0 → n ≤ 0) ∧
        n.natAbs * den ≤ num.natAbs * d ∧ num.natAbs * d * 2 ^ 23 < n.natAbs * den * 2 ^ 23 + 180 * (den * d)
      (num.natAbs ≤ 90 * den → OneStepTowardZero (latQuantized deg)) ∧
      (num.natAbs ≤ 180 * den → num ≠ (180 * den : Nat) → OneStepTowardZero (lonQuantized deg)) ∧
      (num = (180 * den : Nat) → lonQuantized deg = .ok 0xC066800000000000#64)

/-- R141, R142, R143, R303: a coordinate operand that is NaN raises, one outside the range clamps, an infinity clamps, and one
inside it gives the code truncated toward zero, less than one step away. `limit` is 90 for latitude, 180 for longitude. -/
def Obligations.CoordinateEncodeTruncatesTowardZero : Prop :=
  ∀ (deg : F64) (limit : Nat) (enc : F64 → Except Status (BitVec 24)),
    (limit = 90 ∧ enc = latEnc) ∨ (limit = 180 ∧ enc = lonEnc) →
    (realOf deg = .nan → enc deg = .error .encodeValueOutOfRange) ∧
    (realOf deg = .infinite false → enc deg = .ok (BitVec.ofNat 24 (limit * 2 ^ 23 / 180))) ∧
    (realOf deg = .infinite true → enc deg = .ok (-BitVec.ofNat 24 (limit * 2 ^ 23 / 180))) ∧
    ∀ (num : Int) (den : Nat), realOf deg = .finite num den →
      ((limit * den : Nat) < num → enc deg = .ok (BitVec.ofNat 24 (limit * 2 ^ 23 / 180))) ∧
      (num < -((limit * den : Nat) : Int) → enc deg = .ok (-BitVec.ofNat 24 (limit * 2 ^ 23 / 180))) ∧
      (-((limit * den : Nat) : Int) ≤ num → num ≤ (limit * den : Nat) →
        ∃ q : Int, enc deg = .ok (BitVec.ofInt 24 q) ∧ (0 ≤ num → 0 ≤ q) ∧ (num ≤ 0 → q ≤ 0) ∧
          q.natAbs * (180 * den) ≤ num.natAbs * 2 ^ 23 ∧ num.natAbs * 2 ^ 23 < (q.natAbs + 1) * (180 * den))

/-- R152, R163: a track byte decodes exactly to `raw * 360 / 256` and encodes back to itself in either rounding mode. -/
def Obligations.TrackCodesAreExactAndRoundTrip : Prop :=
  ∀ raw : Byte, (∃ (num : Int) (den : Nat), 0 < den ∧ realOf (trackDec raw) = .finite num den ∧
      num * 256 = (raw.toNat : Int) * 360 * den) ∧
    trackReencode .halfEven raw = .ok raw ∧ trackReencode .halfAway raw = .ok raw

/-- R151, R163: a track operand that is NaN or infinite raises; any other gives the nearest step modulo 256, an exact tie the even
step under `halfEven`, and decodes to within 0.703125 (45/64) degrees of the operand, modulo 360. -/
def Obligations.TrackEncodeRoundsToNearest : Prop :=
  ∀ (mode : RoundMode) (deg : F64),
    (realOf deg = .nan → trackEnc mode deg = .error .encodeValueOutOfRange) ∧
    (∀ negative, realOf deg = .infinite negative → trackEnc mode deg = .error .encodeValueOutOfRange) ∧
    ∀ (num : Int) (den : Nat), realOf deg = .finite num den →
      ∃ q : Int, trackEnc mode deg = .ok (BitVec.ofInt 8 q) ∧
        2 * (num * 256 - q * (360 * den)).natAbs ≤ 360 * den ∧
        (2 * (num * 256 - q * (360 * den)).natAbs = 360 * den → mode = .halfEven → q % 2 = 0) ∧
        ∃ (x : F64) (n turns : Int) (d : Nat), trackQuantized mode deg = .ok x ∧ realOf x = .finite n d ∧ 0 < d ∧
          64 * (num * d - (n + 360 * turns * d) * den).natAbs ≤ 45 * (den * d)

/-- R145, R146, R163: the altitude codec. In range the decoded altitude is within 12.5 ft under `Round`, and at most the
altitude and less than 25 ft below it under `Trunc`; out of range it clamps; every code but 0xFFF round trips. -/
def Obligations.AltitudeCodecBounds : Prop :=
  ∀ (quant : AltQuant) (mode : RoundMode),
    (∀ raw : BitVec 12, altDec raw = (raw.toNat : Int) * 25 - 1000 ∧
      (raw ≠ 0xFFF#12 → altReencode quant mode raw = raw) ∧ altReencode quant mode 0xFFF#12 = 0xFFE#12) ∧
    ∀ ft : Int, (ft < -1000 → altEnc quant mode ft = 0x000#12) ∧ (101350 < ft → altEnc quant mode ft = 0xFFE#12) ∧
      (-1000 ≤ ft → ft ≤ 101350 →
        (quant = .round → 2 * (altQuantized quant mode ft - ft).natAbs ≤ 25) ∧
        (quant = .trunc → altQuantized quant mode ft ≤ ft ∧ ft < altQuantized quant mode ft + 25))

/-- R147 to R150, R163: the velocity codecs. The no-data sentinels; the horizontal clamps and round trip; the vertical
limits, truncation in 64-fpm steps, and the round trip of every code outside the reserved set at the default parameters. -/
def Obligations.VelocityCodecSentinelsAndSteps : Prop :=
  hvelEnc none = 0xFFF#12 ∧
    (∀ k : Int, (k < 0 → hvelEnc (some k) = 0x000#12) ∧ (0xFFE < k → hvelEnc (some k) = 0xFFE#12) ∧
      (0 ≤ k → k ≤ 0xFFE → hvelDec (hvelEnc (some k)) = some (BitVec.ofInt 12 k))) ∧
    (∀ raw : BitVec 12, hvelReencode raw = raw ∧
      (hvelDec raw = none ↔ raw = 0xFFF#12)) ∧
    (∀ P : Params, vvelEnc P none = 0x800#12 ∧ vvelDec P 0x800#12 = none ∧
      (∀ raw : BitVec 12, raw ≠ 0x800#12 → vvelIsReserved P raw = true → vvelDec P raw = some 0) ∧
      ∀ f : Int, (32576 < f → vvelEnc P (some f) = P.vvelPosLimit) ∧ (f < -32576 → vvelEnc P (some f) = P.vvelNegLimit) ∧
        (-32576 ≤ f → f ≤ 32576 → ∃ q : Int, vvelEnc P (some f) = BitVec.ofInt 12 q ∧ (0 ≤ f → 0 ≤ q) ∧ (f ≤ 0 → q ≤ 0) ∧
          q.natAbs * 64 ≤ f.natAbs ∧ f.natAbs < (q.natAbs + 1) * 64 ∧
          vvelDec standardParams (vvelEnc P (some f)) = some (q * 64))) ∧
    ∀ raw : BitVec 12, vvelIsReserved standardParams raw = false →
      vvelReencode standardParams raw = raw

/-- R153, R154: a call sign is padded with spaces to 8 bytes or cut to its first 8; decoding strips every trailing space
and no other byte, and an all-space call sign is the placeholder, which is not the empty string (log 6). -/
def Obligations.CallSignCodec : Prop :=
  (∀ t : Bytes, (callsignEnc t).length = 8 ∧
      (t.length ≤ 8 → callsignEnc t = t ++ List.replicate (8 - t.length) 0x20#8) ∧
      (8 ≤ t.length → callsignEnc t = t.take 8)) ∧
    (∀ (t : Bytes) (c : Byte) (n : Nat), c ≠ 0x20#8 → callsignDec (t ++ [c] ++ List.replicate n 0x20#8) = t ++ [c]) ∧
    (∀ (t : Bytes) (c : Byte), c ≠ 0x20#8 → t.length ≤ 7 → callsignDec (callsignEnc (t ++ [c])) = t ++ [c]) ∧
    ∀ n : Nat, callsignDec (List.replicate n 0x20#8) = emptyCallsign ∧ emptyCallsign ≠ []

/-! ## Messages -/

/-- R184, R159, R160 (and R183): ENC_HEARTBEAT clamps the timestamp to 17 bits and the counts to 31 and 1023, folds bit 16
into status2 bit 7, leaves count bit 10 zero, and returns the frame; MSG_HEARTBEAT decodes that payload back. -/
def Obligations.HeartbeatEncodeClampsAndDecodesBack : Prop :=
  ∀ (s : State) (status1 status2 : Byte) (timestamp : BitVec 32) (u : Byte) (bl : BitVec 16),
    let t := min timestamp.toNat 0x1FFFF
    let w := min u.toNat 31 * 2048 + min bl.toNat 1023
    let st2 : Byte := (status2 &&& 0x7F#8) ||| (if 0x10000 ≤ t then 0x80#8 else 0x00#8)
    let p : Bytes := [0x00#8, status1, st2, BitVec.ofNat 8 t, BitVec.ofNat 8 (t / 256), BitVec.ofNat 8 (w / 256),
      BitVec.ofNat 8 w]
    exec (.encHeartbeat status1 status2 timestamp u bl) s = .next (s.okWith (putBytesResult (prepareFrame p))) ∧
    exec (.msgHeartbeat p) s = .next (s.okWith (0x00#8 :: ([status1, st2] ++ toBE 4 t ++
      [BitVec.ofNat 8 (min u.toNat 31)] ++ toBE 2 (min bl.toNat 1023))))

/-- R183: a 7-byte heartbeat decodes by the layout table, status2 raw and bit 2 of byte 5 ignored; any other length is
`Invalid{MalformedField}`. -/
def Obligations.HeartbeatDecodeLayout : Prop :=
  (∀ (s : State) (id b1 b2 b3 b4 b5 b6 : Byte), exec (.msgHeartbeat [id, b1, b2, b3, b4, b5, b6]) s =
      .next (s.okWith (0x00#8 :: ([b1, b2] ++
        toBE 4 (b2.toNat / 128 * 65536 + b4.toNat * 256 + b3.toNat) ++ [BitVec.ofNat 8 (b5.toNat / 8)] ++
        toBE 2 (b5.toNat % 4 * 256 + b6.toNat))))) ∧
    ∀ (s : State) (p : Bytes), p.length ≠ 7 → exec (.msgHeartbeat p) s = .next (s.okWith [0x07#8, 0x04#8])

/-- R303, R188, R189, R310: the report encoders raise `EncodeValueOutOfRange` exactly when the address does not fit 24 bits, a
coordinate is NaN, or the track is NaN or infinite; otherwise they return the frame of a 28-byte payload with their ID. -/
def Obligations.ReportEncodersRaiseExactlyWhenIllegal : Prop :=
  ∀ (r : ReportIn) (s : State),
    (reportIllegal r → exec (.encOwnship r) s = .next (s.statusOnly 0x06#8) ∧
      exec (.encTraffic r) s = .next (s.statusOnly 0x06#8)) ∧
    (¬ reportIllegal r → ∃ p q : Bytes, p.length = 28 ∧ p.head? = some 0x0A#8 ∧ q.length = 28 ∧
      q.head? = some s.params.idTraffic ∧
      exec (.encOwnship r) s = .next (s.okWith (putBytesResult (prepareFrame p))) ∧
      exec (.encTraffic r) s = .next (s.okWith (putBytesResult (prepareFrame q))))

/-- R185, R186, R188, R189: what ENC_OWNSHIP and ENC_TRAFFIC pack, MSG_OWNSHIP and MSG_TRAFFIC read back, every field through
its own codec, with the spare bits 0. -/
def Obligations.ReportEncodeDecodesBack : Prop :=
  ∀ (r : ReportIn) (s : State), ¬ reportIllegal r →
    ∃ (lat lon : BitVec 24) (trk : Byte) (p q : Bytes),
      latEnc r.latitude = .ok lat ∧ lonEnc r.longitude = .ok lon ∧
      trackEnc s.params.roundMode r.trackHeading = .ok trk ∧
      let out : Report :=
        { status := nibEnc r.status
          addressType := nibEnc r.addressType
          address := r.address.setWidth 24
          latitude := coordDec lat
          longitude := coordDec lon
          altitude := altDec (altEnc s.params.altQuant s.params.roundMode r.altitude.toInt)
          misc := nibEnc r.misc
          navIntegrityCat := nibEnc r.navIntegrityCat
          navAccuracyCat := nibEnc r.navAccuracyCat
          hVelocity := hvelDec (hvelEnc (r.hVelocity.map BitVec.toInt))
          vVelocity := vvelDec s.params (vvelEnc s.params (r.vVelocity.map BitVec.toInt))
          trackHeading := trackDec trk
          emitterCategory := r.emitterCategory
          callSign := callsignDec (callsignEnc r.callSign)
          code := nibEnc r.code }
      p.length = 28 ∧ q.length = 28 ∧ getbits p 220 4 = 0 ∧ getbits q 220 4 = 0 ∧
      exec (.encOwnship r) s = .next (s.okWith (putBytesResult (prepareFrame p))) ∧
      exec (.msgOwnship p) s = .next (s.okWith (0x01#8 :: putReport out)) ∧
      exec (.encTraffic r) s = .next (s.okWith (putBytesResult (prepareFrame q))) ∧
      exec (.msgTraffic q) s = .next (s.okWith (0x02#8 :: putReport out))

/-- R185, R186, R187, R68, R66: a 28-byte report with its own ID decodes byte by byte as the layout table says, the spare bits
ignored; the answer is the variant's tag and the fields of the record in R68's order, each at its width, big-endian, an absent
velocity the byte 0. Any other length or ID is `Invalid{MalformedField}`. `putReport` of any record is those bytes. -/
def Obligations.ReportDecodeLayout : Prop :=
  let record (r : Report) : Bytes :=
    [r.status.setWidth 8, r.addressType.setWidth 8] ++ toBE 4 r.address.toNat ++ toBE 8 r.latitude.toNat ++
      toBE 8 r.longitude.toNat ++ toBE 4 (BitVec.ofInt 32 r.altitude).toNat ++
      [r.misc.setWidth 8, r.navIntegrityCat.setWidth 8, r.navAccuracyCat.setWidth 8] ++
      (match r.hVelocity with
        | none => [0x00#8]
        | some knots => 0x01#8 :: toBE 2 knots.toNat) ++
      (match r.vVelocity with
        | none => [0x00#8]
        | some fpm => 0x01#8 :: toBE 4 (BitVec.ofInt 32 fpm).toNat) ++
      toBE 8 r.trackHeading.toNat ++ [r.emitterCategory] ++ putBytesResult r.callSign ++ [r.code.setWidth 8]
  (∀ r : Report, putReport r = record r) ∧
  (∀ (s : State) (b1 b2 b3 b4 b5 b6 b7 b8 b9 b10 b11 b12 b13 b14 b15 b16 b17 b18 b19 b20 b21 b22 b23 b24 b25 b26
      b27 : Byte),
    let fields : Bytes := [b1, b2, b3, b4, b5, b6, b7, b8, b9, b10, b11, b12, b13, b14, b15, b16, b17, b18, b19, b20, b21,
      b22, b23, b24, b25, b26, b27]
    let out : Report :=
      { status := b1.extractLsb' 4 4
        addressType := b1.extractLsb' 0 4
        address := b2 ++ b3 ++ b4
        latitude := coordDec (b5 ++ b6 ++ b7)
        longitude := coordDec (b8 ++ b9 ++ b10)
        altitude := altDec (b11 ++ b12.extractLsb' 4 4)
        misc := b12.extractLsb' 0 4
        navIntegrityCat := b13.extractLsb' 4 4
        navAccuracyCat := b13.extractLsb' 0 4
        hVelocity := hvelDec (b14 ++ b15.extractLsb' 4 4)
        vVelocity := vvelDec s.params (b15.extractLsb' 0 4 ++ b16)
        trackHeading := trackDec b17
        emitterCategory := b18
        callSign := callsignDec [b19, b20, b21, b22, b23, b24, b25, b26]
        code := b27.extractLsb' 4 4 }
    exec (.msgOwnship (0x0A#8 :: fields)) s = .next (s.okWith (0x01#8 :: record out)) ∧
    exec (.msgTraffic (s.params.idTraffic :: fields)) s = .next (s.okWith (0x02#8 :: record out))) ∧
  ∀ (s : State) (p : Bytes),
    (p.length ≠ 28 ∨ p.head? ≠ some 0x0A#8 → exec (.msgOwnship p) s = .next (s.okWith [0x07#8, 0x04#8])) ∧
    (p.length ≠ 28 ∨ p.head? ≠ some s.params.idTraffic → exec (.msgTraffic p) s = .next (s.okWith [0x07#8, 0x04#8]))

/-- R191, R155, R157: ENC_GEOALT quantizes to the nearest 5-ft step (within 2 ft) and clamps to 16 bits, packs the warning bit
above the 15-bit merit, and returns the frame of the 5-byte payload. -/
def Obligations.GeoaltEncodeQuantizesAndPacks : Prop :=
  ∀ (s : State) (altitude : BitVec 32) (merit : Option (BitVec 32)) (warning : Bool),
    let ft := altitude.toInt
    let v := (if warning then 0x8000 else 0) + (merit.elim 0x7FFF fun m => min m.toNat 0x7FFE)
    ∃ a0 a1 : Byte,
      (ft < -163840 → a0 ++ a1 = 0x8000#16) ∧ (163835 < ft → a0 ++ a1 = 0x7FFF#16) ∧
      (-163840 ≤ ft → ft ≤ 163835 → ((a0 ++ a1).toInt * 5 - ft).natAbs ≤ 2) ∧
      exec (.encGeoalt altitude merit warning) s = .next (s.okWith (putBytesResult (prepareFrame
        [s.params.idGeoalt, a0, a1, BitVec.ofNat 8 (v / 256), BitVec.ofNat 8 v])))

/-- R190, R156, R158, R163: a 5-byte geometric altitude decodes to `sext_16 * 5` and the raw metrics word, whose accessors
split off bit 15 and the merit; any other length is `Invalid{MalformedField}`; every altitude code encodes back. -/
def Obligations.GeoaltDecodeLayout : Prop :=
  (∀ (s : State) (id a0 a1 v0 v1 : Byte), exec (.msgGeoalt [id, a0, a1, v0, v1]) s = .next (s.okWith
      (0x03#8 :: (toBE 4 (BitVec.ofInt 32 ((a0 ++ a1).toInt * 5)).toNat ++ [v0, v1])))) ∧
    (∀ (s : State) (p : Bytes), p.length ≠ 5 → exec (.msgGeoalt p) s = .next (s.okWith [0x07#8, 0x04#8])) ∧
    (∀ (mode : RoundMode) (raw : BitVec 16), geoaltReencode mode raw = raw) ∧
    ∀ (merit : Option (BitVec 32)) (warning : Bool), vmWarning (vmEnc merit warning) = warning ∧
      vmMerit (vmEnc merit warning) = merit.map fun m => BitVec.ofNat 16 (min m.toNat 0x7FFE)

/-- R195, R162, R303: ENC_UPLINK raises `EncodeValueOutOfRange` for a wrong block length or a time of reception of 2^24 or
more; otherwise it returns the frame of the 436-byte payload, in the byte order `TOR_ORDER` says, which decodes back. -/
def Obligations.UplinkEncodeChecksAndDecodesBack : Prop :=
  ∀ (s : State) (t : BitVec 32) (header data : Bytes),
    (header.length ≠ 8 ∨ data.length ≠ 424 ∨ 2 ^ 24 ≤ t.toNat →
      exec (.encUplink t header data) s = .next (s.statusOnly 0x06#8)) ∧
    (header.length = 8 → data.length = 424 → t.toNat < 2 ^ 24 →
      let p : Bytes := s.params.idUplink :: ((match s.params.torOrder with
        | .big => toBE 3 t.toNat
        | .little => toLE 3 t.toNat) ++ header ++ data)
      exec (.encUplink t header data) s = .next (s.okWith (putBytesResult (prepareFrame p))) ∧
      exec (.msgUplink p) s = .next (s.okWith (0x05#8 :: (toBE 4 t.toNat ++ ([0x00#8, 0x00#8, 0x00#8, 0x08#8] ++ header) ++
        ([0x00#8, 0x00#8, 0x01#8, 0xA8#8] ++ data)))))

/-- R194: a 436-byte uplink payload splits into time of reception, header and data; any other length is
`Invalid{MalformedField}`; DEC_PAYLOAD of a payload with ID_UPLINK, at lawful parameters, is that decoder's answer. That the
payload is also an input of its own, the row MSG_UPLINK, is the model's choice (log 2). The value 0x07 of ID_UPLINK is the
spec's general knowledge (log 15), and the example is derived in the rule. -/
def Obligations.UplinkDecodeLayout : Prop :=
  (∀ (s : State) (id t0 t1 t2 : Byte) (header data : Bytes), header.length = 8 → data.length = 424 →
      exec (.msgUplink (id :: t0 :: t1 :: t2 :: (header ++ data))) s = .next (s.okWith (0x05#8 ::
        ((match s.params.torOrder with
          | .big => [0x00#8, t0, t1, t2]
          | .little => [0x00#8, t2, t1, t0]) ++ ([0x00#8, 0x00#8, 0x00#8, 0x08#8] ++ header) ++
        ([0x00#8, 0x00#8, 0x01#8, 0xA8#8] ++ data))))) ∧
    (∀ (s : State) (p : Bytes), p.length ≠ 436 → exec (.msgUplink p) s = .next (s.okWith [0x07#8, 0x04#8])) ∧
    (∀ (P : Params) (rest : Bytes), paramsLawful P = true →
      decodePayload P (P.idUplink :: rest) = .msgUplink (P.idUplink :: rest)) ∧
    (∀ (s : State) (rest : Bytes), paramsLawful s.params = true →
      exec (.decPayload (s.params.idUplink :: rest)) s = exec (.msgUplink (s.params.idUplink :: rest)) s) ∧
    standardParams.idUplink = 0x07#8 ∧
    decUplink standardParams ([0x07#8, 0x00#8, 0x00#8, 0x2A#8] ++ List.replicate 8 0x11#8 ++ List.replicate 424 0x00#8) =
      .uplinkData 42#24 (List.replicate 8 0x11#8) (List.replicate 424 0x00#8)

/-- R197, R303, R310: ENC_GPSTIME raises `EncodeValueOutOfRange` for an hour above 23 or a minute above 59, is refused while
`GPS_LAYOUT` is not given, and otherwise returns the frame of a 12-byte payload whose status byte is 0x30 plus the clamped
quality and whose hour and minute MSG_GPSTIME reads back. The form of a layout is the model's choice (log 5). -/
def Obligations.GpsTimeEncodeOutcomes : Prop :=
  ∀ (s : State) (count : BitVec 32) (quality hour minute : Byte),
    (23 < hour.toNat ∨ 59 < minute.toNat →
      exec (.encGpstime count quality hour minute) s = .next (s.statusOnly 0x06#8)) ∧
    (hour.toNat ≤ 23 → minute.toNat ≤ 59 → s.params.gpsLayout = none →
      exec (.encGpstime count quality hour minute) s = .next (s.refusedWith .gpsLayoutOpen)) ∧
    ∀ L : GpsLayout, hour.toNat ≤ 23 → minute.toNat ≤ 59 → s.params.gpsLayout = some L → gpsLayoutLawful L = true →
      ∃ (body : Bytes) (waas : Option Bool), body.length = 11 ∧
        body[L.status - 1]? = some (0x30#8 + BitVec.ofNat 8 (min quality.toNat 2)) ∧
        exec (.encGpstime count quality hour minute) s = .next (s.okWith (putBytesResult (prepareFrame (0x65#8 :: body)))) ∧
        exec (.msgGpstime (0x65#8 :: body)) s =
          .next (s.okWith (0x04#8 :: ([hour, minute] ++ putOptionResult putBoolResult waas)))

/-- R196, R310: MSG_GPSTIME gives `Absent` for 29 bytes before the layout is consulted, `Invalid{MalformedField}` for any
length but 12 and 21, the refusal while `GPS_LAYOUT` is not given, `Invalid{InvalidTimeField}` for an hour above 23 or a
minute above 59, and the time otherwise. The form of a layout is the model's choice (log 5), and so is that the length alone
says whether the WAAS indication is present. -/
def Obligations.GpsTimeDecodeOutcomes : Prop :=
  ∀ (s : State) (p : Bytes),
    (p.length = 29 → exec (.msgGpstime p) s = .next (s.okWith [0x08#8])) ∧
    (p.length ≠ 12 → p.length ≠ 21 → p.length ≠ 29 → exec (.msgGpstime p) s = .next (s.okWith [0x07#8, 0x04#8])) ∧
    (p.length = 12 ∨ p.length = 21 →
      (s.params.gpsLayout = none → exec (.msgGpstime p) s = .next (s.refusedWith .gpsLayoutOpen)) ∧
      ∀ L : GpsLayout, s.params.gpsLayout = some L → gpsLayoutLawful L = true →
        let v := if p.length = 12 then L.short else L.long
        ∃ h m : Byte, p[v.hour]? = some h ∧ p[v.minute]? = some m ∧
          (23 < h.toNat ∨ 59 < m.toNat → exec (.msgGpstime p) s = .next (s.okWith [0x07#8, 0x05#8])) ∧
          (h.toNat ≤ 23 → m.toNat ≤ 59 → ∃ waas : Option Bool,
            (waas.isSome ↔ v.waas.isSome) ∧
            exec (.msgGpstime p) s =
              .next (s.okWith (0x04#8 :: ([h, m] ++ putOptionResult putBoolResult waas)))))

/-- R181, R198: an ID without a decoder gives `Unknown` with the whole payload, and a vendor payload is refused: REFUSED takes
the mark and nothing else changes. That the empty payload, which R181 makes malformed, is filed under MSG_UNKNOWN is the
model's choice (log 11), and that a refusal answers no packet its deduction (log 8). -/
def Obligations.UnknownAndVendorPayloads : Prop :=
  (∀ (s : State) (id : Byte) (rest : Bytes), exec (.msgUnknown (id :: rest)) s =
      .next (s.okWith (0x06#8 :: id :: putBytesResult (id :: rest)))) ∧
    (∀ s : State, exec (.msgUnknown []) s = .next (s.okWith [0x07#8, 0x04#8])) ∧
    ∀ (s : State) (p : Bytes), exec (.msgVendor p) s = .next (s.refusedWith .vendorLayoutNotInSource)

/-- R181, R63: DEC_PAYLOAD follows the message-ID map, at any lawful parameters: the empty payload is malformed, a vendor ID
is refused, each ID of the map selects its decoder, and every other ID gives `Unknown`. -/
def Obligations.DecPayloadFollowsTheIdMap : Prop :=
  ∀ (s : State) (rest : Bytes), paramsLawful s.params = true →
    exec (.decPayload []) s = .next (s.okWith [0x07#8, 0x04#8]) ∧
    exec (.decPayload (0x00#8 :: rest)) s = exec (.msgHeartbeat (0x00#8 :: rest)) s ∧
    exec (.decPayload (0x0A#8 :: rest)) s = exec (.msgOwnship (0x0A#8 :: rest)) s ∧
    exec (.decPayload (s.params.idTraffic :: rest)) s = exec (.msgTraffic (s.params.idTraffic :: rest)) s ∧
    exec (.decPayload (s.params.idGeoalt :: rest)) s = exec (.msgGeoalt (s.params.idGeoalt :: rest)) s ∧
    exec (.decPayload (s.params.idUplink :: rest)) s = exec (.msgUplink (s.params.idUplink :: rest)) s ∧
    exec (.decPayload (0x65#8 :: rest)) s = exec (.msgGpstime (0x65#8 :: rest)) s ∧
    (∀ id ∈ s.params.vendorIds,
      exec (.decPayload (id :: rest)) s = .next (s.refusedWith .vendorLayoutNotInSource)) ∧
    ∀ id, id ∉ s.params.vendorIds → id ∉ [0x00#8, 0x0A#8, s.params.idTraffic, s.params.idGeoalt, s.params.idUplink, 0x65#8] →
      exec (.decPayload (id :: rest)) s = .next (s.okWith (0x06#8 :: id :: putBytesResult (id :: rest)))

/-! ## Stream decoder -/

/-- R230, R232, R29 and R245 laws 1 to 3, each as what one ADD_BYTES adds: from any state it either is refused and writes only
REFUSED, or ends with BUF empty or starting with its only flag byte while SYNC is true (law 3), having touched only the
stream elements and answered the number of results it appended to OUTQ. Those results are, in order, what the frames that pass
their check decode to, one less for every `Absent` (law 2). TOTAL_FRAMES grows by the number of frames, the `good` counters by
the number that pass, and law 1 goes on holding: what it says of TOTAL_FRAMES, the short frames and the sum of the counters
changes on both sides by the same amount, modulo 2 to the `CTR_W`. The frames are `frameBodies` of BUF and the new bytes. -/
def Obligations.AddBytesSettlesAndCountsOrIsRefused : Prop :=
  ∀ (data : Bytes) (s : State),
    (∃ r, exec (.addBytes data) s = .next (s.refusedWith r)) ∨
    ∃ (t : State) (new : List DecodeResult), exec (.addBytes data) s = .next t ∧ t.Settled ∧
      t = { s with buf := t.buf, sync := t.sync, resyncCount := t.resyncCount, totalFrames := t.totalFrames,
                   stats := t.stats, outq := s.outq ++ new, results := s.results ++ [0x00#8 :: putU32 new.length] } ∧
      let P := s.params
      let bodies := s.bodiesOf data
      let short := bodies.countP fun b => isShort P b
      let good := bodies.filter fun b => passesCheck P b
      new = good.filterMap (queuedOf P) ∧
      new.length + good.countP (fun b => decPayload P (payloadOf P b) = .ok .absent) = good.length ∧
      (P.ctrW ≤ 64 → t.totalFrames.toNat % 2 ^ P.ctrW = (s.totalFrames.toNat + bodies.length) % 2 ^ P.ctrW) ∧
      (P.ctrW ≤ 64 → statsCanonical s.stats →
        goodSum t.stats % 2 ^ P.ctrW = (goodSum s.stats + good.length) % 2 ^ P.ctrW ∧
        (t.totalFrames.toNat + (goodSum s.stats + badSum s.stats)) % 2 ^ P.ctrW =
          (s.totalFrames.toNat + short + (goodSum t.stats + badSum t.stats)) % 2 ^ P.ctrW)

/-- R230, R29: with unbounded capacities, no vendor ID and a given `GPS_LAYOUT`, ADD_BYTES is never refused: it answers a
next state in which it has settled the buffer and answered its count. -/
def Obligations.AddBytesCompletes : Prop :=
  ∀ (data : Bytes) (s : State), s.params.bufCap = none → s.params.outqCap = none → s.params.vendorIds = [] →
    s.params.gpsLayout ≠ none →
    ∃ (t : State) (new : List DecodeResult), exec (.addBytes data) s = .next t ∧ t.Settled ∧ t.refused = s.refused ∧
      t.outq = s.outq ++ new ∧ t.results = s.results ++ [0x00#8 :: putU32 new.length]

/-- R232: the drain loop terminates: fuel beyond `drainFuel` changes nothing, from any state. -/
def Obligations.DrainLoopTerminates : Prop :=
  ∀ (s : State) (k : Nat), s.drainFuel ≤ k → State.drain k s = State.drain s.drainFuel s

/-- R125, R236, R237: with BUF empty, the frame PREPARE_FRAME makes of a payload of 3 bytes or more is extracted whole by one
ADD_BYTES: one frame and one good count of its ID more, its decode result queued unless `Absent`, BUF empty and SYNC true. -/
def Obligations.PreparedFrameIsDecodedAndCounted : Prop :=
  ∀ (s : State) (p : Bytes) (r : DecodeResult), s.buf = [] → 3 ≤ p.length →
    withinCap s.params.bufCap (prepareFrame p).length → withinCap s.params.outqCap (s.outq.length + 1) →
    decPayload s.params p = .ok r →
    let new := if r = .absent then [] else [r]
    exec (.addBytes (prepareFrame p)) s = .next
      { s with
        sync := true
        resyncCount := if s.sync then s.resyncCount else bump s.params.ctrW s.resyncCount
        totalFrames := bump s.params.ctrW s.totalFrames
        stats := countGood s.params.ctrW (p.headD 0#8) (ensureEntry (p.headD 0#8) s.stats)
        outq := s.outq ++ new
        results := s.results ++ [0x00#8 :: toBE 4 new.length] }

/-- R236, R302: a synchronized CORE with BUF empty counts a body that unescapes to fewer than 5 bytes in TOTAL_FRAMES alone,
and one whose check bytes are wrong in TOTAL_FRAMES and the `bad` counter of its ID; neither queues a result or changes SYNC. -/
def Obligations.RejectedFramesAreOnlyCounted : Prop :=
  ∀ (s : State) (body : Bytes), s.buf = [] → s.sync = true → 0x7E#8 ∉ body →
    withinCap s.params.bufCap (body.length + 2) →
    let u := unescape s.params.loneEsc body
    (u.length < 5 → exec (.addBytes ([0x7E#8] ++ body ++ [0x7E#8])) s = .next
      { s with
        totalFrames := bump s.params.ctrW s.totalFrames
        results := s.results ++ [[0x00#8, 0x00#8, 0x00#8, 0x00#8, 0x00#8]] }) ∧
    (5 ≤ u.length → crcBytes (u.take (u.length - 2)) ≠ u.drop (u.length - 2) →
      exec (.addBytes ([0x7E#8] ++ body ++ [0x7E#8])) s = .next
        { s with
          totalFrames := bump s.params.ctrW s.totalFrames
          stats := countBad s.params.ctrW (u.headD 0#8) (ensureEntry (u.headD 0#8) s.stats)
          results := s.results ++ [[0x00#8, 0x00#8, 0x00#8, 0x00#8, 0x00#8]] })

/-- R233: an unsynchronized CORE with BUF empty discards garbage: all of it where there is no flag byte (case a); through the
first of two adjacent flags (case b); up to a lone flag, the last byte of BUF included (case c). RESYNC_COUNT counts it. -/
def Obligations.ResyncDiscardsToTheFlag : Prop :=
  ∀ (s : State) (garbage tail : Bytes), s.buf = [] → s.sync = false → s.params.bufCap = none → 0x7E#8 ∉ garbage →
    0x7E#8 ∉ tail →
    let after : State := { s with
      resyncCount := bump s.params.ctrW s.resyncCount
      results := s.results ++ [[0x00#8, 0x00#8, 0x00#8, 0x00#8, 0x00#8]] }
    exec (.addBytes garbage) s = .next after ∧
    exec (.addBytes (garbage ++ [0x7E#8, 0x7E#8] ++ tail)) s = .next { after with buf := 0x7E#8 :: tail, sync := true } ∧
    exec (.addBytes (garbage ++ [0x7E#8] ++ tail)) s = .next { after with buf := 0x7E#8 :: tail, sync := true }

/-- R24: SYNC is false at creation; RESYNC sets it when it finds a flag byte and leaves it false when it exhausts BUF; EXTRACT
clears it exactly when BUF's first byte is not a flag, whatever becomes of the frame; RESET clears it; READ_STATUS shows it in
bit 0; no other command writes it. -/
def Obligations.SyncFlagWriters : Prop :=
  State.reset.sync = false ∧
    (∀ s : State, s.sync = false → (0x7E#8 ∈ s.buf → s.resync.1.sync = true) ∧ (0x7E#8 ∉ s.buf → s.resync.1.sync = false)) ∧
    (∀ (s t : State) (goOn : Bool), s.sync = true → s.extract = .ok (t, goOn) →
      (t.sync = true ↔ s.buf.head? = some 0x7E#8)) ∧
    (∀ s t : State, exec .reset s = .next t → t.sync = false) ∧
    (∀ s : State, ∃ words, exec .readStatus s = .next (s.okWith words) ∧
      words.take 4 = [0x00#8, 0x00#8, 0x00#8, if s.sync then 0x01#8 else 0x00#8]) ∧
    ∀ (i : Instr) (s t : State), (∀ d, i ≠ .addBytes d) → i ≠ .reset → exec i s = .next t → t.sync = s.sync

/-- R343, R245 law 4: cutting the bytes given to ADD_BYTES in two changes nothing but RESYNC_COUNT and the split of the counts
answered. The one exception is R343's: the first part ends with RESYNC case (c) on its last byte, and the second begins with
another flag byte. -/
def Obligations.SplitPointsDoNotMatter : Prop :=
  ∀ (s s₁ s₂ : State) (a b : Bytes), s.params.bufCap = none → s.refused = none →
    exec (.addBytes a) s = .next s₁ → s₁.refused = none → ¬(s.EndsAtLoneFlag a ∧ b.head? = some 0x7E#8) →
    exec (.addBytes b) s₁ = .next s₂ → s₂.refused = none →
    ∃ t : State, exec (.addBytes (a ++ b)) s = .next t ∧ t.buf = s₂.buf ∧ t.sync = s₂.sync ∧
      t.totalFrames = s₂.totalFrames ∧ t.stats = s₂.stats ∧ t.outq = s₂.outq ∧ t.refused = none

/-- R343: the state BUF = `[7E]` with SYNC true recurs, and a command that carries exactly one frame loses it: one frame (the
empty body) and one RESYNC counted, nothing queued. -/
def Obligations.LoneFlagStateLosesOneFrameCommands : Prop :=
  ∀ (s : State) (e : Bytes), s.buf = [0x7E#8] → s.sync = true → e ≠ [] → 0x7E#8 ∉ e →
    withinCap s.params.bufCap (e.length + 3) →
    exec (.addBytes ([0x7E#8] ++ e ++ [0x7E#8])) s = .next
      { s with
        resyncCount := bump s.params.ctrW s.resyncCount
        totalFrames := bump s.params.ctrW s.totalFrames
        results := s.results ++ [[0x00#8, 0x00#8, 0x00#8, 0x00#8, 0x00#8]] }

/-- R231, R43, R237, R236, R29: when ADD_BYTES is refused, with REFUSED marked and nothing else changed. An append past a finite
`BUF_CAP`, before any byte is appended; one that exactly fills it is not. With BUF empty and a frame that passes its check: a
result to queue when OUTQ already holds `OUTQ_CAP` entries; an ID in `VENDOR_IDS`; a GPS time of 12 or 21 bytes while
`GPS_LAYOUT` is not given. That no packet is answered is the model's deduction (log 8). -/
def Obligations.AddBytesRefusals : Prop :=
  (∀ (s : State) (data : Bytes) (cap : Nat), s.params.bufCap = some cap →
    (cap < s.buf.length + data.length → exec (.addBytes data) s = .next (s.refusedWith .bufferOverflow)) ∧
    (s.buf.length + data.length ≤ cap → s.bufAppend data = .ok { s with buf := s.buf ++ data })) ∧
  ∀ (s : State) (body : Bytes), s.buf = [] → 0x7E#8 ∉ body → withinCap s.params.bufCap (body.length + 2) →
    passesCheck s.params body →
    let p := payloadOf s.params body
    let ends := exec (.addBytes ([0x7E#8] ++ body ++ [0x7E#8])) s
    (∀ (cap : Nat) (r : DecodeResult), s.params.outqCap = some cap → cap ≤ s.outq.length →
      decPayload s.params p = .ok r → r ≠ .absent → ends = .next (s.refusedWith .outqOverflow)) ∧
    (p.headD 0#8 ∈ s.params.vendorIds → ends = .next (s.refusedWith .vendorLayoutNotInSource)) ∧
    (paramsLawful s.params = true → p.headD 0#8 = 0x65#8 → p.length = 12 ∨ p.length = 21 → s.params.gpsLayout = none →
      ends = .next (s.refusedWith .gpsLayoutOpen))

/-- R240: READ_OUT removes and returns the oldest result, or raises `Empty` and writes nothing. -/
def Obligations.ReadOutIsFirstInFirstOut : Prop :=
  ∀ s : State, (s.outq = [] → exec .readOut s = .next (s.statusOnly 0x0A#8)) ∧
    ∀ (r : DecodeResult) (rest : List DecodeResult), s.outq = r :: rest →
      exec .readOut s = .next (State.okWith { s with outq := rest } (putDecodeResult r))

/-- R33, R241, R243: READ_STATUS returns SYNC in bit 0 of the first word and the two lengths, saturated at 32 bits; READ_BUFFER
returns BUF; neither writes anything. -/
def Obligations.StatusAndBufferReads : Prop :=
  ∀ s : State,
    exec .readStatus s = .next (s.okWith ([0x00#8, 0x00#8, 0x00#8, if s.sync then 0x01#8 else 0x00#8] ++
      toBE 4 (min s.buf.length (2 ^ 32 - 1)) ++ toBE 4 (min s.outq.length (2 ^ 32 - 1)))) ∧
    exec .readBuffer s = .next (s.okWith (putBytesResult s.buf))

/-- R242, R69, R27: READ_STATS returns the two counters and one entry for each observed ID, at most 256 of them, in the
order STATS holds them, which is ascending (the hypothesis, kept by every step). -/
def Obligations.StatsReadReturnsTheSurface : Prop :=
  ∀ s : State, statsCanonical s.stats → s.stats.length ≤ 256 ∧
    exec .readStats s = .next (s.okWith (toBE 8 s.totalFrames.toNat ++ toBE 8 s.resyncCount.toNat ++
      toBE 4 s.stats.length ++
      s.stats.flatMap fun e => e.id :: (toBE 8 e.good.toNat ++ toBE 8 e.bad.toNat)))

/-- R32, R244, R330, R331: RESET empties BUF, STATS and OUTQ, clears SYNC and both counters, and changes neither REFUSED nor a
parameter; a second RESET changes nothing but its answer; CORE as created holds the same values and no refusal mark. SYNC's
value is the source's, the others are the spec's decisions D44, D9, D12, D16 and D42. The parameters of CORE as created hold
the values R6 takes, and the alphabet is R284's table row by row; the reserved velocity codes, the limit codes, the three IDs
and the table are the spec's general knowledge (log 15). The last two are OPEN in R6: that VENDOR_IDS is empty and GPS_LAYOUT not
given is the model's choice (log 4). -/
def Obligations.ResetAndCreationValues : Prop :=
  (∀ s : State,
    let fresh : State := { s with
      buf := [], sync := false, resyncCount := 0#64, totalFrames := 0#64, stats := [], outq := [] }
    exec .reset s = .next (fresh.okWith []) ∧ exec .reset fresh = .next (fresh.okWith [])) ∧
  State.reset.buf = [] ∧ State.reset.sync = false ∧ State.reset.resyncCount = 0#64 ∧ State.reset.totalFrames = 0#64 ∧
    State.reset.stats = [] ∧ State.reset.outq = [] ∧ State.reset.refused = none ∧
  let P := State.reset.params
  let A := P.dlacAlphabet
  P.bufCap = none ∧ P.outqCap = none ∧ P.ctrW = 64 ∧ P.roundMode = .halfEven ∧ P.altQuant = .round ∧ P.loneEsc = .keep ∧
    P.torOrder = .big ∧ P.idUplink = 0x07#8 ∧ P.idGeoalt = 0x0B#8 ∧ P.idTraffic = 0x14#8 ∧
    (∀ raw : BitVec 12, vvelIsReserved P raw = true ↔
      (0x1FF ≤ raw.toNat ∧ raw.toNat ≤ 0x7FF) ∨ (0x801 ≤ raw.toNat ∧ raw.toNat ≤ 0xE01)) ∧
    P.vvelPosLimit = 0x1FE#12 ∧ P.vvelNegLimit = 0xE02#12 ∧
    A = dlacAlphabetDefault ∧ A.length = 64 ∧ A[0]? = some 0x03#8 ∧
    (∀ c, 1 ≤ c → c ≤ 26 → A[c]? = some (BitVec.ofNat 8 (0x41 + (c - 1)))) ∧
    A[27]? = some 0x1A#8 ∧ A[28]? = some 0x09#8 ∧ A[29]? = some 0x1E#8 ∧ A[30]? = some 0x0A#8 ∧ A[31]? = some 0x7C#8 ∧
    (∀ c, 32 ≤ c → c ≤ 63 → A[c]? = some (BitVec.ofNat 8 c)) ∧
    P.vendorIds = [] ∧ P.gpsLayout = none

/-- R25, R26, R27: a counter plus 1 is the next number modulo 2 to the `CTR_W`, so 2^CTR_W - 1 wraps to 0, and at the width 64
it is addition on 64 bits. Counting a frame of an ID creates its entry with both counters 0 if it is absent, adds 1 to one
counter and leaves the other and every other ID's entry as they were; the map keeps its order and at most 256 entries. -/
def Obligations.CountersWrapAndEntriesAreLazy : Prop :=
  (∀ c : BitVec 64, bump 64 c = c + 1#64) ∧
  ∀ w : Nat, w ≤ 64 →
    (∀ c : BitVec 64, (bump w c).toNat = (c.toNat + 1) % 2 ^ w) ∧ bump w (BitVec.ofNat 64 (2 ^ w - 1)) = 0#64 ∧
    ∀ (l : List StatEntry) (id : Byte), statsCanonical l →
      let old := (lookupStat l id).getD { id := id, good := 0#64, bad := 0#64 }
      let good := countGood w id (ensureEntry id l)
      let bad := countBad w id (ensureEntry id l)
      lookupStat good id =
        some { id := id, good := BitVec.ofNat 64 ((old.good.toNat + 1) % 2 ^ w), bad := old.bad } ∧
      lookupStat bad id =
        some { id := id, good := old.good, bad := BitVec.ofNat 64 ((old.bad.toNat + 1) % 2 ^ w) } ∧
      (∀ other, other ≠ id → lookupStat good other = lookupStat l other ∧ lookupStat bad other = lookupStat l other) ∧
      statsCanonical good ∧ statsCanonical bad ∧ good.length ≤ 256 ∧ bad.length ≤ 256

/-! ## The whole machine -/

/-- R22: which instruction may write which element: BUF, SYNC and the counters only ADD_BYTES and RESET, OUTQ also READ_OUT;
RESET, READ_OUT and the reads never write REFUSED; the parameters and the pending input none. -/
def Obligations.OnlyTheirWritersChangeTheElements : Prop :=
  ∀ (i : Instr) (s t : State), exec i s = .next t →
    t.params = s.params ∧ t.input = s.input ∧
    ((∀ d, i ≠ .addBytes d) → i ≠ .reset → t.buf = s.buf ∧ t.sync = s.sync ∧ t.resyncCount = s.resyncCount ∧
      t.totalFrames = s.totalFrames ∧ t.stats = s.stats ∧ (i ≠ .readOut → t.outq = s.outq)) ∧
    ((∀ d, i ≠ .addBytes d) → isPure i = false → t.refused = s.refused)

/-- R8, R9, R65, R29: every step with a pending input has a next state; it takes that input away and either answers one result
packet or is refused, when it writes REFUSED alone. That inputs pend and packets stand in State is the model's choice (log 1);
that a refused step takes its input away and answers no packet is the model's choice too, a deduction (log 8). -/
def Obligations.StepAnswersOnePacketOrIsRefused : Prop :=
  ∀ (s : State) (x : HostInput) (rest : List HostInput), s.input = x :: rest →
    ∃ t : State, step s = .next t ∧ t.input = rest ∧ t.params = s.params ∧
      ((∃ packet, packet ≠ [] ∧ t.results = s.results ++ [packet] ∧ t.refused = s.refused) ∨
        ∃ r, t = State.refusedWith { s with input := rest } r)

/-- R18: what a pure command does depends on its operands and the parameters alone: the same value, the same status or the
same refusal in every state, and no other write; only DEC_PAYLOAD and ENC_GPSTIME (and the message rows of the same decoders)
can be refused; two of them in either order give the same results. R18 speaks of the commands alone: that a message row is an
instruction, pure and refusable as DEC_PAYLOAD is, is the model's choice (log 2); a reserved code counts as pure because it
writes no state (R72); that a refusal answers no packet is the model's choice, a deduction (log 8). -/
def Obligations.PureCommandsReadAndWriteNoState : Prop :=
  (∀ (P : Params) (i : Instr), isPure i = true →
    (∃ value, ∀ s : State, s.params = P → exec i s = .next (s.okWith value)) ∨
    (∃ code, code ≠ 0x00#8 ∧ ∀ s : State, s.params = P → exec i s = .next (s.statusOnly code)) ∨
    ((∃ p, i = .decPayload p ∨ i = .msgGpstime p ∨ i = .msgVendor p) ∨ ∃ c q h m, i = .encGpstime c q h m) ∧
      ∃ r, ∀ s : State, s.params = P → exec i s = .next (s.refusedWith r)) ∧
  ∀ (i j : Instr) (s : State), isPure i = true → isPure j = true →
    ∃ (t u t' u' : State) (x y : List Bytes), exec i s = .next t ∧ exec j t = .next u ∧ exec j s = .next t' ∧
      exec i t' = .next u' ∧ t.results = s.results ++ x ∧ u.results = t.results ++ y ∧ t'.results = s.results ++ y ∧
      u'.results = t'.results ++ x

/-- R301, R300, R65: an instruction whose result packet does not begin with `OK` answered one status byte, one of the four an
instruction can end with, and wrote no state. -/
def Obligations.ErrorStatusWritesNoState : Prop :=
  ∀ (i : Instr) (s t : State) (packet : Bytes), exec i s = .next t → t.results = s.results ++ [packet] →
    packet.head? ≠ some 0x00#8 →
    ∃ code ∈ [0x06#8, 0x07#8, 0x08#8, 0x0A#8], packet = [code] ∧ t = s.statusOnly code

/-- R29, R305: an instruction that changes REFUSED changes nothing else, and once REFUSED is set no step clears it. That it
answers no result packet either is the model's choice, a deduction (log 8). -/
def Obligations.RefusalWritesOnlyTheStickyMark : Prop :=
  (∀ (i : Instr) (s t : State), exec i s = .next t → t.refused ≠ s.refused → ∃ r, t = s.refusedWith r) ∧
    ∀ s t : State, step s = .next t → s.refused ≠ none → t.refused ≠ none

/-- The invariant of CORE between two commands (R22, R25 to R27, R245 law 3; lawful parameters) is kept by every step. -/
def Obligations.EveryStepKeepsTheInvariant : Prop := ∀ s t : State, s.Inv → step s = .next t → t.Inv

/-- CORE as created meets the invariant. -/
def Obligations.ResetMeetsTheInvariant : Prop := State.reset.Inv

/-! ## UAT sub-decoder -/

/-- R270, R271, R272: UAT_IFRAMES scans headers of a 9-bit length and a 4-bit type, ignores bits 6:4, stops at a zero header
or when fewer than 2 bytes are left, and ends with a truncated frame on an overrun. -/
def Obligations.IframeScan : Prop :=
  (∀ (data : Bytes) (s : State), exec (.uatIframes data) s = .next (s.okWith (putU32 (iframes data).length ++
      (iframes data).flatMap fun f => toBE 2 f.length.toNat ++ [f.type] ++ putBytesResult f.data))) ∧
    iframes [] = [] ∧ (∀ b : Byte, iframes [b] = []) ∧ (∀ rest : Bytes, iframes (0x00#8 :: 0x00#8 :: rest) = []) ∧
    ∀ (h0 h1 : Byte) (rest : Bytes), ¬(h0 = 0x00#8 ∧ h1 = 0x00#8) →
      let n := h0.toNat * 2 + h1.toNat / 128
      let type := BitVec.ofNat 8 (h1.toNat % 16)
      (rest.length < n →
        iframes (h0 :: h1 :: rest) = [{ length := BitVec.ofNat 16 n, type := type, data := rest }]) ∧
      (n ≤ rest.length → iframes (h0 :: h1 :: rest) =
        { length := BitVec.ofNat 16 n, type := type, data := rest.take n } :: iframes (rest.drop n))

/-- R274, R275, R276: UAT_APDU returns `None` for fewer than 4 bytes; otherwise the 11-bit product ID, hour, minute and
payload, whatever the flag bits are. -/
def Obligations.ApduFields : Prop :=
  (∀ (s : State) (data : Bytes), data.length < 4 → exec (.uatApdu data) s = .next (s.okWith [0x00#8])) ∧
    ∀ (s : State) (d0 d1 d2 d3 : Byte) (payload : Bytes), exec (.uatApdu (d0 :: d1 :: d2 :: d3 :: payload)) s =
      .next (s.okWith (0x01#8 :: (toBE 2 (d0.toNat % 32 * 64 + d1.toNat / 4) ++
        [BitVec.ofNat 8 (d2.toNat / 4 % 32), BitVec.ofNat 8 (d2.toNat % 4 * 16 + d3.toNat / 16)] ++
        putBytesResult payload)))

/-- R280, R281: DLAC_DECODE returns the text, at most `8 * len / 6` bytes. Three bytes hold four symbols by the cursor table.
Where none of them is 0 the text goes on with the next three bytes; where one is, the text is the entries of the symbols before
the first 0 and nothing more, whatever bytes follow. A last group of two bytes holds two whole symbols and one of a single byte
one, with the same stop at 0, and the rest of its bits are dropped; no bytes give no text. It holds of any alphabet; that a
symbol outside a table of fewer than the 64 entries of R284 reads the byte 0 is the model's choice (log 19). -/
def Obligations.DlacReadsSymbolsToTheEnd : Prop :=
  (∀ (data : Bytes) (s : State), exec (.dlacDecode data) s =
      .next (s.okWith (putBytesResult (dlacDecode s.params.dlacAlphabet data))) ∧
      (dlacDecode s.params.dlacAlphabet data).length ≤ 8 * data.length / 6) ∧
    ∀ A : List Byte, dlacDecode A [] = [] ∧
      ∀ (b0 b1 b2 : Byte) (rest : Bytes),
        let c0 := b0.toNat / 4
        let c1 := b0.toNat % 4 * 16 + b1.toNat / 16
        let c2 := b1.toNat % 16 * 4 + b2.toNat / 64
        let c3 := b2.toNat % 64
        let group := b0 :: b1 :: b2 :: rest
        (c0 ≠ 0 → c1 ≠ 0 → c2 ≠ 0 → c3 ≠ 0 →
          dlacDecode A group = [A.getD c0 0#8, A.getD c1 0#8, A.getD c2 0#8, A.getD c3 0#8] ++ dlacDecode A rest) ∧
        (c0 = 0 → dlacDecode A group = []) ∧
        (c0 ≠ 0 → c1 = 0 → dlacDecode A group = [A.getD c0 0#8]) ∧
        (c0 ≠ 0 → c1 ≠ 0 → c2 = 0 → dlacDecode A group = [A.getD c0 0#8, A.getD c1 0#8]) ∧
        (c0 ≠ 0 → c1 ≠ 0 → c2 ≠ 0 → c3 = 0 →
          dlacDecode A group = [A.getD c0 0#8, A.getD c1 0#8, A.getD c2 0#8]) ∧
        (c0 = 0 → dlacDecode A [b0, b1] = [] ∧ dlacDecode A [b0] = []) ∧
        (c0 ≠ 0 → dlacDecode A [b0] = [A.getD c0 0#8]) ∧
        (c0 ≠ 0 → c1 = 0 → dlacDecode A [b0, b1] = [A.getD c0 0#8]) ∧
        (c0 ≠ 0 → c1 ≠ 0 → dlacDecode A [b0, b1] = [A.getD c0 0#8, A.getD c1 0#8])

/-- R285, R284: at the default alphabet every text over the table's bytes but 0x03 has an encoding, and DLAC_DECODE of that
encoding returns the text. -/
def Obligations.DlacEncodingDecodesBack : Prop :=
  ∀ (text : Bytes) (s : State), s.params.dlacAlphabet = dlacAlphabetDefault →
    (∀ b ∈ text, b ∈ dlacAlphabetDefault ∧ b ≠ 0x03#8) →
    ∃ data, dlacEncode dlacAlphabetDefault text = some data ∧
      exec (.dlacDecode data) s = .next (s.okWith (putBytesResult text))
end

