-- ==== Sys2Proof/Laws/Bytes.lean ====
section
/-! SUPPORT. Laws of the byte-order functions of Machine/Bytes.lean (20_memory.md R41, R42). -/

namespace Sys2Proof.Machine

@[simp] theorem beNat_nil : beNat [] = 0 := rfl

theorem foldl_be (p : Bytes) (a : Nat) :
    p.foldl (fun a (b : Byte) => a * 256 + b.toNat) a = a * 256 ^ p.length + beNat p := by
  induction p generalizing a with
  | nil => simp
  | cons b p ih =>
    have h : beNat (b :: p) = b.toNat * 256 ^ p.length + beNat p := by
      rw [← ih b.toNat]
      simp [beNat]
    rw [List.foldl_cons, ih, h, List.length_cons, Nat.pow_succ]
    ring

theorem beNat_append (p q : Bytes) : beNat (p ++ q) = beNat p * 256 ^ q.length + beNat q := by
  rw [beNat, List.foldl_append, foldl_be]
  rfl

theorem beNat_cons (b : Byte) (p : Bytes) : beNat (b :: p) = b.toNat * 256 ^ p.length + beNat p := by
  have h := beNat_append [b] p
  simpa [beNat] using h

@[simp] theorem beNat_singleton (b : Byte) : beNat [b] = b.toNat := by simp [beNat]

/-- A string's integer is below `256 ^ length`. -/
theorem beNat_lt (p : Bytes) : beNat p < 256 ^ p.length := by
  induction p with
  | nil => simp
  | cons b p ih =>
    rw [beNat_cons, List.length_cons, Nat.pow_succ]
    have hb : b.toNat + 1 ≤ 256 := b.isLt
    have := Nat.mul_le_mul_right (256 ^ p.length) hb
    rw [Nat.add_mul, Nat.one_mul, Nat.mul_comm 256] at this
    omega

@[simp] theorem toBE_length (k v : Nat) : (toBE k v).length = k := by
  induction k generalizing v with
  | zero => rfl
  | succ k ih => simp [toBE, ih]

/-- Reading `k` big-endian bytes gives the number modulo `256 ^ k`. -/
theorem beNat_toBE (k v : Nat) : beNat (toBE k v) = v % 256 ^ k := by
  induction k generalizing v with
  | zero => simp [toBE, Nat.mod_one]
  | succ k ih =>
    rw [toBE, beNat_append, ih]
    simp only [List.length_singleton, Nat.pow_one, beNat_singleton, BitVec.toNat_ofNat]
    rw [show 256 ^ (k + 1) = 256 * 256 ^ k by rw [Nat.pow_succ, Nat.mul_comm], Nat.mod_mul]
    omega

theorem beNat_toBE_of_lt {k v : Nat} (h : v < 256 ^ k) : beNat (toBE k v) = v := by
  rw [beNat_toBE, Nat.mod_eq_of_lt h]

/-- Writing a string's integer back gives the string. -/
theorem toBE_beNat (p : Bytes) : toBE p.length (beNat p) = p := by
  induction p using List.reverseRecOn with
  | nil => rfl
  | append_singleton p b ih =>
    rw [List.length_append, List.length_singleton, toBE, beNat_append]
    simp only [List.length_singleton, Nat.pow_one, beNat_singleton]
    have hb : b.toNat < 256 := b.isLt
    rw [show (beNat p * 256 + b.toNat) / 256 = beNat p by omega, ih]
    congr 2
    apply BitVec.eq_of_toNat_eq
    simp only [BitVec.toNat_ofNat]
    omega

@[simp] theorem setbits_length (p : Bytes) (o w v : Nat) : (setbits p o w v).length = p.length := by
  simp [setbits]

/-- A field of `w` bits is below `2 ^ w`. -/
theorem getbits_lt (p : Bytes) (o w : Nat) : getbits p o w < 2 ^ w := Nat.mod_lt _ (Nat.two_pow_pos w)

/-- `clamp` stays inside its bounds (R11). -/
theorem clampInt_mem {x lo hi : Int} (h : lo ≤ hi) : lo ≤ clampInt x lo hi ∧ clampInt x lo hi ≤ hi := by
  unfold clampInt
  omega

/-- `clamp` leaves a value inside its bounds as it is (R11). -/
theorem clampInt_of_mem {x lo hi : Int} (h₁ : lo ≤ x) (h₂ : x ≤ hi) : clampInt x lo hi = x := by
  unfold clampInt
  omega

end Sys2Proof.Machine
end

