-- ==== Sys2Proof/Laws/Decode.lean ====
section
/-! SUPPORT. Each operand parser undoes its encoder (30_encoding.md R66), and the command map is one to one (R70, R72). -/

namespace Sys2Proof

open Machine

theorem takeNat_toBE {k v : Nat} (h : v < 256 ^ k) (r : Bytes) : takeNat k (toBE k v ++ r) = some (v, r) := by
  have hl : ¬(toBE k v ++ r).length < k := by simp
  rw [takeNat, if_neg hl, List.take_left' (toBE_length k v), List.drop_left' (toBE_length k v), beNat_toBE_of_lt h]

theorem takeBV_toBE (k : Nat) (v : BitVec (8 * k)) (r : Bytes) : takeBV k (toBE k v.toNat ++ r) = some (v, r) := by
  have h : v.toNat < 256 ^ k := by
    have := v.isLt
    rwa [show (256 : Nat) = 2 ^ 8 from rfl, ← Nat.pow_mul]
  simp [takeBV, takeNat_toBE h]

theorem takeBV_byte (v : Byte) (r : Bytes) : takeBV 1 (v :: r) = some (v, r) := by
  simp [takeBV, takeNat]

theorem takeBytes_putBytes {d : Bytes} (h : fitsU32 d = true) (r : Bytes) :
    takeBytes (putBytes d ++ r) = some (d, r) := by
  have h' : d.length < 256 ^ 4 := by simpa [fitsU32] using h
  rw [takeBytes, putBytes, List.append_assoc, takeNat_toBE h']
  simp

theorem takeBool_putBool (b : Bool) (r : Bytes) : takeBool (putBool b ++ r) = some (b, r) := by
  cases b <;> simp [putBool, takeBool]

theorem takeOption32_putOption32 (v : Option (BitVec 32)) (r : Bytes) :
    takeOption32 (putOption32 v ++ r) = some (v, r) := by
  cases v with
  | none => simp [putOption32, takeOption32]
  | some v =>
    have := takeBV_toBE 4 v r
    simp_all [putOption32, takeOption32]

/-- One parser in a chain answered: the chain goes on with what it answered. -/
theorem bind_of_eq_some {α β : Type} {x : Option α} {a : α} {f : α → Option β} {y : Option β} (h : x = some a)
    (hf : f a = y) : x >>= f = y := by
  rw [h, ← hf]
  rfl

theorem takeReportIn_putReportIn {p : ReportIn} (h : fitsU32 p.callSign = true) (r : Bytes) :
    takeReportIn (putReportIn p ++ r) = some (p, r) := by
  simp only [putReportIn, List.append_assoc, List.cons_append, List.nil_append]
  exact bind_of_eq_some (takeBV_byte _ _) <| bind_of_eq_some (takeBV_byte _ _) <|
    bind_of_eq_some (takeBV_toBE 4 _ _) <| bind_of_eq_some (takeBV_toBE 8 _ _) <|
    bind_of_eq_some (takeBV_toBE 8 _ _) <| bind_of_eq_some (takeBV_toBE 4 _ _) <|
    bind_of_eq_some (takeBV_byte _ _) <| bind_of_eq_some (takeBV_byte _ _) <|
    bind_of_eq_some (takeBV_byte _ _) <| bind_of_eq_some (takeOption32_putOption32 _ _) <|
    bind_of_eq_some (takeOption32_putOption32 _ _) <| bind_of_eq_some (takeBV_toBE 8 _ _) <|
    bind_of_eq_some (takeBV_byte _ _) <| bind_of_eq_some (takeBytes_putBytes h _) <|
    bind_of_eq_some (takeBV_byte _ _) rfl

/-- A code selects the command that has it (R70). -/
theorem cmdOfCode_codeOfCmd (k : Cmd) : cmdOfCode (codeOfCmd k) = some k := by cases k <;> decide

/-- A packet of a command's code and operands decodes to what the operands parse to (R65). -/
theorem decodePacket_of_takeOperands {k : Cmd} {ops : Bytes} {i : Instr} (h : takeOperands k ops = some (i, [])) :
    decodePacket (codeOfCmd k :: ops) = .ok i := by
  simp [decodePacket, cmdOfCode_codeOfCmd, h]

/-- A reserved code selects no command (R72). -/
theorem cmdOfCode_of_reserved : ∀ c : Byte, isReservedCode c = true → cmdOfCode c = none := by decide +kernel

/-- A code that selects no command is a reserved one (R72). -/
theorem reserved_of_cmdOfCode : ∀ c : Byte, cmdOfCode c = none → isReservedCode c = true := by decide +kernel

end Sys2Proof
end

