-- ==== Sys2Proof/Laws/PerInstr.lean ====
section
/-! SUPPORT. Per instruction: decoding its encoding gives it back (30_encoding.md R65, R66, R70; R63 for the message rows). -/

namespace Sys2Proof.Laws.RoundTrip

open Sys2Proof.Machine

/-- The family's statement about one instruction. -/
def Statement (i : Instr) : Prop := ∀ P : Params, i.wf P = true → decode P (encode i) = .ok i

/-- A command whose encoding is its code and operands that parse to it. -/
theorem of_operands (k : Cmd) {ops : Bytes} {i : Instr} {P : Params} (he : encode i = .packet (codeOfCmd k :: ops))
    (h : takeOperands k ops = some (i, [])) : decode P (encode i) = .ok i := by
  rw [he]
  exact decodePacket_of_takeOperands h

/-- A command whose operands are one `Bytes`. -/
theorem of_bytes (k : Cmd) (mk : Bytes → Instr) (d : Bytes) {P : Params} (h : fitsU32 d = true)
    (he : encode (mk d) = .packet (codeOfCmd k :: putBytes d))
    (hk : ∀ bs, takeOperands k bs = (takeBytes bs).map fun (d, r) => (mk d, r)) :
    decode P (encode (mk d)) = .ok (mk d) := by
  have hd := takeBytes_putBytes h []
  rw [List.append_nil] at hd
  exact of_operands k he (by rw [hk, hd]; rfl)

/-- The last `Bytes` of a packet. -/
theorem takeBytes_last {d : Bytes} (h : fitsU32 d = true) : takeBytes (putBytes d) = some (d, []) := by
  simpa using takeBytes_putBytes h []

theorem crcCompute (data : Bytes) : Statement (.crcCompute data) := fun _ h => of_bytes .crcCompute .crcCompute data h rfl fun _ => rfl

theorem crcCheck (data crc : Bytes) : Statement (.crcCheck data crc) := fun _ h => by
  obtain ⟨h₁, h₂⟩ : fitsU32 data = true ∧ fitsU32 crc = true := by simpa [Instr.wf] using h
  exact of_operands .crcCheck rfl <| bind_of_eq_some (takeBytes_putBytes h₁ _) <|
    bind_of_eq_some (takeBytes_last h₂) rfl

theorem escape (data : Bytes) : Statement (.escape data) := fun _ h => of_bytes .escape .escape data h rfl fun _ => rfl

theorem unescape (data : Bytes) : Statement (.unescape data) := fun _ h => of_bytes .unescape .unescape data h rfl fun _ => rfl

theorem prepareFrame (payload : Bytes) : Statement (.prepareFrame payload) := fun _ h => of_bytes .prepareFrame .prepareFrame payload h rfl fun _ => rfl

theorem encHeartbeat (status1 status2 : Byte) (timestamp : BitVec 32) (u : Byte) (bl : BitVec 16) :
    Statement (.encHeartbeat status1 status2 timestamp u bl) := fun _ _ => by
  have hl : takeBV 2 (toBE 2 bl.toNat) = some (bl, []) := by simpa using takeBV_toBE 2 bl []
  refine of_operands .encHeartbeat rfl ?_
  simp only [List.append_assoc, List.cons_append, List.nil_append]
  exact bind_of_eq_some (takeBV_byte _ _) <| bind_of_eq_some (takeBV_byte _ _) <|
    bind_of_eq_some (takeBV_toBE 4 _ _) <| bind_of_eq_some (takeBV_byte _ _) <| bind_of_eq_some hl rfl

/-- A report's operand record as the whole of a packet's operands. -/
theorem takeReportIn_last {r : ReportIn} (h : fitsU32 r.callSign = true) :
    takeReportIn (putReportIn r) = some (r, []) := by
  simpa using takeReportIn_putReportIn h []

theorem encOwnship (r : ReportIn) : Statement (.encOwnship r) := fun _ h =>
  of_operands .encOwnship rfl (by simp only [takeOperands, takeReportIn_last (r := r) h, Option.map_some])

theorem encTraffic (r : ReportIn) : Statement (.encTraffic r) := fun _ h =>
  of_operands .encTraffic rfl (by simp only [takeOperands, takeReportIn_last (r := r) h, Option.map_some])

theorem encGeoalt (altitude : BitVec 32) (merit : Option (BitVec 32)) (warning : Bool) :
    Statement (.encGeoalt altitude merit warning) := fun _ _ => by
  have hw : takeBool (putBool warning) = some (warning, []) := by simpa using takeBool_putBool warning []
  refine of_operands .encGeoalt rfl ?_
  simp only [List.append_assoc]
  exact bind_of_eq_some (takeBV_toBE 4 _ _) <| bind_of_eq_some (takeOption32_putOption32 _ _) <| bind_of_eq_some hw rfl

theorem encGpstime (count : BitVec 32) (quality hour minute : Byte) :
    Statement (.encGpstime count quality hour minute) := fun _ _ => by
  refine of_operands .encGpstime rfl ?_
  exact bind_of_eq_some (takeBV_toBE 4 _ _) <| bind_of_eq_some (takeBV_byte _ _) <|
    bind_of_eq_some (takeBV_byte _ _) <| bind_of_eq_some (takeBV_byte _ _) rfl

theorem encUplink (timeOfReception : BitVec 32) (header data : Bytes) :
    Statement (.encUplink timeOfReception header data) := fun _ h => by
  obtain ⟨h₁, h₂⟩ : fitsU32 header = true ∧ fitsU32 data = true := by simpa [Instr.wf] using h
  refine of_operands .encUplink rfl ?_
  simp only [List.append_assoc]
  exact bind_of_eq_some (takeBV_toBE 4 _ _) <| bind_of_eq_some (takeBytes_putBytes h₁ _) <|
    bind_of_eq_some (takeBytes_last h₂) rfl

theorem decPayload (payload : Bytes) : Statement (.decPayload payload) := fun _ h => of_bytes .decPayload .decPayload payload h rfl fun _ => rfl

theorem addBytes (data : Bytes) : Statement (.addBytes data) := fun _ h => of_bytes .addBytes .addBytes data h rfl fun _ => rfl

theorem readOut : Statement .readOut := fun _ _ => rfl

theorem readStats : Statement .readStats := fun _ _ => rfl

theorem readStatus : Statement .readStatus := fun _ _ => rfl

theorem readBuffer : Statement .readBuffer := fun _ _ => rfl

theorem reset : Statement .reset := fun _ _ => rfl

theorem uatIframes (data : Bytes) : Statement (.uatIframes data) := fun _ h => of_bytes .uatIframes .uatIframes data h rfl fun _ => rfl

theorem uatApdu (frameData : Bytes) : Statement (.uatApdu frameData) := fun _ h => of_bytes .uatApdu .uatApdu frameData h rfl fun _ => rfl

theorem dlacDecode (data : Bytes) : Statement (.dlacDecode data) := fun _ h => of_bytes .dlacDecode .dlacDecode data h rfl fun _ => rfl

theorem reservedCommand (packet : Bytes) : Statement (.reservedCommand packet) := fun _ h => by
  cases packet with
  | nil => rfl
  | cons c ops =>
    have hc := cmdOfCode_of_reserved c h
    simp [encode, decode, decodePacket, hc]

theorem msgHeartbeat (p : Bytes) : Statement (.msgHeartbeat p) := fun P h => by
  have hk : kindOfPayload P p = .heartbeat := by simpa [Instr.wf] using h
  simp [encode, decode, decodePayload, hk]

theorem msgOwnship (p : Bytes) : Statement (.msgOwnship p) := fun P h => by
  have hk : kindOfPayload P p = .ownship := by simpa [Instr.wf] using h
  simp [encode, decode, decodePayload, hk]

theorem msgTraffic (p : Bytes) : Statement (.msgTraffic p) := fun P h => by
  have hk : kindOfPayload P p = .traffic := by simpa [Instr.wf] using h
  simp [encode, decode, decodePayload, hk]

theorem msgGeoalt (p : Bytes) : Statement (.msgGeoalt p) := fun P h => by
  have hk : kindOfPayload P p = .geoalt := by simpa [Instr.wf] using h
  simp [encode, decode, decodePayload, hk]

theorem msgUplink (p : Bytes) : Statement (.msgUplink p) := fun P h => by
  have hk : kindOfPayload P p = .uplink := by simpa [Instr.wf] using h
  simp [encode, decode, decodePayload, hk]

theorem msgGpstime (p : Bytes) : Statement (.msgGpstime p) := fun P h => by
  have hk : kindOfPayload P p = .gpstime := by simpa [Instr.wf] using h
  simp [encode, decode, decodePayload, hk]

theorem msgVendor (p : Bytes) : Statement (.msgVendor p) := fun P h => by
  have hk : kindOfPayload P p = .vendor := by simpa [Instr.wf] using h
  simp [encode, decode, decodePayload, hk]

theorem msgUnknown (p : Bytes) : Statement (.msgUnknown p) := fun P h => by
  have hk : kindOfPayload P p = .unknown := by simpa [Instr.wf] using h
  simp [encode, decode, decodePayload, hk]

end Sys2Proof.Laws.RoundTrip
end

