-- ==== Sys2Proof/Laws/State.lean ====
section
/-! SUPPORT. One lemma per field per update of the state, true by unfolding (laws of Machine/Ops.lean and Flags.lean). -/

namespace Sys2Proof.Machine

variable (s : State)

/-! ## answer -/

@[simp] theorem answer_buf (p : Bytes) : (s.answer p).buf = s.buf := rfl
@[simp] theorem answer_sync (p : Bytes) : (s.answer p).sync = s.sync := rfl
@[simp] theorem answer_resyncCount (p : Bytes) : (s.answer p).resyncCount = s.resyncCount := rfl
@[simp] theorem answer_totalFrames (p : Bytes) : (s.answer p).totalFrames = s.totalFrames := rfl
@[simp] theorem answer_stats (p : Bytes) : (s.answer p).stats = s.stats := rfl
@[simp] theorem answer_outq (p : Bytes) : (s.answer p).outq = s.outq := rfl
@[simp] theorem answer_refused (p : Bytes) : (s.answer p).refused = s.refused := rfl
@[simp] theorem answer_params (p : Bytes) : (s.answer p).params = s.params := rfl
@[simp] theorem answer_input (p : Bytes) : (s.answer p).input = s.input := rfl
@[simp] theorem answer_results (p : Bytes) : (s.answer p).results = s.results ++ [p] := rfl

/-! ## returnValue -/

@[simp] theorem returnValue_buf (v : Value) : (s.returnValue v).buf = s.buf := rfl
@[simp] theorem returnValue_sync (v : Value) : (s.returnValue v).sync = s.sync := rfl
@[simp] theorem returnValue_resyncCount (v : Value) : (s.returnValue v).resyncCount = s.resyncCount := rfl
@[simp] theorem returnValue_totalFrames (v : Value) : (s.returnValue v).totalFrames = s.totalFrames := rfl
@[simp] theorem returnValue_stats (v : Value) : (s.returnValue v).stats = s.stats := rfl
@[simp] theorem returnValue_outq (v : Value) : (s.returnValue v).outq = s.outq := rfl
@[simp] theorem returnValue_refused (v : Value) : (s.returnValue v).refused = s.refused := rfl
@[simp] theorem returnValue_params (v : Value) : (s.returnValue v).params = s.params := rfl
@[simp] theorem returnValue_input (v : Value) : (s.returnValue v).input = s.input := rfl
@[simp] theorem returnValue_results (v : Value) : (s.returnValue v).results = s.results ++ [Status.code .ok :: v.encode] := rfl

/-! ## raise -/

@[simp] theorem raise_buf (e : Status) : (s.raise e).buf = s.buf := rfl
@[simp] theorem raise_sync (e : Status) : (s.raise e).sync = s.sync := rfl
@[simp] theorem raise_resyncCount (e : Status) : (s.raise e).resyncCount = s.resyncCount := rfl
@[simp] theorem raise_totalFrames (e : Status) : (s.raise e).totalFrames = s.totalFrames := rfl
@[simp] theorem raise_stats (e : Status) : (s.raise e).stats = s.stats := rfl
@[simp] theorem raise_outq (e : Status) : (s.raise e).outq = s.outq := rfl
@[simp] theorem raise_refused (e : Status) : (s.raise e).refused = s.refused := rfl
@[simp] theorem raise_params (e : Status) : (s.raise e).params = s.params := rfl
@[simp] theorem raise_input (e : Status) : (s.raise e).input = s.input := rfl
@[simp] theorem raise_results (e : Status) : (s.raise e).results = s.results ++ [[e.code]] := rfl

/-! ## refuse -/

@[simp] theorem refuse_buf (r : RefusalReason) : (s.refuse r).buf = s.buf := rfl
@[simp] theorem refuse_sync (r : RefusalReason) : (s.refuse r).sync = s.sync := rfl
@[simp] theorem refuse_resyncCount (r : RefusalReason) : (s.refuse r).resyncCount = s.resyncCount := rfl
@[simp] theorem refuse_totalFrames (r : RefusalReason) : (s.refuse r).totalFrames = s.totalFrames := rfl
@[simp] theorem refuse_stats (r : RefusalReason) : (s.refuse r).stats = s.stats := rfl
@[simp] theorem refuse_outq (r : RefusalReason) : (s.refuse r).outq = s.outq := rfl
@[simp] theorem refuse_refused (r : RefusalReason) : (s.refuse r).refused = some r := rfl
@[simp] theorem refuse_params (r : RefusalReason) : (s.refuse r).params = s.params := rfl
@[simp] theorem refuse_input (r : RefusalReason) : (s.refuse r).input = s.input := rfl
@[simp] theorem refuse_results (r : RefusalReason) : (s.refuse r).results = s.results := rfl

/-! ## bufDrop -/

@[simp] theorem bufDrop_buf (k : Nat) : (s.bufDrop k).buf = s.buf.drop k := rfl
@[simp] theorem bufDrop_sync (k : Nat) : (s.bufDrop k).sync = s.sync := rfl
@[simp] theorem bufDrop_resyncCount (k : Nat) : (s.bufDrop k).resyncCount = s.resyncCount := rfl
@[simp] theorem bufDrop_totalFrames (k : Nat) : (s.bufDrop k).totalFrames = s.totalFrames := rfl
@[simp] theorem bufDrop_stats (k : Nat) : (s.bufDrop k).stats = s.stats := rfl
@[simp] theorem bufDrop_outq (k : Nat) : (s.bufDrop k).outq = s.outq := rfl
@[simp] theorem bufDrop_refused (k : Nat) : (s.bufDrop k).refused = s.refused := rfl
@[simp] theorem bufDrop_params (k : Nat) : (s.bufDrop k).params = s.params := rfl
@[simp] theorem bufDrop_input (k : Nat) : (s.bufDrop k).input = s.input := rfl
@[simp] theorem bufDrop_results (k : Nat) : (s.bufDrop k).results = s.results := rfl

/-! ## setSync -/

@[simp] theorem setSync_buf : (s.setSync).buf = s.buf := rfl
@[simp] theorem setSync_sync : (s.setSync).sync = true := rfl
@[simp] theorem setSync_resyncCount : (s.setSync).resyncCount = s.resyncCount := rfl
@[simp] theorem setSync_totalFrames : (s.setSync).totalFrames = s.totalFrames := rfl
@[simp] theorem setSync_stats : (s.setSync).stats = s.stats := rfl
@[simp] theorem setSync_outq : (s.setSync).outq = s.outq := rfl
@[simp] theorem setSync_refused : (s.setSync).refused = s.refused := rfl
@[simp] theorem setSync_params : (s.setSync).params = s.params := rfl
@[simp] theorem setSync_input : (s.setSync).input = s.input := rfl
@[simp] theorem setSync_results : (s.setSync).results = s.results := rfl

/-! ## clearSync -/

@[simp] theorem clearSync_buf : (s.clearSync).buf = s.buf := rfl
@[simp] theorem clearSync_sync : (s.clearSync).sync = false := rfl
@[simp] theorem clearSync_resyncCount : (s.clearSync).resyncCount = s.resyncCount := rfl
@[simp] theorem clearSync_totalFrames : (s.clearSync).totalFrames = s.totalFrames := rfl
@[simp] theorem clearSync_stats : (s.clearSync).stats = s.stats := rfl
@[simp] theorem clearSync_outq : (s.clearSync).outq = s.outq := rfl
@[simp] theorem clearSync_refused : (s.clearSync).refused = s.refused := rfl
@[simp] theorem clearSync_params : (s.clearSync).params = s.params := rfl
@[simp] theorem clearSync_input : (s.clearSync).input = s.input := rfl
@[simp] theorem clearSync_results : (s.clearSync).results = s.results := rfl

/-! ## finish: a pure command's ending touches the results or REFUSED and nothing else -/

@[simp] theorem finish_buf (e : Ending) : (s.finish e).buf = s.buf := by cases e <;> rfl
@[simp] theorem finish_sync (e : Ending) : (s.finish e).sync = s.sync := by cases e <;> rfl
@[simp] theorem finish_resyncCount (e : Ending) : (s.finish e).resyncCount = s.resyncCount := by cases e <;> rfl
@[simp] theorem finish_totalFrames (e : Ending) : (s.finish e).totalFrames = s.totalFrames := by cases e <;> rfl
@[simp] theorem finish_stats (e : Ending) : (s.finish e).stats = s.stats := by cases e <;> rfl
@[simp] theorem finish_outq (e : Ending) : (s.finish e).outq = s.outq := by cases e <;> rfl
@[simp] theorem finish_params (e : Ending) : (s.finish e).params = s.params := by cases e <;> rfl
@[simp] theorem finish_input (e : Ending) : (s.finish e).input = s.input := by cases e <;> rfl

@[simp] theorem finish_value (v : Value) : s.finish (.value v) = s.returnValue v := rfl
@[simp] theorem finish_raised (e : Status) : s.finish (.raised e) = s.raise e := rfl
@[simp] theorem finish_refused (r : RefusalReason) : s.finish (.refused r) = s.refuse r := rfl

/-- Everything an ending can do: one result packet more, or the refusal mark; nothing else. -/
theorem finish_cases (e : Ending) :
    (∃ packet, packet ≠ [] ∧ s.finish e = { s with results := s.results ++ [packet] }) ∨
      ∃ r, e = .refused r ∧ s.finish e = { s with refused := some r } := by
  cases e with
  | value v => exact .inl ⟨_, List.cons_ne_nil _ _, rfl⟩
  | raised e => exact .inl ⟨_, List.cons_ne_nil _ _, rfl⟩
  | refused r => exact .inr ⟨r, rfl, rfl⟩

end Sys2Proof.Machine
end

