-- ==== Sys2Proof/Laws/Stats.lean ====
section
/-! SUPPORT. Laws of STATS and its counters (10_state.md R25 to R27): every operation keeps the canonical form, and what each
does to the sums of the counters (44_stream.md R245). -/

namespace Sys2Proof.Machine

theorem bump_lt {w : Nat} (h : w ≤ 64) (c : BitVec 64) : (bump w c).toNat < 2 ^ w := by
  have hp : 0 < 2 ^ w := Nat.two_pow_pos w
  have hm := Nat.mod_lt (c.toNat + 1) hp
  have hw : (2 : Nat) ^ w ≤ 2 ^ 64 := Nat.pow_le_pow_right (by decide) h
  rw [bump, BitVec.toNat_ofNat, Nat.mod_eq_of_lt (by omega)]
  exact hm

/-- A counter plus 1, modulo 2 to its width (R25, R26, R27). -/
theorem bump_toNat {w : Nat} (h : w ≤ 64) (c : BitVec 64) : (bump w c).toNat = (c.toNat + 1) % 2 ^ w := by
  have hm := Nat.mod_lt (c.toNat + 1) (Nat.two_pow_pos w)
  have hw : (2 : Nat) ^ w ≤ 2 ^ 64 := Nat.pow_le_pow_right (by decide) h
  rw [bump, BitVec.toNat_ofNat, Nat.mod_eq_of_lt (by omega)]

/-- The IDs after an entry is ensured: the old ones and the new one. -/
theorem mem_ensureEntry {id : Byte} {l : List StatEntry} {e : StatEntry} :
    e ∈ ensureEntry id l → e ∈ l ∨ e = { id := id, good := 0#64, bad := 0#64 } := by
  induction l with
  | nil => simp [ensureEntry]
  | cons a l ih =>
    unfold ensureEntry
    split
    · exact .inl
    · split
      · simp only [List.mem_cons]
        tauto
      · simp only [List.mem_cons]
        rintro (h | h)
        · exact .inl (.inl h)
        · exact (ih h).imp_left .inr

theorem ensureEntry_canonical {l : List StatEntry} (id : Byte) (h : statsCanonical l) :
    statsCanonical (ensureEntry id l) := by
  induction l with
  | nil => simp [ensureEntry]
  | cons a l ih =>
    obtain ⟨ha, hl⟩ := List.pairwise_cons.mp h
    unfold ensureEntry
    split
    · exact h
    · rename_i hne
      split
      · rename_i hlt
        refine List.pairwise_cons.mpr ⟨fun b hb => ?_, h⟩
        rcases List.mem_cons.mp hb with rfl | hb
        · exact hlt
        · exact BitVec.lt_trans hlt (ha b hb)
      · rename_i hge
        refine List.pairwise_cons.mpr ⟨fun b hb => ?_, ih hl⟩
        rcases mem_ensureEntry hb with hb | rfl
        · exact ha b hb
        · rw [BitVec.lt_def] at hge ⊢
          have : id.toNat ≠ a.id.toNat := fun h => hne (BitVec.eq_of_toNat_eq h)
          dsimp only
          omega

/-- Counting changes no ID. -/
theorem map_canonical {l : List StatEntry} {f : StatEntry → StatEntry} (hf : ∀ e, (f e).id = e.id)
    (h : statsCanonical l) : statsCanonical (l.map f) := by
  refine List.pairwise_map.mpr (h.imp ?_)
  intro a b hab
  rwa [hf, hf]

theorem countGood_canonical {l : List StatEntry} (w : Nat) (id : Byte) (h : statsCanonical l) :
    statsCanonical (countGood w id l) := map_canonical (fun e => by split <;> rfl) h

theorem countBad_canonical {l : List StatEntry} (w : Nat) (id : Byte) (h : statsCanonical l) :
    statsCanonical (countBad w id l) := map_canonical (fun e => by split <;> rfl) h

/-- An ensured ID is found. -/
theorem lookup_ensureEntry_isSome (id : Byte) (l : List StatEntry) : (lookupStat (ensureEntry id l) id).isSome := by
  induction l with
  | nil => simp [ensureEntry, lookupStat]
  | cons a l ih =>
    unfold ensureEntry
    split
    · rename_i h
      simp [lookupStat, h]
    · split
      · simp [lookupStat]
      · simp only [lookupStat, List.find?_cons] at ih ⊢
        split
        · rfl
        · exact ih

/-! ## The sums of the counters -/

/-- A new entry adds nothing to a sum that reads 0 on it. -/
theorem sum_ensureEntry (f : StatEntry → Nat) (id : Byte) (l : List StatEntry)
    (hf : f { id := id, good := 0#64, bad := 0#64 } = 0) : ((ensureEntry id l).map f).sum = (l.map f).sum := by
  induction l with
  | nil => simp [ensureEntry, hf]
  | cons a l ih =>
    unfold ensureEntry
    split
    · rfl
    · split
      · simp [hf]
      · simp [ih]

theorem goodSum_ensureEntry (id : Byte) (l : List StatEntry) : goodSum (ensureEntry id l) = goodSum l :=
  sum_ensureEntry _ id l rfl

theorem badSum_ensureEntry (id : Byte) (l : List StatEntry) : badSum (ensureEntry id l) = badSum l :=
  sum_ensureEntry _ id l rfl

/-- Counting good changes no `bad` counter. -/
theorem badSum_countGood (w : Nat) (id : Byte) (l : List StatEntry) : badSum (countGood w id l) = badSum l := by
  simp only [badSum, countGood, List.map_map]
  congr 1
  exact List.map_congr_left fun e _ => by simp only [Function.comp]; split <;> rfl

/-- Counting bad changes no `good` counter. -/
theorem goodSum_countBad (w : Nat) (id : Byte) (l : List StatEntry) : goodSum (countBad w id l) = goodSum l := by
  simp only [goodSum, countBad, List.map_map]
  congr 1
  exact List.map_congr_left fun e _ => by simp only [Function.comp]; split <;> rfl

/-- In a map, adding 1 modulo `m` to what `f` reads on the one entry of `id` adds 1 to the sum, modulo `m`. -/
theorem sum_update {m : Nat} {id : Byte} {f : StatEntry → Nat} {g : StatEntry → StatEntry}
    (hid : ∀ e, e.id = id → f (g e) = (f e + 1) % m) {l : List StatEntry} (hl : statsCanonical l)
    (hmem : (lookupStat l id).isSome) :
    ((l.map fun e => if e.id = id then g e else e).map f).sum % m = ((l.map f).sum + 1) % m := by
  induction l with
  | nil => simp [lookupStat] at hmem
  | cons a l ih =>
    obtain ⟨ha, hl⟩ := List.pairwise_cons.mp hl
    by_cases h : a.id = id
    · have hrest : (l.map fun e => if e.id = id then g e else e) = l := by
        conv_rhs => rw [← List.map_id l]
        refine List.map_congr_left fun e he => if_neg fun heq => ?_
        have := ha e he
        rw [h, heq, BitVec.lt_def] at this
        exact Nat.lt_irrefl _ this
      rw [List.map_cons, if_pos h, hrest, List.map_cons, List.map_cons, List.sum_cons, List.sum_cons, hid a h,
        Nat.mod_add_mod]
      congr 1
      omega
    · have hmem' : (lookupStat l id).isSome := by
        simpa [lookupStat, List.find?_cons, h] using hmem
      rw [List.map_cons, if_neg h, List.map_cons, List.map_cons, List.sum_cons, List.sum_cons, Nat.add_mod, ih hl hmem',
        ← Nat.add_mod, Nat.add_assoc]

/-- Counting a good frame adds 1 to the sum of the `good` counters (R27, R245). -/
theorem goodSum_countGood {w : Nat} (hw : w ≤ 64) (id : Byte) {l : List StatEntry} (hl : statsCanonical l) :
    goodSum (countGood w id (ensureEntry id l)) % 2 ^ w = (goodSum l + 1) % 2 ^ w := by
  rw [← goodSum_ensureEntry id l]
  exact sum_update (f := fun e => e.good.toNat) (fun e _ => bump_toNat hw e.good) (ensureEntry_canonical id hl)
    (lookup_ensureEntry_isSome id l)

/-- Counting a bad frame adds 1 to the sum of the `bad` counters (R27, R245). -/
theorem badSum_countBad {w : Nat} (hw : w ≤ 64) (id : Byte) {l : List StatEntry} (hl : statsCanonical l) :
    badSum (countBad w id (ensureEntry id l)) % 2 ^ w = (badSum l + 1) % 2 ^ w := by
  rw [← badSum_ensureEntry id l]
  exact sum_update (f := fun e => e.bad.toNat) (fun e _ => bump_toNat hw e.bad) (ensureEntry_canonical id hl)
    (lookup_ensureEntry_isSome id l)

end Sys2Proof.Machine
end

