-- ==== Sys2Proof/Laws/Stream.lean ====
section
/-! SUPPORT. What each operation of the stream decoder can do, said once (44_stream.md R231 to R237). -/

namespace Sys2Proof.Machine

/-! ## The buffer and the queue -/

/-- `BufFind` found nothing: the byte is not there (20_memory.md R43). -/
theorem bufFind_eq_none {buf : Bytes} {b : Byte} {k : Nat} : bufFind buf b k = none ↔ b ∉ buf.drop k := by
  simp only [bufFind, Option.map_eq_none_iff, List.findIdx?_eq_none_iff, beq_eq_false_iff_ne]
  exact ⟨fun h hb => h b hb rfl, fun h x hx hxb => h (hxb ▸ hx)⟩

/-- `BufFind` found index `i`: it holds the byte, and no index before it from `k` on does (R43). -/
theorem bufFind_eq_some {buf : Bytes} {b : Byte} {k i : Nat} (h : bufFind buf b k = some i) :
    k ≤ i ∧ i < buf.length ∧ buf[i]? = some b ∧ ∀ j, k ≤ j → j < i → buf[j]? ≠ some b := by
  simp only [bufFind, Option.map_eq_some_iff] at h
  obtain ⟨n, hn, rfl⟩ := h
  rw [List.findIdx?_eq_some_iff_getElem] at hn
  obtain ⟨hlt, hb, hbefore⟩ := hn
  rw [List.length_drop] at hlt
  refine ⟨by omega, by omega, ?_, fun j hk hj => ?_⟩
  · rw [List.getElem_drop] at hb
    rw [Nat.add_comm, List.getElem?_eq_getElem (by omega)]
    simpa using hb
  · have := hbefore (j - k) (by omega)
    rw [List.getElem_drop] at this
    rw [List.getElem?_eq_getElem (by omega)]
    simp only [show k + (j - k) = j by omega] at this
    simpa using this

/-- An append is refused past the capacity, or appends and does nothing else (R231). -/
theorem bufAppend_cases (s : State) (d : Bytes) :
    (s.bufAppend d = .error .bufferOverflow ∧ ∃ c, s.params.bufCap = some c ∧ c < s.buf.length + d.length) ∨
      (s.bufAppend d = .ok { s with buf := s.buf ++ d } ∧
        withinCap s.params.bufCap (s.buf.length + d.length)) := by
  unfold State.bufAppend withinCap
  cases hc : s.params.bufCap with
  | none => exact .inr ⟨rfl, by simp⟩
  | some c =>
    by_cases h : c < s.buf.length + d.length
    · exact .inl ⟨if_pos h, c, rfl, h⟩
    · exact .inr ⟨if_neg h, by simpa using h⟩

/-- An enqueue is refused at the capacity, or appends and does nothing else (R237). -/
theorem enqueue_cases (s : State) (r : DecodeResult) :
    (s.enqueue r = .error .outqOverflow ∧ ∃ c, s.params.outqCap = some c ∧ c ≤ s.outq.length) ∨
      (s.enqueue r = .ok { s with outq := s.outq ++ [r] } ∧ withinCap s.params.outqCap (s.outq.length + 1)) := by
  unfold State.enqueue withinCap
  cases hc : s.params.outqCap with
  | none => exact .inr ⟨rfl, by simp⟩
  | some c =>
    by_cases h : c ≤ s.outq.length
    · exact .inl ⟨if_pos h, c, rfl, h⟩
    · exact .inr ⟨if_neg h, by simpa using h⟩

/-! ## RESYNC, EXTRACT, FRAME_DECODE -/

/-- RESYNC (R233): case (a) empties BUF and leaves SYNC; cases (b) and (c) make BUF start with a flag byte, set SYNC, and
drop a prefix of BUF. The counter is incremented in each. -/
theorem resync_cases (s : State) :
    (flagByte ∉ s.buf ∧
      s.resync = ({ s with resyncCount := bump s.params.ctrW s.resyncCount, buf := [] }, false)) ∨
    ∃ k, (s.buf.drop k).head? = some flagByte ∧
      s.resync = ({ s with resyncCount := bump s.params.ctrW s.resyncCount, buf := s.buf.drop k, sync := true }, true) := by
  unfold State.resync
  cases h : bufFind s.buf flagByte 0 with
  | none =>
    refine .inl ⟨by simpa using bufFind_eq_none.mp h, ?_⟩
    simp [h, State.bufDrop]
  | some p =>
    obtain ⟨_, hp, hb, _⟩ := bufFind_eq_some h
    right
    by_cases hn : s.buf[p + 1]? = some flagByte
    · exact ⟨p + 1, by rw [List.head?_drop, hn], by simp [h, hn, State.bufDrop, State.setSync]⟩
    · exact ⟨p, by rw [List.head?_drop, hb], by simp [h, hn, State.bufDrop, State.setSync]⟩

/-- FRAME_DECODE (R236): a short body changes nothing; a failed check counts bad; a passed check counts good and then
is refused, queues nothing (`Absent`) or enqueues the decode result. -/
theorem frameDecode_cases (s : State) (body : Bytes) :
    let u := unescape s.params.loneEsc body
    let payload := u.take (u.length - 2)
    let id := u.headD 0#8
    let good : State := { s with stats := countGood s.params.ctrW id (ensureEntry id s.stats) }
    (u.length < 5 ∧ s.frameDecode body = .ok s) ∨
    (5 ≤ u.length ∧ crcBytes payload ≠ u.drop (u.length - 2) ∧
      s.frameDecode body = .ok { s with stats := countBad s.params.ctrW id (ensureEntry id s.stats) }) ∨
    (5 ≤ u.length ∧ crcBytes payload = u.drop (u.length - 2) ∧
      ((∃ r, decPayload s.params payload = .error r ∧ s.frameDecode body = .error r) ∨
       (decPayload s.params payload = .ok .absent ∧ s.frameDecode body = .ok good) ∨
       ∃ r, r ≠ .absent ∧ decPayload s.params payload = .ok r ∧ s.frameDecode body = good.enqueue r)) := by
  intro u payload id good
  by_cases hl : u.length < 5
  · exact .inl ⟨hl, if_pos hl⟩
  · have hcheck : (u.drop (u.length - 2)).length = 2 := by rw [List.length_drop]; omega
    have hbody : s.frameDecode body = if crcCheck payload (u.drop (u.length - 2)) = .ok true then
        (match decPayload s.params payload with
          | .error r => .error r
          | .ok .absent => .ok good
          | .ok r => good.enqueue r)
        else .ok { s with stats := countBad s.params.ctrW id (ensureEntry id s.stats) } := if_neg hl
    have hiff : crcCheck payload (u.drop (u.length - 2)) = .ok true ↔ crcBytes payload = u.drop (u.length - 2) := by
      simp [crcCheck, hcheck]
    right
    by_cases hc : crcBytes payload = u.drop (u.length - 2)
    · refine .inr ⟨by omega, hc, ?_⟩
      rw [if_pos (hiff.mpr hc)] at hbody
      cases hd : decPayload s.params payload with
      | error r => exact .inl ⟨r, rfl, by rw [hbody, hd]⟩
      | ok r =>
        by_cases ha : r = .absent
        · exact .inr (.inl ⟨by rw [ha], by rw [hbody, hd, ha]⟩)
        · refine .inr (.inr ⟨r, ha, rfl, ?_⟩)
          rw [hbody, hd]
          cases r <;> first | rfl | exact absurd rfl ha
    · exact .inl ⟨by omega, hc, by rw [hbody, if_neg (fun h => hc (hiff.mp h))]⟩

/-- EXTRACT (R235): SYNC cleared; or no closing flag and nothing changed; or a frame removed, counted and decoded. -/
theorem extract_cases (s : State) :
    (s.buf.head? ≠ some flagByte ∧ s.extract = .ok ({ s with sync := false }, true)) ∨
    (s.buf.head? = some flagByte ∧ flagByte ∉ s.buf.drop 1 ∧ s.extract = .ok (s, false)) ∨
    ∃ i, s.buf.head? = some flagByte ∧ bufFind s.buf flagByte 1 = some i ∧
      s.extract = (State.frameDecode { s with buf := s.buf.drop (i + 1)
                                              totalFrames := bump s.params.ctrW s.totalFrames }
        (slice s.buf 1 i)).map fun t => (t, true) := by
  unfold State.extract
  by_cases hh : s.buf.head? = some flagByte
  · right
    cases hf : bufFind s.buf flagByte 1 with
    | none => exact .inl ⟨hh, bufFind_eq_none.mp hf, by simp [hh]⟩
    | some i => exact .inr ⟨i, hh, rfl, by simp [hh, State.bufDrop]⟩
  · exact .inl ⟨hh, by simp [hh, State.clearSync]⟩

/-! ## The drain loop -/

/-- What every pass of the drain loop keeps, the loop keeps (R232): the induction over the passes, once. -/
theorem drain_keeps {I : State → Prop} (hr : ∀ s, I s → I s.resync.1)
    (he : ∀ s t c, I s → s.extract = .ok (t, c) → I t) :
    ∀ fuel s t, I s → State.drain fuel s = .ok t → I t := by
  intro fuel
  induction fuel with
  | zero =>
    intro s t hs h
    cases h
    exact hs
  | succ fuel ih =>
    intro s t hs h
    have hp : I (if s.sync then (s, true) else s.resync).1 := by
      split
      · exact hs
      · exact hr s hs
    simp only [State.drain] at h
    generalize (if s.sync then (s, true) else s.resync) = p at hp h
    obtain ⟨u, found⟩ := p
    cases found with
    | false =>
      cases h
      exact hp
    | true =>
      dsimp only [Bool.not_true] at h
      rw [if_neg (by decide)] at h
      split at h
      · cases h
        exact hp
      · split at h
        · cases h
        · rename_i v hv
          cases h
          exact he u _ _ hp hv
        · rename_i v hv
          exact ih v t (he u v _ hp hv) h

/-- ADD_BYTES (R230, R231): refused with nothing else written, or the drained state and the count of what it queued. -/
theorem execAddBytes_cases (d : Bytes) (s : State) :
    (∃ r, s.addBytes d = .error r ∧ execAddBytes d s = .next (s.refuse r)) ∨
      ∃ t n, s.addBytes d = .ok (t, n) ∧ execAddBytes d s = .next (t.returnValue (.count n)) := by
  unfold execAddBytes
  cases h : s.addBytes d with
  | error r => exact .inl ⟨r, rfl, rfl⟩
  | ok p => exact .inr ⟨p.1, p.2, rfl, rfl⟩

/-- `addBytes` answered: the append, then the drain. -/
theorem addBytes_eq_ok {s t : State} {d : Bytes} {n : Nat} (h : s.addBytes d = .ok (t, n)) :
    withinCap s.params.bufCap (s.buf.length + d.length) ∧
      State.drain (2 * (s.buf.length + d.length) + 2) { s with buf := s.buf ++ d } = .ok t ∧
      n = t.outq.length - s.outq.length := by
  unfold State.addBytes at h
  rcases bufAppend_cases s d with ⟨ha, _⟩ | ⟨ha, hcap⟩
  · rw [ha] at h
    cases h
  · rw [ha] at h
    dsimp only [State.drainFuel] at h
    rw [List.length_append] at h
    split at h
    · cases h
    · rename_i u hu
      cases h
      exact ⟨hcap, hu, rfl⟩

/-! ## Reading the frames from left to right (Safety.lean) -/

/-- Hunting passes over bytes that hold no flag (R233). -/
theorem frameBodies_hunting_append {garbage : Bytes} (h : flagByte ∉ garbage) (rest : Bytes) :
    frameBodies .hunting (garbage ++ rest) = frameBodies .hunting rest := by
  induction garbage with
  | nil => rfl
  | cons b garbage ih =>
    rw [List.mem_cons, not_or] at h
    rw [List.cons_append, frameBodies, if_pos (Ne.symm h.1), ih h.2]

/-- Inside a frame, bytes that hold no flag join the body. -/
theorem frameBodies_inside_append {more : Bytes} (h : flagByte ∉ more) (body rest : Bytes) :
    frameBodies (.inside body) (more ++ rest) = frameBodies (.inside (body ++ more)) rest := by
  induction more generalizing body with
  | nil => simp
  | cons b more ih =>
    rw [List.mem_cons, not_or] at h
    rw [List.cons_append, frameBodies, if_neg (Ne.symm h.1), ih h.2, List.append_assoc, List.singleton_append]

/-- A synchronized reader takes one whole frame and stands between frames again (R235). -/
theorem frameBodies_between_frame {body : Bytes} (h : flagByte ∉ body) (rest : Bytes) :
    frameBodies .between (flagByte :: (body ++ flagByte :: rest)) = body :: frameBodies .between rest := by
  rw [frameBodies, if_pos rfl, frameBodies_inside_append h, List.nil_append, frameBodies, if_pos rfl]

/-- A frame whose closing flag has not come yields nothing (R235). -/
theorem frameBodies_between_open {tail : Bytes} (h : flagByte ∉ tail) :
    frameBodies .between (flagByte :: tail) = [] := by
  have := frameBodies_inside_append h [] []
  rw [List.append_nil] at this
  rw [frameBodies, if_pos rfl, this]
  rfl

/-- A synchronized reader that meets no flag where one must stand hunts from there (R235). -/
theorem frameBodies_between_lost {buf : Bytes} (h : buf.head? ≠ some flagByte) :
    frameBodies .between buf = frameBodies .hunting buf := by
  cases buf with
  | nil => rfl
  | cons b rest =>
    have hb : b ≠ flagByte := fun hb => h (by rw [hb, List.head?_cons])
    simp [frameBodies, hb]

/-- Hunting stops at a flag byte that no other follows, and the reader is synchronized there (R233 case (c)). -/
theorem frameBodies_hunting_lone {rest : Bytes} (h : rest.head? ≠ some flagByte) :
    frameBodies .hunting (flagByte :: rest) = frameBodies .between (flagByte :: rest) := by
  rw [frameBodies, if_neg (fun h => h rfl), if_neg h, frameBodies, if_pos rfl]

/-- Of two flag bytes met while hunting the first is dropped (R233 case (b)). -/
theorem frameBodies_hunting_pair {rest : Bytes} (h : rest.head? = some flagByte) :
    frameBodies .hunting (flagByte :: rest) = frameBodies .between rest := by
  rw [frameBodies, if_neg (fun h => h rfl), if_pos h]

/-- A body that passes its check is not too short. -/
theorem not_isShort_of_passesCheck {P : Params} {body : Bytes} (h : passesCheck P body) : ¬ isShort P body :=
  Nat.not_lt.mpr h.1

end Sys2Proof.Machine
end

