-- ==== Sys2Proof/Machine/Asm.lean ====
section
/-! DEFINITION. The command lines of the spec's programs (30_encoding.md R73) as data, what instruction a line stands for,
the pseudo-command LOOPBACK (R74), and a run of lines. CORE reads none of this: it is the host's side. The characters of a
line are not modelled, only what they denote (DESIGN CHOICE, log 17). -/

namespace Sys2Proof.Machine

/-- A decimal `F64` literal: `digits / 10 ^ places`, negated where it has a minus sign. -/
structure RealLit where
  negative : Bool
  digits : Nat
  places : Nat
  deriving DecidableEq, Repr

/-- A `ReportIn` literal, with every field given. -/
structure ReportLit where
  status : Int
  addressType : Int
  address : Int
  latitude : RealLit
  longitude : RealLit
  altitude : Int
  misc : Int
  navIntegrityCat : Int
  navAccuracyCat : Int
  hVelocity : Option Int
  vVelocity : Option Int
  trackHeading : RealLit
  emitterCategory : Int
  callSign : Bytes
  code : Int
  deriving DecidableEq, Repr

/-- An operand of a line: a byte string (hex pairs or ASCII text), an integer, `none`, a `Bool`, a report, or the name of an
earlier line's result value. -/
inductive Lit where
  | bytes (b : Bytes)
  | int (n : Int)
  | none
  | bool (b : Bool)
  | report (r : ReportLit)
  | name (n : String)
  deriving DecidableEq, Repr

/-- `r <- MNEMONIC operands`; `bind` is the name, where one is given. -/
structure Line where
  bind : Option String
  mnemonic : String
  operands : List Lit
  deriving DecidableEq, Repr

/-- The result values named so far. -/
abbrev Names := List (String × Bytes)

/-- The binary64 nearest to `num / den`, ties to even, infinity past the largest (R73). -/
def f64Nearest (negative : Bool) (num den : Nat) : F64 :=
  let sign := if negative then 2 ^ 63 else 0
  if num = 0 then BitVec.ofNat 64 sign
  else
    -- `sc x` is `num / den` divided by 2 to the `x - 1074`, as a fraction
    let sc : Nat → Nat × Nat := fun x => (num * 2 ^ (1074 - x), den * 2 ^ (x - 1074))
    let guess := num.log2 + 1074 - den.log2 - 53
    let x := if (sc guess).1 / (sc guess).2 < 2 ^ 53 then guess else guess + 1
    let m := (roundQ .halfEven (sc x).1 (sc x).2).toNat
    BitVec.ofNat 64 (sign + min (m + x * 2 ^ 52) (2047 * 2 ^ 52))

/-- The binary64 a decimal literal denotes (R73). -/
def RealLit.f64 (l : RealLit) : F64 := f64Nearest l.negative l.digits (10 ^ l.places)

/-- An unsigned integer literal of `w` bits. -/
def unsignedLit (w : Nat) (n : Int) : Option (BitVec w) := if 0 ≤ n ∧ n < 2 ^ w then some (BitVec.ofInt w n) else none

/-- A signed integer literal of 32 bits. -/
def signedLit (n : Int) : Option (BitVec 32) :=
  if -(2 : Int) ^ 31 ≤ n ∧ n < 2 ^ 31 then some (BitVec.ofInt 32 n) else none

/-- An `Option i32` literal. -/
def optSignedLit : Option Int → Option (Option (BitVec 32))
  | none => some none
  | some n => (signedLit n).map some

/-- The record a report literal denotes. -/
def ReportLit.record (r : ReportLit) : Option ReportIn := do
  let status ← unsignedLit 8 r.status
  let addressType ← unsignedLit 8 r.addressType
  let address ← unsignedLit 32 r.address
  let altitude ← signedLit r.altitude
  let misc ← unsignedLit 8 r.misc
  let navIntegrityCat ← unsignedLit 8 r.navIntegrityCat
  let navAccuracyCat ← unsignedLit 8 r.navAccuracyCat
  let hVelocity ← optSignedLit r.hVelocity
  let vVelocity ← optSignedLit r.vVelocity
  let emitterCategory ← unsignedLit 8 r.emitterCategory
  let code ← unsignedLit 8 r.code
  return { status, addressType, address, latitude := r.latitude.f64, longitude := r.longitude.f64, altitude, misc,
           navIntegrityCat, navAccuracyCat, hVelocity, vVelocity, trackHeading := r.trackHeading.f64, emitterCategory,
           callSign := r.callSign, code }

/-- A byte string operand: a literal or a named result. -/
def bytesLit (env : Names) : Lit → Option Bytes
  | .bytes b => some b
  | .name n => env.lookup n
  | _ => none

/-- `LOOPBACK p` (R74): PREPARE_FRAME, then ADD_BYTES of its frame. -/
def loopback (p : Bytes) : List Instr := [.prepareFrame p, .addBytes (prepareFrame p)]

/-- The instructions a line stands for (R70, R73, R74). -/
def assemble (env : Names) (l : Line) : Option (List Instr) :=
  let one (mk : Bytes → Instr) (x : Lit) : Option (List Instr) := (bytesLit env x).map fun b => [mk b]
  match l.mnemonic, l.operands with
  | "CRC_COMPUTE", [d] => one .crcCompute d
  | "CRC_CHECK", [d, c] => do return [.crcCheck (← bytesLit env d) (← bytesLit env c)]
  | "ESCAPE", [d] => one .escape d
  | "UNESCAPE", [d] => one .unescape d
  | "PREPARE_FRAME", [d] => one .prepareFrame d
  | "ENC_HEARTBEAT", [.int s1, .int s2, .int ts, .int u, .int bl] => do
    return [.encHeartbeat (← unsignedLit 8 s1) (← unsignedLit 8 s2) (← unsignedLit 32 ts) (← unsignedLit 8 u)
      (← unsignedLit 16 bl)]
  | "ENC_OWNSHIP", [.report r] => r.record.map fun r => [.encOwnship r]
  | "ENC_TRAFFIC", [.report r] => r.record.map fun r => [.encTraffic r]
  | "ENC_GEOALT", [.int a, .none, .bool w] => do return [.encGeoalt (← signedLit a) none w]
  | "ENC_GEOALT", [.int a, .int m, .bool w] => do return [.encGeoalt (← signedLit a) (some (← unsignedLit 32 m)) w]
  | "ENC_GPSTIME", [.int c, .int q, .int h, .int m] => do
    return [.encGpstime (← unsignedLit 32 c) (← unsignedLit 8 q) (← unsignedLit 8 h) (← unsignedLit 8 m)]
  | "ENC_UPLINK", [.int t, h, d] => do
    return [.encUplink (← unsignedLit 32 t) (← bytesLit env h) (← bytesLit env d)]
  | "DEC_PAYLOAD", [p] => one .decPayload p
  | "ADD_BYTES", [d] => one .addBytes d
  | "READ_OUT", [] => some [.readOut]
  | "READ_STATS", [] => some [.readStats]
  | "READ_STATUS", [] => some [.readStatus]
  | "READ_BUFFER", [] => some [.readBuffer]
  | "RESET", [] => some [.reset]
  | "UAT_IFRAMES", [d] => one .uatIframes d
  | "UAT_APDU", [d] => one .uatApdu d
  | "DLAC_DECODE", [d] => one .dlacDecode d
  | "LOOPBACK", [p] => (bytesLit env p).map loopback
  | _, _ => none

/-- The byte string of a result packet whose value is a `Bytes` (R65, R66). -/
def resultBytes : Bytes → Option Bytes
  | [] => none
  | c :: v =>
    if c = Status.code .ok then
      match takeBytes v with
      | some (b, []) => some b
      | _ => none
    else none

/-- The host hands CORE one line's commands, one after the other, and binds the last result if the line names it. -/
def runLine (l : Line) (s : State) (env : Names) : Option (State × Names) := do
  let is ← assemble env l
  let s ← is.foldlM (fun s i => match step { s with input := [encode i] } with
    | .next t => some t
    | _ => none) s
  match l.bind with
  | none => return (s, env)
  | some n => do
    let packet ← s.results.getLast?
    let b ← resultBytes packet
    return (s, (n, b) :: env)

end Sys2Proof.Machine
end

