-- ==== Sys2Proof/Tests/Slice0.lean ====
section
/-! SUPPORT. Tests: ill-formed terms, written-out words, one-step vectors of 95_test_vectors.md and of the rules' own
examples, and for each statement with hypotheses a state and operands that meet them. -/

namespace Sys2Proof.Tests

open Sys2Proof.Machine

/-! ## Helpers -/

/-- Bytes from numbers. -/
def hx (l : List Nat) : Bytes := l.map (BitVec.ofNat 8)

/-- The state after an instruction, where there is one. -/
def after (i : Instr) (s : State) : Option State :=
  match exec i s with
  | .next t => some t
  | _ => none

/-- The last result packet after an instruction. -/
def answer (i : Instr) (s : State) : Option Bytes := (after i s).bind fun t => t.results.getLast?

/-- The created state with these parameters. -/
def withParams (P : Params) : State := { State.reset with params := P }

/-- A lawful layout of message 101, for tests alone. -/
def testLayout : GpsLayout :=
  { short := { hour := 6, minute := 7, waas := some (11, 0) }, long := { hour := 1, minute := 20, waas := none }, status := 2 }

/-- The default parameters with that layout given. -/
def gpsParams : Params := { standardParams with gpsLayout := some testLayout }

/-- The heartbeat payload of source vector S1, and its frame. -/
def hb : Bytes := hx [0x00, 0x81, 0x41, 0xDB, 0xD0, 0x08, 0x02]
def hbFrame : Bytes := hx [0x7E, 0x00, 0x81, 0x41, 0xDB, 0xD0, 0x08, 0x02, 0xB3, 0x8B, 0x7E]

/-- The ownship payload of source vector S5. -/
def s5 : Bytes := hx [0x0A, 0x01, 0xBE, 0xEF, 0x01, 0x17, 0xBE, 0x76, 0xB5, 0xAA, 0xE5, 0x03, 0x5B, 0x88, 0x0E, 0x10, 0x00,
  0x5B, 0x01, 0x4E, 0x31, 0x32, 0x33, 0x4D, 0x45, 0x20, 0x20, 0x00]

/-- The operands of program P3 that encode to it. -/
def s5In : ReportIn :=
  { status := 0, addressType := 1, address := 0xBEEF01, latitude := 0x4040B1EB851EB852#64, longitude := 0xC05A21EB851EB852#64,
    altitude := 325, misc := 11, navIntegrityCat := 8, navAccuracyCat := 8, hVelocity := some 225, vVelocity := some 0,
    trackHeading := 0x405FFE0000000000#64, emitterCategory := 1, callSign := hx [0x4E, 0x31, 0x32, 0x33, 0x4D, 0x45], code := 0 }

/-- The record r2 of 95_test_vectors.md 2.4. -/
def r2In : ReportIn :=
  { status := 16, addressType := 2, address := 0xABCDEF, latitude := 0xC046800000000000#64, longitude := 0x4066800000000000#64,
    altitude := BitVec.ofInt 32 (-1013), misc := 0, navIntegrityCat := 15, navAccuracyCat := 20, hVelocity := none,
    vVelocity := none, trackHeading := 0xBFF6800000000000#64, emitterCategory := 0x14,
    callSign := hx [0x41, 0x42, 0x43, 0x44, 0x45, 0x46, 0x47, 0x48, 0x49, 0x4A], code := 3 }

/-! ## Ill-formed terms (30_encoding.md R63, R66, R72) -/

theorem test_wf_refuses_overlong_operands (d : Bytes) (h : d.length = 2 ^ 32) (P : Params) :
    Instr.wf P (.crcCompute d) = false ∧ Instr.wf P (.crcCheck d []) = false ∧ Instr.wf P (.crcCheck [] d) = false ∧
      Instr.wf P (.escape d) = false ∧ Instr.wf P (.unescape d) = false ∧ Instr.wf P (.prepareFrame d) = false ∧
      Instr.wf P (.encOwnship { s5In with callSign := d }) = false ∧
      Instr.wf P (.encTraffic { s5In with callSign := d }) = false ∧
      Instr.wf P (.encUplink 0 d []) = false ∧ Instr.wf P (.encUplink 0 [] d) = false ∧
      Instr.wf P (.decPayload d) = false ∧ Instr.wf P (.addBytes d) = false ∧ Instr.wf P (.uatIframes d) = false ∧
      Instr.wf P (.uatApdu d) = false ∧ Instr.wf P (.dlacDecode d) = false := by
  simp [Instr.wf, fitsU32, h]

theorem test_wf_overlong_operand_exists : (List.replicate (2 ^ 32) 0x00#8).length = 2 ^ 32 := List.length_replicate

theorem test_wf_refuses_wrong_codes_and_ids :
    Instr.wf standardParams (.reservedCommand (hx [0x01])) = false ∧
      Instr.wf standardParams (.msgHeartbeat (hx [0x0A])) = false ∧ Instr.wf standardParams (.msgOwnship hb) = false ∧
      Instr.wf standardParams (.msgTraffic s5) = false ∧ Instr.wf standardParams (.msgGeoalt hb) = false ∧
      Instr.wf standardParams (.msgUplink []) = false ∧ Instr.wf standardParams (.msgGpstime hb) = false ∧
      Instr.wf standardParams (.msgVendor (hx [0x42])) = false ∧ Instr.wf standardParams (.msgUnknown hb) = false := by
  decide

/-! ## Every constructor's word, written out from R65 to R71 and R63 -/

theorem test_decode_crc :
    decodePacket (hx [0x01, 0, 0, 0, 2, 0xAB, 0xCD]) = .ok (.crcCompute (hx [0xAB, 0xCD])) ∧
      decodePacket (hx [0x02, 0, 0, 0, 1, 0xAB, 0, 0, 0, 2, 0x12, 0x34]) = .ok (.crcCheck (hx [0xAB]) (hx [0x12, 0x34])) := by
  decide

theorem test_decode_frame :
    decodePacket (hx [0x10, 0, 0, 0, 1, 0x7E]) = .ok (.escape (hx [0x7E])) ∧
      decodePacket (hx [0x11, 0, 0, 0, 2, 0x7D, 0x5E]) = .ok (.unescape (hx [0x7D, 0x5E])) ∧
      decodePacket (hx [0x12, 0, 0, 0, 0]) = .ok (.prepareFrame []) := by decide

theorem test_decode_encoders :
    decodePacket (hx [0x20, 0x81, 0x41, 0x00, 0x01, 0x02, 0x03, 0x05, 0x06, 0x07]) =
        .ok (.encHeartbeat 0x81 0x41 0x00010203 0x05 0x0607) ∧
      decodePacket (hx [0x23, 0xFF, 0xFF, 0xFC, 0x18, 0x00, 0x00]) = .ok (.encGeoalt 0xFFFFFC18 none false) ∧
      decodePacket (hx [0x23, 0, 0, 0x0B, 0xB8, 0x01, 0, 0, 0, 0x0A, 0x01]) = .ok (.encGeoalt 3000 (some 10) true) ∧
      decodePacket (hx [0x24, 0x01, 0x02, 0x03, 0x04, 0x02, 0x17, 0x3B]) = .ok (.encGpstime 0x01020304 2 23 59) ∧
      decodePacket (hx [0x25, 0, 0, 0, 0x2A, 0, 0, 0, 1, 0x11, 0, 0, 0, 2, 0x22, 0x33]) =
        .ok (.encUplink 42 (hx [0x11]) (hx [0x22, 0x33])) := by decide

/-- The packet of program P3, and the same operands under the code of ENC_TRAFFIC. -/
theorem test_decode_reports :
    ∀ c ∈ hx [0x21, 0x22], decodePacket (c :: hx [0x00, 0x01, 0x00, 0xBE, 0xEF, 0x01, 0x40, 0x40, 0xB1, 0xEB, 0x85, 0x1E, 0xB8,
      0x52, 0xC0, 0x5A, 0x21, 0xEB, 0x85, 0x1E, 0xB8, 0x52, 0x00, 0x00, 0x01, 0x45, 0x0B, 0x08, 0x08, 0x01, 0x00, 0x00, 0x00,
      0xE1, 0x01, 0x00, 0x00, 0x00, 0x00, 0x40, 0x5F, 0xFE, 0x00, 0x00, 0x00, 0x00, 0x00, 0x01, 0x00, 0x00, 0x00, 0x06, 0x4E,
      0x31, 0x32, 0x33, 0x4D, 0x45, 0x00]) = .ok (if c = 0x21#8 then .encOwnship s5In else .encTraffic s5In) := by decide

theorem test_decode_stream_and_uat :
    decodePacket (hx [0x30, 0, 0, 0, 1, 0x42]) = .ok (.decPayload (hx [0x42])) ∧
      decodePacket (hx [0x40, 0, 0, 0, 1, 0x7E]) = .ok (.addBytes (hx [0x7E])) ∧
      decodePacket (hx [0x41]) = .ok .readOut ∧ decodePacket (hx [0x42]) = .ok .readStats ∧
      decodePacket (hx [0x43]) = .ok .readStatus ∧ decodePacket (hx [0x44]) = .ok .readBuffer ∧
      decodePacket (hx [0x4F]) = .ok .reset ∧
      decodePacket (hx [0x50, 0, 0, 0, 1, 0x03]) = .ok (.uatIframes (hx [0x03])) ∧
      decodePacket (hx [0x51, 0, 0, 0, 1, 0x06]) = .ok (.uatApdu (hx [0x06])) ∧
      decodePacket (hx [0x52, 0, 0, 0, 1, 0x04]) = .ok (.dlacDecode (hx [0x04])) ∧
      decodePacket (hx [0x4E, 0x01]) = .ok (.reservedCommand (hx [0x4E, 0x01])) := by decide

theorem test_decode_messages :
    let P := { standardParams with vendorIds := [0xCC#8] }
    decode P (.payload (hx [0x00, 1])) = .ok (.msgHeartbeat (hx [0x00, 1])) ∧
      decode P (.payload (hx [0x0A, 1])) = .ok (.msgOwnship (hx [0x0A, 1])) ∧
      decode P (.payload (hx [0x14, 1])) = .ok (.msgTraffic (hx [0x14, 1])) ∧
      decode P (.payload (hx [0x0B, 1])) = .ok (.msgGeoalt (hx [0x0B, 1])) ∧
      decode P (.payload (hx [0x07, 1])) = .ok (.msgUplink (hx [0x07, 1])) ∧
      decode P (.payload (hx [0x65, 1])) = .ok (.msgGpstime (hx [0x65, 1])) ∧
      decode P (.payload (hx [0xCC, 1])) = .ok (.msgVendor (hx [0xCC, 1])) ∧
      decode P (.payload (hx [0x42, 1])) = .ok (.msgUnknown (hx [0x42, 1])) := by decide

/-- Rows of the opcode table as the host numbers them. -/
theorem test_decode_table_words :
    decodeTableWord 8 0x01 = some (.crcCompute []) ∧ decodeTableWord 8 0x4F = some .reset ∧
      decodeTableWord 8 0x03 = some (.reservedCommand (hx [0x03])) ∧
      decodeTableWord 8 0x00 = some (.msgHeartbeat (List.replicate 7 0x00#8)) ∧
      decodeTableWord 8 0x0B = some (.msgGeoalt (hx [0x0B, 0, 0, 0, 0])) := by decide

/-- The packets of 95_test_vectors.md 2.7 that cannot be parsed. -/
theorem test_unparsable_packets :
    ∀ p ∈ [hx [0x01, 0, 0, 0, 5, 1, 2], hx [0x01, 0, 0, 0, 1, 1, 2], hx [0x41, 0], hx [0x23, 0, 0, 0x0B, 0xB8, 0, 2],
      hx [0x23, 0, 0, 0x0B, 0xB8, 2, 0]],
      (match step { State.reset with input := [.packet p] } with
        | .next t => some t
        | _ => none) = some { State.reset with results := [hx [0x09]] } := by decide

theorem test_step_takes_the_first_input :
    (match step { State.reset with input := [.packet (hx [0x43]), .packet (hx [0x4F])] } with
      | .next t => some (t.input, t.results)
      | _ => none) = some ([.packet (hx [0x4F])], [hx [0, 0, 0, 0, 0, 0, 0, 0, 0, 0, 0, 0, 0]]) := by decide

/-! ## CRC engine (40_crc.md; 95_test_vectors.md 2.1) -/

theorem test_crc_table : [0x00#8, 0x01#8, 0x02#8, 0x10#8, 0x80#8, 0xFF#8].map crcTable =
    [0x0000#16, 0x1021#16, 0x2042#16, 0x1231#16, 0x9188#16, 0x1EF0#16] := by decide

theorem test_crcCompute : answer (.crcCompute hb) State.reset = some (hx [0, 0, 0, 0, 2, 0xB3, 0x8B]) ∧
    answer (.crcCompute (hx [0x31, 0x32, 0x33, 0x34, 0x35, 0x36, 0x37, 0x38, 0x39])) State.reset =
      some (hx [0, 0, 0, 0, 2, 0xEF, 0xBE]) := by decide +kernel

theorem test_crcCheck : answer (.crcCheck hb (hx [0x8B, 0xB3])) State.reset = some (hx [0, 0]) ∧
    answer (.crcCheck hb (hx [0xB3, 0x8B])) State.reset = some (hx [0, 1]) ∧
    answer (.crcCheck (hx [1, 2]) (hx [1, 2, 3])) State.reset = some (hx [7]) := by decide +kernel

/-! ## Frame codec (41_frame.md; 2.2) -/

theorem test_escape : answer (.escape (hx [0x11, 0x7E, 0x22, 0x7D])) State.reset =
    some (hx [0, 0, 0, 0, 6, 0x11, 0x7D, 0x5E, 0x22, 0x7D, 0x5D]) := by decide

theorem test_unescape : answer (.unescape (hx [0x7D, 0x7D, 0x5E])) State.reset = some (hx [0, 0, 0, 0, 2, 0x5D, 0x5E]) ∧
    answer (.unescape (hx [0x11, 0x7D])) (withParams { standardParams with loneEsc := .drop }) =
      some (hx [0, 0, 0, 0, 1, 0x11]) := by decide

theorem test_prepareFrame : answer (.prepareFrame (hx [0x7D])) State.reset =
    some (hx [0, 0, 0, 0, 7, 0x7E, 0x7D, 0x5D, 0x7D, 0x5D, 0x00, 0x7E]) := by decide

/-! ## Field codecs (42_fields.md; 2.3) -/

theorem test_coordinates :
    [0x4040B1EB851EB852#64, 0x4059000000000000#64, 0xBE112E0BE826D695#64].map latEnc =
        [.ok 0x17BE76#24, .ok 0x400000#24, .ok 0x000000#24] ∧
      [0xC05A21EB851EB852#64, 0x4066800000000000#64].map lonEnc = [.ok 0xB5AAE5#24, .ok 0x800000#24] := by decide

theorem test_tracks :
    [0x3FE6800000000000#64, 0x4000E00000000000#64, 0x4076780000000000#64, 0xBFF6800000000000#64].map (trackEnc .halfEven) =
      [.ok 0x00#8, .ok 0x02#8, .ok 0x00#8, .ok 0xFF#8] ∧ trackEnc .halfEven 0x7FF8000000000000#64 =
      .error .encodeValueOutOfRange := by decide

theorem test_altitudes :
    [-1000, -1013, 348, 101350, 200000].map (altEnc .round .halfEven) = [0x000#12, 0x000#12, 0x036#12, 0xFFE#12, 0xFFE#12] ∧
      altEnc .trunc .halfEven 348 = 0x035#12 ∧ altDec 0xFFF#12 = 101375 := by decide

theorem test_velocities :
    [none, some (-5), some 225, some 4095].map hvelEnc = [0xFFF#12, 0x000#12, 0x0E1#12, 0xFFE#12] ∧
      [none, some 63, some (-65), some 32576, some 32577, some (-32576), some (-40000)].map (vvelEnc standardParams) =
        [0x800#12, 0x000#12, 0xFFF#12, 0x1FD#12, 0x1FE#12, 0xE03#12, 0xE02#12] ∧
      [0x1FF#12, 0x7FF#12, 0x801#12, 0xE01#12, 0xE02#12, 0x800#12].map (vvelDec standardParams) =
        [some 0, some 0, some 0, some 0, some (-32640), none] := by decide

theorem test_geoalt_and_heartbeat_fields :
    [3000, -1000, 7, 200000, -200000].map (geoaltEnc .halfEven) = [0x0258#16, 0xFF38#16, 0x0001#16, 0x7FFF#16, 0x8000#16] ∧
      vmEnc (some 32767) false = 0x7FFE#16 ∧ vmMerit 0x7FFF#16 = none ∧
      tsEnc 0x20000 0x00 = (0x80#8, 0xFF#8, 0xFF#8) ∧ countsEnc 40 2000 = 0xFBFF#16 := by decide

/-! ## Messages (43_messages.md; 2.4) -/

theorem test_encHeartbeat : answer (.encHeartbeat 0x81 0x01 32400 0 2) State.reset =
      some (hx [0, 0, 0, 0, 12, 0x7E, 0x00, 0x81, 0x01, 0x90, 0x7D, 0x5E, 0x00, 0x02, 0x0C, 0x1B, 0x7E]) ∧
    answer (.encHeartbeat 0 0 200000 40 2000) State.reset =
      some (hx [0, 0, 0, 0, 11, 0x7E, 0x00, 0x00, 0x80, 0xFF, 0xFF, 0xFB, 0xFF, 0xAA, 0xDD, 0x7E]) := by decide +kernel

theorem test_encOwnship : answer (.encOwnship s5In) State.reset =
      some (hx [0, 0, 0, 0, 32, 0x7E] ++ s5 ++ hx [0xB3, 0xE0, 0x7E]) ∧
    answer (.encOwnship { s5In with address := 0x1000000 }) State.reset = some (hx [6]) := by decide +kernel

theorem test_encTraffic : answer (.encTraffic r2In) State.reset = some (hx [0, 0, 0, 0, 32, 0x7E, 0x14, 0xF2, 0xAB, 0xCD, 0xEF,
    0xE0, 0x00, 0x00, 0x80, 0x00, 0x00, 0x00, 0x00, 0xFF, 0xFF, 0xF8, 0x00, 0xFF, 0x14, 0x41, 0x42, 0x43, 0x44, 0x45, 0x46,
    0x47, 0x48, 0x30, 0x1A, 0x6D, 0x7E]) := by decide +kernel

theorem test_encGeoalt : answer (.encGeoalt 3000 (some 10) true) State.reset =
      some (hx [0, 0, 0, 0, 9, 0x7E, 0x0B, 0x02, 0x58, 0x80, 0x0A, 0x64, 0xCD, 0x7E]) ∧
    answer (.encGeoalt (BitVec.ofInt 32 (-1000)) none false) State.reset =
      some (hx [0, 0, 0, 0, 9, 0x7E, 0x0B, 0xFF, 0x38, 0x7F, 0xFF, 0xAA, 0x3B, 0x7E]) := by decide +kernel

theorem test_encGpstime : answer (.encGpstime 1 1 24 0) State.reset = some (hx [6]) ∧
    after (.encGpstime 1 1 23 59) State.reset = some { State.reset with refused := some .gpsLayoutOpen } := by decide

theorem test_encUplink : answer (.encUplink 0x1000000 (List.replicate 8 0x11#8) (List.replicate 424 0#8)) State.reset =
      some (hx [6]) ∧
    answer (.encUplink 42 (List.replicate 8 0x11#8) (List.replicate 423 0#8)) State.reset = some (hx [6]) ∧
    uplinkPayload standardParams 42 (List.replicate 8 0x11#8) (List.replicate 424 0#8) =
      .ok (hx [0x07, 0, 0, 0x2A] ++ List.replicate 8 0x11#8 ++ List.replicate 424 0#8) := by decide +kernel

theorem test_decPayload : answer (.decPayload (hx [0x42, 1, 2])) State.reset = some (hx [0, 6, 0x42, 0, 0, 0, 3, 0x42, 1, 2]) ∧
    answer (.decPayload []) State.reset = some (hx [0, 7, 4]) := by decide

theorem test_msgHeartbeat : answer (.msgHeartbeat (hx [0, 0, 0x80, 0xFF, 0xFF, 0xFF, 0xFF])) State.reset =
    some (hx [0, 0, 0x00, 0x80, 0x00, 0x01, 0xFF, 0xFF, 31, 0x03, 0xFF]) := by decide

theorem test_msgOwnship : answer (.msgOwnship s5) State.reset = some (hx [0x00, 0x01, 0x00, 0x01, 0x00, 0xBE, 0xEF, 0x01, 0x40,
    0x40, 0xB1, 0xEA, 0xF8, 0, 0, 0, 0xC0, 0x5A, 0x21, 0xEB, 0x7E, 0, 0, 0, 0, 0, 0x01, 0x45, 0x0B, 0x08, 0x08, 0x01, 0x00, 0xE1,
    0x01, 0, 0, 0, 0, 0x40, 0x5F, 0xFE, 0, 0, 0, 0, 0, 0x01, 0, 0, 0, 6, 0x4E, 0x31, 0x32, 0x33, 0x4D, 0x45, 0x00]) := by decide

/-- The decode of r2's payload: status, NACp, longitude and altitude show the clamps. -/
theorem test_msgTraffic : decReport standardParams (hx [0x14, 0xF2, 0xAB, 0xCD, 0xEF, 0xE0, 0x00, 0x00, 0x80, 0x00, 0x00, 0x00, 0x00,
    0xFF, 0xFF, 0xF8, 0x00, 0xFF, 0x14, 0x41, 0x42, 0x43, 0x44, 0x45, 0x46, 0x47, 0x48, 0x30]) 0x14#8 .trafficReport =
    .trafficReport
      { status := 15, addressType := 2, address := 0xABCDEF, latitude := 0xC046800000000000#64,
        longitude := 0xC066800000000000#64, altitude := -1000, misc := 0, navIntegrityCat := 15, navAccuracyCat := 15,
        hVelocity := none, vVelocity := none, trackHeading := 0x4076698000000000#64, emitterCategory := 20,
        callSign := hx [0x41, 0x42, 0x43, 0x44, 0x45, 0x46, 0x47, 0x48], code := 3 } := by decide

theorem test_msgGeoalt : answer (.msgGeoalt (hx [0x0B, 0x80, 0x00, 0x7F, 0xFF])) State.reset =
    some (hx [0, 3, 0xFF, 0xFD, 0x80, 0x00, 0x7F, 0xFF]) := by decide

theorem test_msgUplink : decUplink standardParams (hx [7, 0, 0, 0x2A] ++ List.replicate 432 0#8) =
      .uplinkData 42 (List.replicate 8 0#8) (List.replicate 424 0#8) ∧
    decUplink standardParams (List.replicate 435 7#8) = .invalid .malformedField := by decide +kernel

theorem test_msgGpstime : answer (.msgGpstime (0x65#8 :: List.replicate 28 0#8)) State.reset = some (hx [0, 8]) ∧
    after (.msgGpstime (0x65#8 :: List.replicate 11 0#8)) State.reset =
      some { State.reset with refused := some .gpsLayoutOpen } := by decide

theorem test_msgVendor : after (.msgVendor (hx [0xCC])) State.reset =
    some { State.reset with refused := some .vendorLayoutNotInSource } := by decide

theorem test_msgUnknown : answer (.msgUnknown (hx [0x42])) State.reset = some (hx [0, 6, 0x42, 0, 0, 0, 1, 0x42]) := by decide

theorem test_reservedCommand : answer (.reservedCommand (hx [0xFF])) State.reset = some (hx [8]) := by decide

/-! ## Stream decoder (44_stream.md; 2.5) -/

/-- Rows V2 and V21: a frame decoded; a frame whose opening flag closed a garbage body. -/
theorem test_addBytes_v2 : after (.addBytes hbFrame) State.reset = some { State.reset with
    sync := true, resyncCount := 1, totalFrames := 1, stats := [⟨0, 1, 0⟩], outq := [.heartbeat 0x81 0x41 53467 1 2],
    results := [hx [0, 0, 0, 0, 1]] } := by decide +kernel

theorem test_addBytes_v21 : after (.addBytes (hx [0x02, 0xB3, 0x8B, 0x7E, 0x11, 0x22] ++ hbFrame)) State.reset =
    some { State.reset with buf := hx [0x7E], sync := true, resyncCount := 2, totalFrames := 1,
                            results := [hx [0, 0, 0, 0, 0]] } := by decide

theorem test_readOut : after .readOut { State.reset with outq := [.absent, .invalid .malformedField] } =
      some { State.reset with outq := [.invalid .malformedField], results := [hx [0, 8]] } ∧
    answer .readOut State.reset = some (hx [0x0A]) := by decide

theorem test_readStats : answer .readStats
      { State.reset with totalFrames := 3, resyncCount := 1, stats := [⟨0, 0, 1⟩, ⟨0x0B, 1, 0⟩] } =
    some ([0x00#8] ++ toBE 8 3 ++ toBE 8 1 ++ hx [0, 0, 0, 2] ++ hx [0x00] ++ toBE 8 0 ++ toBE 8 1 ++ hx [0x0B] ++ toBE 8 1 ++
      toBE 8 0) := by decide

theorem test_readStatus : answer .readStatus { State.reset with buf := hx [0x7E, 0x11, 0x22], sync := true } =
    some (hx [0, 0, 0, 0, 1, 0, 0, 0, 3, 0, 0, 0, 0]) := by decide

theorem test_readBuffer : answer .readBuffer { State.reset with buf := hx [0x7E, 0x11, 0x22] } =
    some (hx [0, 0, 0, 0, 3, 0x7E, 0x11, 0x22]) := by decide

theorem test_reset : after .reset { State.reset with buf := hbFrame, sync := true, totalFrames := 9, refused := some .gpsLayoutOpen } =
    some { State.reset with refused := some .gpsLayoutOpen, results := [hx [0]] } := by decide

/-! ## UAT sub-decoder (45_uat.md; 2.6) -/

theorem test_uatIframes :
    iframes (hx [0x03, 0x80, 1, 2, 3, 4, 5, 6, 7, 0x00, 0x81, 0xAA, 0, 0, 9, 9]) =
        [{ length := 7, type := 0, data := hx [1, 2, 3, 4, 5, 6, 7] }, { length := 1, type := 1, data := hx [0xAA] }] ∧
      answer (.uatIframes (hx [0xFF, 0xFF, 0xAB])) State.reset =
        some (hx [0, 0, 0, 0, 1, 0x01, 0xFF, 15, 0, 0, 0, 1, 0xAB]) := by decide

theorem test_uatApdu : answer (.uatApdu (hx [0xE6, 0x77, 0xB2, 0x2F])) State.reset =
      some (hx [0, 1, 0x01, 0x9D, 12, 34, 0, 0, 0, 0]) ∧
    answer (.uatApdu (hx [1, 2, 3])) State.reset = some (hx [0, 0]) := by decide

theorem test_dlacDecode : answer (.dlacDecode (hx [0x2D, 0x86, 0x5A, 0x83, 0x10, 0x00])) State.reset =
      some (hx [0, 0, 0, 0, 6, 0x4B, 0x58, 0x59, 0x5A, 0x20, 0x31]) ∧
    answer (.dlacDecode (hx [0x71, 0xE7, 0xC0])) State.reset = some (hx [0, 0, 0, 0, 3, 0x09, 0x0A, 0x7C]) := by decide

/-- Symbol 0 ends the text though non-zero symbols follow (R280): `H`, then symbols 0, 63, 63 and three bytes more. -/
theorem test_dlacDecode_stops : answer (.dlacDecode (hx [0x20, 0x0F, 0xFF, 0xFF, 0xFF, 0xFF])) State.reset =
    some (hx [0, 0, 0, 0, 1, 0x48]) := by decide

/-! ## The host's side (30_encoding.md R73, R74) -/

theorem test_literal_binary64 : (RealLit.f64 { negative := false, digits := 3339, places := 2 }) = 0x4040B1EB851EB852#64 ∧
    (RealLit.f64 { negative := true, digits := 10453, places := 2 }) = 0xC05A21EB851EB852#64 := by decide

theorem test_loopback : loopback hb = [.prepareFrame hb, .addBytes hbFrame] := by decide +kernel

/-! ## Witnesses: for each statement with hypotheses, states and operands that meet them, clause by clause, at the ends of
their ranges. A statement without hypotheses has none. -/

/-- A state in the middle of a run: a partial frame, one entry, one result, unsynchronized input pending. -/
def midRun : State :=
  { State.reset with buf := hx [0x7E, 0x11], sync := true, resyncCount := 1, totalFrames := 2, stats := [⟨0x00, 1, 1⟩],
                     outq := [.absent], input := [.packet (hx [0x40, 0, 0, 0, 1, 0x7E])] }

theorem witness_EncodeThenDecodeIsIdentity :
    Instr.wf standardParams (.encUplink 42 (hx [0x11]) (hx [0x22])) = true ∧ Instr.wf standardParams (.encOwnship s5In) = true ∧
      Instr.wf standardParams (.reservedCommand (hx [0x03])) = true ∧ Instr.wf standardParams (.reservedCommand []) = true ∧
      Instr.wf standardParams (.msgOwnship s5) = true := by decide

theorem witness_UnassignedCodesAreIllegal :
    (∀ c ∈ hx [0x00, 0x03, 0x0F, 0x13, 0x1F, 0x26, 0x2F, 0x31, 0x3F, 0x45, 0x4E, 0x53, 0xFF],
      c ∉ [0x01#8, 0x02#8, 0x10#8, 0x11#8, 0x12#8, 0x20#8, 0x21#8, 0x22#8, 0x23#8, 0x24#8, 0x25#8, 0x30#8, 0x40#8, 0x41#8,
        0x42#8, 0x43#8, 0x44#8, 0x4F#8, 0x50#8, 0x51#8, 0x52#8]) ∧
      State.input { State.reset with input := [.packet (0xFF#8 :: [])] } = .packet (0xFF#8 :: []) :: [] ∧
      State.input { State.reset with input := [.packet []] } = .packet [] :: [] := by decide

theorem witness_UnparsablePacketsAreFormatErrors :
    Instr.wf standardParams (.escape (hx [0x7E])) = true ∧ (∀ q, Instr.escape (hx [0x7E]) ≠ .reservedCommand q) ∧
      encode (.escape (hx [0x7E])) = .packet (hx [0x10, 0, 0, 0, 1, 0x7E]) ∧
      0 < 1 ∧ 5 < (hx [0x10, 0, 0, 0, 1, 0x7E]).length ∧ hx [0x00] ≠ [] ∧
      (hx [0, 0, 0, 7]).length = 4 ∧ (List.replicate 29 0x00#8).length = 29 ∧ (0x02#8 : Byte) ≠ 0x00#8 ∧
      (0x02#8 : Byte) ≠ 0x01#8 ∧ (0xFF#8 : Byte) ≠ 0x00#8 ∧ (0xFF#8 : Byte) ≠ 0x01#8 ∧
      decodePacket (hx [0x41, 0x00]) = .error .operandFormatError :=
  ⟨by decide, fun _ h => Instr.noConfusion h, by decide⟩

theorem witness_StepRunsTheDecodedInstruction :
    midRun.input = .packet (hx [0x40, 0, 0, 0, 1, 0x7E]) :: [] ∧
      decode midRun.params (.packet (hx [0x40, 0, 0, 0, 1, 0x7E])) = .ok (.addBytes (hx [0x7E])) ∧ State.reset.input = [] := by
  decide

theorem witness_CrcComputeReturnsCheckBytes : s5.length < 2 ^ 32 := by decide

theorem witness_CrcCheckComparesBothBytes : ([] : Bytes).length ≠ 2 ∧ (hx [1]).length ≠ 2 ∧ (hx [1, 2, 3]).length ≠ 2 ∧
    s5.length < 2 ^ 32 := by decide

/-- One error pattern that is a multiple of the generator, and one that is not. -/
theorem witness_CrcLinearityDecidesUndetectedErrors :
    (hx [1, 2, 3]).length = (hx [0, 0x81, 1]).length ∧ (hx [0x01, 0x10, 0x21]).length = (hx [1, 2, 3]).length ∧
      (hx [0, 0]).length = 2 ∧ crcBytes (hx [0x01, 0x10, 0x21]) = hx [0, 0] ∧ crcBytes (hx [0, 0, 1]) ≠ hx [0, 0] := by
  decide +kernel

theorem witness_EscapeStuffsReservedBytes : s5.length < 2 ^ 32 := by decide

theorem witness_UnescapeConsumesPairsAndInvertsEscape : (0x7C#8 : Byte) ≠ 0x7D#8 ∧ (0x7E#8 : Byte) ≠ 0x7D#8 ∧
    LoneEsc.keep = .keep ∧ LoneEsc.drop = .drop := by decide

theorem witness_PrepareFrameDelimitsStuffedPayload : s5.length < 2 ^ 32 := by decide

/-- The ends of the latitude codes; 90 and -90 degrees; -180 and 180 degrees, where the last two clauses meet. -/
theorem witness_CoordinateQuantization :
    -(2 ^ 22) ≤ (0xC00000#24).toInt ∧ (0xC00000#24).toInt ≤ 2 ^ 22 ∧ -(2 ^ 22) ≤ (0x400000#24).toInt ∧
      (0x400000#24).toInt ≤ 2 ^ 22 ∧
      realOf 0x4056800000000000#64 = .finite (90 * 2 ^ 46) (2 ^ 46) ∧ (90 * 2 ^ 46 : Int).natAbs ≤ 90 * 2 ^ 46 ∧
      realOf 0xC056800000000000#64 = .finite (-(90 * 2 ^ 46)) (2 ^ 46) ∧ (-(90 * 2 ^ 46) : Int).natAbs ≤ 90 * 2 ^ 46 ∧
      realOf 0xC066800000000000#64 = .finite (-(180 * 2 ^ 45)) (2 ^ 45) ∧ (-(180 * 2 ^ 45) : Int).natAbs ≤ 180 * 2 ^ 45 ∧
      (-(180 * 2 ^ 45) : Int) ≠ (180 * 2 ^ 45 : Nat) ∧
      realOf 0x4066800000000000#64 = .finite (180 * 2 ^ 45) (2 ^ 45) ∧ (180 * 2 ^ 45 : Int) = (180 * 2 ^ 45 : Nat) := by
  decide

/-- NaN, both infinities, 100 and -100, 90 and -90, and 200, 180 for longitude. -/
theorem witness_CoordinateEncodeTruncatesTowardZero :
    realOf 0x7FF8000000000000#64 = .nan ∧ realOf 0x7FF0000000000000#64 = .infinite false ∧
      realOf 0xFFF0000000000000#64 = .infinite true ∧
      realOf 0x4059000000000000#64 = .finite (100 * 2 ^ 46) (2 ^ 46) ∧ ((90 * 2 ^ 46 : Nat) : Int) < 100 * 2 ^ 46 ∧
      realOf 0xC059000000000000#64 = .finite (-(100 * 2 ^ 46)) (2 ^ 46) ∧ -(100 * 2 ^ 46) < -((90 * 2 ^ 46 : Nat) : Int) ∧
      realOf 0x4056800000000000#64 = .finite (90 * 2 ^ 46) (2 ^ 46) ∧ (90 * 2 ^ 46 : Int) ≤ (90 * 2 ^ 46 : Nat) ∧
      realOf 0xC056800000000000#64 = .finite (-(90 * 2 ^ 46)) (2 ^ 46) ∧
      realOf 0x4066800000000000#64 = .finite (180 * 2 ^ 45) (2 ^ 45) ∧
      realOf 0x4069000000000000#64 = .finite (200 * 2 ^ 45) (2 ^ 45) ∧ ((180 * 2 ^ 45 : Nat) : Int) < 200 * 2 ^ 45 := by
  decide

/-- 0.703125 degrees is the tie at half a step. -/
theorem witness_TrackEncodeRoundsToNearest :
    realOf 0x7FF8000000000000#64 = .nan ∧ realOf 0xFFF0000000000000#64 = .infinite true ∧
      realOf 0x3FE6800000000000#64 = .finite (45 * 2 ^ 47) (2 ^ 53) ∧
      2 * (45 * 2 ^ 47 * 256 - 0 * (360 * 2 ^ 53) : Int).natAbs = 360 * 2 ^ 53 := by decide

theorem witness_AltitudeCodecBounds : (0x000#12 : BitVec 12) ≠ 0xFFF#12 ∧ (0xFFE#12 : BitVec 12) ≠ 0xFFF#12 ∧
    (-1001 : Int) < -1000 ∧ (101350 : Int) < 101351 ∧ (-1000 : Int) ≤ -1000 ∧ (101350 : Int) ≤ 101350 ∧
    AltQuant.round = .round ∧ AltQuant.trunc = .trunc := by decide

theorem witness_VelocityCodecSentinelsAndSteps : (-1 : Int) < 0 ∧ (0xFFE : Int) < 0xFFF ∧ (0 : Int) ≤ 0xFFE ∧
    (0x1FF#12 : BitVec 12) ≠ 0x800#12 ∧ vvelIsReserved standardParams 0x1FF#12 = true ∧
    vvelIsReserved standardParams 0xE01#12 = true ∧ (32576 : Int) < 32577 ∧ (-32577 : Int) < -32576 ∧
    (-32576 : Int) ≤ 32576 ∧ vvelIsReserved standardParams 0x1FE#12 = false ∧
    vvelIsReserved standardParams 0xE02#12 = false ∧ vvelIsReserved standardParams 0x800#12 = false := by decide

theorem witness_CallSignCodec : ([] : Bytes).length ≤ 8 ∧ 8 ≤ (hx [1, 2, 3, 4, 5, 6, 7, 8]).length ∧
    (hx [1, 2, 3, 4, 5, 6, 7, 8]).length ≤ 8 ∧ 8 ≤ (hx [1, 2, 3, 4, 5, 6, 7, 8, 9]).length ∧ (0x21#8 : Byte) ≠ 0x20#8 ∧
    (hx [1, 2, 3, 4, 5, 6, 7]).length ≤ 7 := by decide

theorem witness_HeartbeatDecodeLayout : (hx [0, 1, 2, 3, 4, 5]).length ≠ 7 ∧ (hx [0, 1, 2, 3, 4, 5, 6, 7]).length ≠ 7 := by
  decide

/-- Each way to be illegal, and both ends of the legal address. -/
theorem witness_ReportEncodersRaiseExactlyWhenIllegal :
    reportIllegal { s5In with address := 0x1000000 } ∧ reportIllegal { s5In with latitude := 0x7FF8000000000000#64 } ∧
      reportIllegal { s5In with longitude := 0x7FF8000000000000#64 } ∧
      reportIllegal { s5In with trackHeading := 0x7FF8000000000000#64 } ∧
      reportIllegal { s5In with trackHeading := 0x7FF0000000000000#64 } ∧ ¬ reportIllegal s5In ∧
      ¬ reportIllegal { s5In with address := 0xFFFFFF, latitude := 0x7FF0000000000000#64 } := by decide

theorem witness_ReportEncodeDecodesBack : ¬ reportIllegal s5In ∧ ¬ reportIllegal r2In := by decide

theorem witness_ReportDecodeLayout : (s5.take 27).length ≠ 28 ∧ (s5 ++ [0x00#8]).length ≠ 28 ∧
    (0x14#8 :: s5.drop 1).head? ≠ some 0x0A#8 ∧ s5.head? ≠ some State.reset.params.idTraffic := by decide

theorem witness_GeoaltEncodeQuantizesAndPacks :
    (BitVec.ofInt 32 (-163841)).toInt < -163840 ∧ -163840 ≤ (BitVec.ofInt 32 (-163840)).toInt ∧
      (BitVec.ofInt 32 163835).toInt ≤ 163835 ∧ 163835 < (BitVec.ofInt 32 163836).toInt := by decide

theorem witness_GeoaltDecodeLayout : (hx [0x0B, 1, 2, 3]).length ≠ 5 ∧ (hx [0x0B, 1, 2, 3, 4, 5]).length ≠ 5 := by decide

theorem witness_UplinkEncodeChecksAndDecodesBack :
    (List.replicate 7 0x11#8).length ≠ 8 ∧ (List.replicate 423 0x11#8).length ≠ 424 ∧ 2 ^ 24 ≤ (0x1000000#32).toNat ∧
      (List.replicate 8 0x11#8).length = 8 ∧ (List.replicate 424 0x11#8).length = 424 ∧ (0xFFFFFF#32).toNat < 2 ^ 24 := by
  decide +kernel

theorem witness_UplinkDecodeLayout :
    (List.replicate 8 0x11#8).length = 8 ∧ (List.replicate 424 0x11#8).length = 424 ∧
      (List.replicate 435 0x07#8).length ≠ 436 ∧ (List.replicate 437 0x07#8).length ≠ 436 ∧
      paramsLawful standardParams = true := by decide +kernel

theorem witness_GpsTimeEncodeOutcomes :
    23 < (24#8).toNat ∧ 59 < (60#8).toNat ∧ (23#8).toNat ≤ 23 ∧ (59#8).toNat ≤ 59 ∧ State.reset.params.gpsLayout = none ∧
      (withParams gpsParams).params.gpsLayout = some testLayout ∧ gpsLayoutLawful testLayout = true := by decide

/-- Every length's clause, and a 12-byte and a 21-byte payload with the time at either side of its range. -/
theorem witness_GpsTimeDecodeOutcomes :
    (0x65#8 :: List.replicate 28 0#8).length = 29 ∧
      (∀ n ∈ [0, 11, 13, 20, 22, 28, 30], n ≠ 12 ∧ n ≠ 21 ∧ n ≠ 29) ∧
      State.reset.params.gpsLayout = none ∧ (withParams gpsParams).params.gpsLayout = some testLayout ∧
      gpsLayoutLawful testLayout = true ∧
      (hx [0x65, 0, 0, 0, 0, 0, 24, 59, 0, 0, 0, 0]).length = 12 ∧
      (hx [0x65, 0, 0, 0, 0, 0, 24, 59, 0, 0, 0, 0])[testLayout.short.hour]? = some 24#8 ∧
      (hx [0x65, 0, 0, 0, 0, 0, 23, 59, 0, 0, 0, 0])[testLayout.short.minute]? = some 59#8 ∧
      (hx [0x65, 23, 0, 0, 0, 0, 0, 0, 0, 0, 0, 0, 0, 0, 0, 0, 0, 0, 0, 0, 60]).length = 21 ∧
      (hx [0x65, 23, 0, 0, 0, 0, 0, 0, 0, 0, 0, 0, 0, 0, 0, 0, 0, 0, 0, 0, 60])[testLayout.long.minute]? = some 60#8 := by
  decide

theorem witness_DecPayloadFollowsTheIdMap :
    let P := { standardParams with vendorIds := [0xCC#8] }
    paramsLawful (withParams P).params = true ∧ 0xCC#8 ∈ (withParams P).params.vendorIds ∧
      0x42#8 ∉ (withParams P).params.vendorIds ∧ 0x42#8 ∉ [0x00#8, 0x0A#8, P.idTraffic, P.idGeoalt, P.idUplink, 0x65#8] := by
  decide

/-- The state in the middle of a run, whose counters the premises allow. -/
theorem witness_AddBytesSettlesAndCountsOrIsRefused : midRun.params.ctrW ≤ 64 ∧ statsCanonical midRun.stats := by decide

/-- The frames of a stream that starts inside one: the pair of flags met while hunting, a short body, an unfinished frame. -/
theorem test_frameBodies : State.reset.bodiesOf (hx [0x11, 0x7E, 0x7E, 0x01, 0x02, 0x7E, 0x7E, 0x7E, 0x33, 0x7E, 0x44]) =
    [hx [0x01, 0x02], []] := by decide

theorem witness_AddBytesCompletes : gpsParams.bufCap = none ∧ gpsParams.outqCap = none ∧ gpsParams.vendorIds = [] ∧
    gpsParams.gpsLayout ≠ none := by decide

theorem witness_DrainLoopTerminates : midRun.drainFuel ≤ midRun.drainFuel ∧ midRun.drainFuel ≤ 100 := by decide

/-- A payload of exactly 3 bytes into capacities it exactly fills, and one that decodes to `Absent`. -/
theorem witness_PreparedFrameIsDecodedAndCounted :
    let P := { standardParams with bufCap := some 7, outqCap := some 1 }
    (withParams P).buf = [] ∧ 3 ≤ (hx [0x42, 1, 2]).length ∧ withinCap P.bufCap (prepareFrame (hx [0x42, 1, 2])).length ∧
      withinCap P.outqCap ((withParams P).outq.length + 1) ∧
      decPayload P (hx [0x42, 1, 2]) = .ok (.unknown 0x42 (hx [0x42, 1, 2])) ∧
      decPayload standardParams (0x65#8 :: List.replicate 28 0#8) = .ok .absent := by
  refine ⟨rfl, by decide, ?_, ?_, by decide, by decide⟩
  · intro c hc
    cases hc
    decide +kernel
  · intro c hc
    cases hc
    decide

/-- The empty body, four bytes, and five bytes with wrong check bytes. -/
theorem witness_RejectedFramesAreOnlyCounted :
    let s : State := { State.reset with sync := true }
    s.buf = [] ∧ s.sync = true ∧ 0x7E#8 ∉ ([] : Bytes) ∧ 0x7E#8 ∉ hx [0, 1, 2, 3, 4] ∧ s.params.bufCap = none ∧
      (unescape s.params.loneEsc []).length < 5 ∧ (unescape s.params.loneEsc (hx [1, 2, 3, 4])).length < 5 ∧
      5 ≤ (unescape s.params.loneEsc (hx [0, 1, 2, 3, 4])).length ∧
      crcBytes (hx [0, 1, 2]) ≠ hx [3, 4] := by decide +kernel

theorem witness_ResyncDiscardsToTheFlag : State.reset.buf = [] ∧ State.reset.sync = false ∧
    State.reset.params.bufCap = none ∧ 0x7E#8 ∉ ([] : Bytes) ∧ 0x7E#8 ∉ hx [0x88, 0x99] ∧ 0x7E#8 ∉ hx [0x11, 0x22] := by
  decide

/-- A flag found and none found; EXTRACT with a frame whose check fails, with no closing flag, and with no flag first. -/
theorem witness_SyncFlagWriters :
    State.reset.sync = false ∧ 0x7E#8 ∈ hx [0x11, 0x7E] ∧ 0x7E#8 ∉ hx [0x11] ∧
      (∀ b ∈ [hx [0x7E, 0, 1, 2, 3, 4, 0x7E], hx [0x7E, 0x11], hx [0x11]],
        (State.extract { State.reset with sync := true, buf := b }).toOption.isSome = true) ∧
      (after .reset midRun).isSome = true ∧ (after .readOut midRun).isSome = true := by decide +kernel

/-- A frame split in its middle: the state after its first five bytes, and after the rest. And a split the exception does not
cover although BUF is `[7E]` and the second part begins with a flag: the flag met a synchronized CORE, so no RESYNC ran. -/
theorem witness_SplitPointsDoNotMatter :
    let s₁ : State := { State.reset with buf := hx [0x7E, 0x00, 0x81, 0x41, 0xDB], sync := true, resyncCount := 1,
                                         results := [hx [0, 0, 0, 0, 0]] }
    let s : State := { State.reset with sync := true }
    State.reset.params.bufCap = none ∧ State.reset.refused = none ∧
      after (.addBytes (hbFrame.take 5)) State.reset = some s₁ ∧ s₁.refused = none ∧
      ¬(State.reset.EndsAtLoneFlag (hbFrame.take 5) ∧ (hbFrame.drop 5).head? = some 0x7E#8) ∧
      (after (.addBytes (hbFrame.drop 5)) s₁).map State.refused = some none ∧
      (after (.addBytes (hx [0x7E])) s).map State.buf = some (hx [0x7E]) ∧
      ¬(s.EndsAtLoneFlag (hx [0x7E]) ∧ (hx [0x7E]).head? = some 0x7E#8) := by
  refine ⟨by decide, by decide, by decide, by decide, fun h => absurd h.2 (by decide), by decide +kernel, by decide, ?_⟩
  rintro ⟨⟨passes, u, garbage, h, hsync, -, -⟩, -⟩
  cases passes <;> (cases h; cases hsync)

theorem witness_LoneFlagStateLosesOneFrameCommands :
    let s : State := { withParams { standardParams with bufCap := some 4 } with buf := hx [0x7E], sync := true }
    s.buf = [0x7E#8] ∧ s.sync = true ∧ hx [0x11] ≠ [] ∧ 0x7E#8 ∉ hx [0x11] ∧
      withinCap s.params.bufCap ((hx [0x11]).length + 3) := by
  refine ⟨by decide, rfl, by decide, by decide, ?_⟩
  intro c hc
  cases hc
  decide

/-- The bodies of frames that pass their check: an unknown ID, and a GPS time of 12 bytes. -/
def goodBody (payload : Bytes) : Bytes := (prepareFrame payload).tail.dropLast

/-- BUF one byte past its capacity and exactly at it; OUTQ at its capacity; a vendor ID; a GPS time without a layout. -/
theorem witness_AddBytesRefusals :
    let s : State := { withParams { standardParams with bufCap := some 3 } with buf := hx [0x7E] }
    let u := hx [0x42, 1, 2]
    let g := 0x65#8 :: List.replicate 11 0#8
    let P : Params := { standardParams with outqCap := some 1, vendorIds := [0x42#8] }
    s.params.bufCap = some 3 ∧ 3 < s.buf.length + (hx [1, 2, 3]).length ∧ s.buf.length + (hx [1, 2]).length ≤ 3 ∧
      (withParams P).buf = [] ∧ 0x7E#8 ∉ goodBody u ∧ 0x7E#8 ∉ goodBody g ∧
      passesCheck standardParams (goodBody u) ∧ passesCheck standardParams (goodBody g) ∧
      payloadOf standardParams (goodBody u) = u ∧ payloadOf standardParams (goodBody g) = g ∧
      1 ≤ (hx [7]).length ∧ decPayload standardParams u = .ok (.unknown 0x42 u) ∧ u.headD 0#8 ∈ P.vendorIds ∧
      paramsLawful standardParams = true ∧ g.length = 12 ∧ standardParams.gpsLayout = none := by
  decide +kernel

theorem witness_ReadOutIsFirstInFirstOut : State.reset.outq = [] ∧ midRun.outq = .absent :: [] := by decide

theorem witness_StatsReadReturnsTheSurface : statsCanonical [] ∧ statsCanonical [⟨0x00, 0, 1⟩, ⟨0x0B, 1, 0⟩] := by decide

/-- The ends of the ranges of the alphabet's rows. -/
theorem witness_ResetAndCreationValues : 1 ≤ 1 ∧ 1 ≤ 26 ∧ 26 ≤ 26 ∧ 32 ≤ 32 ∧ 32 ≤ 63 ∧ 63 ≤ 63 := by decide

theorem witness_CountersWrapAndEntriesAreLazy : 64 ≤ 64 ∧ 0 ≤ 64 ∧ statsCanonical [⟨0x00, 0, 1⟩, ⟨0x0B, 1, 0⟩] ∧
    (0x0B#8 : Byte) ≠ 0x05#8 := by decide

theorem witness_OnlyTheirWritersChangeTheElements :
    (after .readOut midRun).isSome = true ∧ (after (.crcCompute hb) midRun).isSome = true ∧
      (∀ d, Instr.readOut ≠ .addBytes d) ∧ Instr.readOut ≠ .reset ∧ isPure .readOut = false ∧ isPure .reset = false :=
  ⟨by decide, by decide, fun _ h => Instr.noConfusion h, by decide, rfl, rfl⟩

theorem witness_StepAnswersOnePacketOrIsRefused : midRun.input = .packet (hx [0x40, 0, 0, 0, 1, 0x7E]) :: [] := by decide

theorem witness_PureCommandsReadAndWriteNoState : isPure (.crcCompute hb) = true ∧ isPure (.crcCheck hb []) = true ∧
    isPure (.decPayload (hx [0x65])) = true := by decide

theorem witness_ErrorStatusWritesNoState :
    exec .readOut State.reset = .next (State.reset.statusOnly 0x0A#8) ∧
      (State.reset.statusOnly 0x0A#8).results = State.reset.results ++ [hx [0x0A]] ∧ (hx [0x0A]).head? ≠ some 0x00#8 :=
  ⟨rfl, by decide, by decide⟩

theorem witness_RefusalWritesOnlyTheStickyMark :
    let t : State := { midRun with refused := some .gpsLayoutOpen }
    after (.encGpstime 1 1 0 0) midRun = some t ∧ t.refused ≠ midRun.refused ∧ t.refused ≠ none ∧
      (match step t with
        | .next _ => true
        | _ => false) = true := by decide

/-- The state in the middle of a run meets the invariant, and its next step is an ADD_BYTES that ends a frame. -/
theorem witness_EveryStepKeepsTheInvariant : midRun.Inv ∧
    (match step midRun with
      | .next t => some (t.buf, t.totalFrames)
      | _ => none) = some ([], 3#64) := by
  refine ⟨⟨by decide, by decide, by decide +kernel, by decide +kernel, ?_, ?_⟩, by decide +kernel⟩
  · intro c hc
    cases hc
  · intro c hc
    cases hc

theorem witness_IframeScan : ¬((0x00#8 : Byte) = 0x00#8 ∧ (0x80#8 : Byte) = 0x00#8) ∧
    ([] : Bytes).length < (0x00#8 : Byte).toNat * 2 + (0x80#8 : Byte).toNat / 128 ∧
    (0x00#8 : Byte).toNat * 2 + (0x80#8 : Byte).toNat / 128 ≤ (hx [0xAA]).length := by decide

theorem witness_ApduFields : (hx [1, 2, 3]).length < 4 := by decide

/-- Bytes whose four symbols are all non-zero, and bytes whose first zero symbol is the first, second, third and fourth. -/
theorem witness_DlacReadsSymbolsToTheEnd :
    let symbols (b0 b1 b2 : Byte) : List Nat :=
      [b0.toNat / 4, b0.toNat % 4 * 16 + b1.toNat / 16, b1.toNat % 16 * 4 + b2.toNat / 64, b2.toNat % 64]
    symbols 0x04 0x20 0xC4 = [1, 2, 3, 4] ∧ symbols 0x03 0xFF 0xFF = [0, 63, 63, 63] ∧ symbols 0x04 0x0F 0xFF = [1, 0, 63, 63] ∧
      symbols 0x04 0x20 0x3F = [1, 2, 0, 63] ∧ symbols 0x04 0x20 0xC0 = [1, 2, 3, 0] := by decide

theorem witness_DlacEncodingDecodesBack : State.reset.params.dlacAlphabet = dlacAlphabetDefault ∧
    ∀ b ∈ hx [0x41, 0x5A, 0x1A, 0x7C, 0x20, 0x3F], b ∈ dlacAlphabetDefault ∧ b ≠ 0x03#8 := by decide

end Sys2Proof.Tests
end

section
/-! PROOFS. SYNC and its writers (10_state.md R24, R33; 44_stream.md R233 to R236): the inversion lemmas of FRAME_DECODE, EXTRACT
and `exec` that the statement needs, then O41. -/

namespace Sys2Proof.Machine

/-! ## What an operation can write -/

section
variable {s t : State}

/-- FRAME_DECODE, when it is not refused, writes STATS and OUTQ alone (R236). -/
theorem frameDecode_eq_ok {body : Bytes} (h : s.frameDecode body = .ok t) :
    ∃ st q, t = { s with stats := st, outq := q } := by
  rcases frameDecode_cases s body with ⟨-, hs⟩ | ⟨-, -, hbad⟩ | ⟨-, -, ⟨r, -, hr⟩ | ⟨-, habs⟩ | ⟨r, -, -, hq⟩⟩
  · exact ⟨_, _, Except.ok.inj (h.symm.trans hs)⟩
  · exact ⟨_, _, Except.ok.inj (h.symm.trans hbad)⟩
  · cases h.symm.trans hr
  · exact ⟨_, _, Except.ok.inj (h.symm.trans habs)⟩
  · rcases enqueue_cases _ r with ⟨hfull, -⟩ | ⟨hadd, -⟩
    · cases h.symm.trans (hq.trans hfull)
    · exact ⟨_, _, Except.ok.inj (h.symm.trans (hq.trans hadd))⟩

/-- EXTRACT clears SYNC where BUF does not start with a flag byte (R235). -/
theorem extract_sync_of_no_flag {goOn : Bool} (hhead : s.buf.head? ≠ some flagByte) (h : s.extract = .ok (t, goOn)) :
    t.sync = false := by
  rcases extract_cases s with ⟨-, hclear⟩ | ⟨hflag, -⟩ | ⟨_, hflag, -⟩
  · cases h.symm.trans hclear
    rfl
  · exact absurd hflag hhead
  · exact absurd hflag hhead

/-- EXTRACT leaves SYNC where BUF starts with a flag byte, whatever becomes of the frame (R235). -/
theorem extract_sync_of_flag {goOn : Bool} (hhead : s.buf.head? = some flagByte) (h : s.extract = .ok (t, goOn)) :
    t.sync = s.sync := by
  rcases extract_cases s with ⟨hno, -⟩ | ⟨-, -, hwait⟩ | ⟨i, -, -, hframe⟩
  · exact absurd hhead hno
  · cases h.symm.trans hwait
    rfl
  · rw [hframe] at h
    cases hu : State.frameDecode { s with buf := s.buf.drop (i + 1)
                                          totalFrames := bump s.params.ctrW s.totalFrames } (slice s.buf 1 i) with
    | error r =>
      rw [hu] at h
      cases h
    | ok u =>
      rw [hu] at h
      cases h
      obtain ⟨st, q, rfl⟩ := frameDecode_eq_ok hu
      rfl

/-- RESYNC sets SYNC where BUF holds a flag byte (R233). -/
theorem resync_sync_of_mem (hmem : flagByte ∈ s.buf) : s.resync.1.sync = true := by
  rcases resync_cases s with ⟨hno, -⟩ | ⟨k, -, hfound⟩
  · exact absurd hmem hno
  · rw [hfound]

/-- RESYNC leaves SYNC where it exhausts BUF (R233). -/
theorem resync_sync_of_not_mem (hno : flagByte ∉ s.buf) : s.resync.1.sync = s.sync := by
  rcases resync_cases s with ⟨-, hnone⟩ | ⟨k, hhead, -⟩
  · rw [hnone]
  · exact absurd (List.mem_of_mem_drop (List.mem_of_head? hhead)) hno

/-- Every instruction but ADD_BYTES and RESET does no more than end, READ_OUT with another OUTQ (R18, R240 to R243). -/
theorem exec_eq_finish {i : Instr} (s : State) (hadd : ∀ d, i ≠ .addBytes d) (hreset : i ≠ .reset) :
    ∃ q e, exec i s = .next (State.finish { s with outq := q } e) ∧ (i ≠ .readOut → q = s.outq) := by
  cases i with
  | addBytes d => exact absurd rfl (hadd d)
  | reset => exact absurd rfl hreset
  | readOut =>
    cases hq : s.outq with
    | nil =>
      have hempty : execReadOut s = .next (s.raise .empty) := by simp only [execReadOut, hq]
      exact ⟨s.outq, .raised .empty, hempty, fun _ => hq⟩
    | cons r rest =>
      have hfirst : execReadOut s = .next (State.returnValue { s with outq := rest } (.decoded r)) := by
        simp only [execReadOut, hq]
      exact ⟨rest, .value (.decoded r), hfirst, fun h => absurd rfl h⟩
  | readStats | readStatus | readBuffer => exact ⟨s.outq, .value _, rfl, fun _ => rfl⟩
  | reservedCommand _ => exact ⟨s.outq, .raised _, rfl, fun _ => rfl⟩
  | _ => exact ⟨s.outq, _, rfl, fun _ => rfl⟩

/-- Every instruction but ADD_BYTES and RESET leaves SYNC (R24). -/
theorem exec_sync {i : Instr} (hadd : ∀ d, i ≠ .addBytes d) (hreset : i ≠ .reset) (h : exec i s = .next t) :
    t.sync = s.sync := by
  obtain ⟨q, e, hexec, -⟩ := exec_eq_finish s hadd hreset
  cases h.symm.trans hexec
  exact finish_sync _ e

end

/-! ## READ_STATUS -/

/-- The STATUS word as R33 packs it: three zero bytes, then SYNC in bit 0. -/
theorem toBE_statusWord (sync : Bool) :
    toBE 4 (statusWord sync).toNat = [0x00#8, 0x00#8, 0x00#8, if sync then 0x01#8 else 0x00#8] := by
  cases sync <;> decide

/-- READ_STATUS answers the STATUS word and the two lengths, and changes nothing else (R33, R241). -/
theorem exec_readStatus (s : State) :
    exec .readStatus s = .next (s.okWith (toBE 4 (statusWord s.sync).toNat ++
      (toBE 4 (min s.buf.length (2 ^ 32 - 1)) ++ toBE 4 (min s.outq.length (2 ^ 32 - 1))))) := by
  simp [exec, execReadStatus, State.returnValue, State.answer, Value.encode, Status.code]

/-! ## The statement -/

/-- Settles O41, by what RESYNC, EXTRACT and an instruction's ending can write. -/
theorem syncFlagWriters : Obligations.SyncFlagWriters := by
  refine ⟨rfl, fun s hs => ⟨resync_sync_of_mem, fun hno => (resync_sync_of_not_mem hno).trans hs⟩, ?_, ?_, ?_,
    fun i s t => exec_sync⟩
  · intro s t goOn hs h
    by_cases hhead : s.buf.head? = some flagByte
    · exact iff_of_true ((extract_sync_of_flag hhead h).trans hs) hhead
    · exact iff_of_false (by simp [extract_sync_of_no_flag hhead h]) hhead
  · intro s t h
    cases h
    rfl
  · exact fun s => ⟨_, exec_readStatus s, by rw [toBE_statusWord]; rfl⟩

end Sys2Proof.Machine
end

section
/-! PROOFS. The CRC engine (40_crc.md R100 to R105): the values of the register that the rules name, one equation for how each
of its two commands ends, then O7 and O8. -/

namespace Sys2Proof.Machine

/-! ## The register and the check bytes -/

@[simp] theorem crcBytes_nil : crcBytes [] = [0x00#8, 0x00#8] := rfl

@[simp] theorem crcTable_zero : crcTable 0x00#8 = 0x0000#16 := by decide

/-- From the register 0x0000 the table adds nothing: the byte alone enters (R102). -/
theorem crcUpdate_zero (b : Byte) : crcUpdate 0x0000#16 b = b.setWidth 16 := by
  simp [crcUpdate]

theorem crcValue_singleton (b : Byte) : crcValue [b] = b.setWidth 16 := crcUpdate_zero b

/-- The corner case of R104: a byte is its own first check byte. -/
theorem crcBytes_singleton (b : Byte) : crcBytes [b] = [b, 0x00#8] := by
  have hlow : (b.setWidth 16).extractLsb' 0 8 = b := by
    ext i hi
    simp [hi, show i < 16 by omega]
  have hhigh : (b.setWidth 16).extractLsb' 8 8 = 0x00#8 := by
    ext i hi
    simp
  rw [crcBytes, crcValue_singleton, hlow, hhigh]

/-- The example of R104 and R105. -/
theorem crcBytes_example :
    crcBytes [0x00#8, 0x81#8, 0x41#8, 0xDB#8, 0xD0#8, 0x08#8, 0x02#8] = [0xB3#8, 0x8B#8] := by decide +kernel

/-! ## How the two commands end -/

section
variable (data : Bytes) (s : State)

/-- The length field of the check bytes is 2 (R66, R103). -/
theorem putBytesResult_crcBytes :
    putBytesResult (crcBytes data) = [0x00#8, 0x00#8, 0x00#8, 0x02#8] ++ crcBytes data := by
  have hlength : putU32 (crcBytes data).length = [0x00#8, 0x00#8, 0x00#8, 0x02#8] :=
    calc
      putU32 2 = toBE 4 2 := if_pos (by decide)
      _ = [0x00#8, 0x00#8, 0x00#8, 0x02#8] := by decide
  rw [putBytesResult, hlength]

/-- CRC_COMPUTE answers the check bytes as a `Bytes` result (R66, R104). -/
theorem exec_crcCompute :
    exec (.crcCompute data) s = .next (s.okWith ([0x00#8, 0x00#8, 0x00#8, 0x02#8] ++ crcBytes data)) := by
  rw [← putBytesResult_crcBytes]
  rfl

/-- CRC_CHECK computes no CRC where `crc` has not 2 bytes (R105). -/
theorem crcCheck_of_length_ne {crc : Bytes} (h : crc.length ≠ 2) : crcCheck data crc = .error .crcLengthError := if_pos h

theorem crcCheck_of_length_eq {crc : Bytes} (h : crc.length = 2) : crcCheck data crc = .ok (crcBytes data == crc) :=
  if_neg (not_not_intro h)

theorem exec_crcCheck_of_length_ne {crc : Bytes} (h : crc.length ≠ 2) :
    exec (.crcCheck data crc) s = .next (s.statusOnly 0x07#8) := by
  simp only [exec, execCrcCheck, crcCheck_of_length_ne data h]
  rfl

/-- CRC_CHECK of two check bytes answers whether they are the computed ones, in order (R66, R105). -/
theorem exec_crcCheck_of_length_eq {crc : Bytes} (h : crc.length = 2) :
    exec (.crcCheck data crc) s = .next (s.okWith [if crcBytes data = crc then 0x01#8 else 0x00#8]) := by
  simp only [exec, execCrcCheck, crcCheck_of_length_eq data h]
  by_cases heq : crcBytes data = crc
  · rw [if_pos heq, beq_iff_eq.mpr heq]
    rfl
  · rw [if_neg heq, beq_eq_false_iff_ne.mpr heq]
    rfl

/-- The computed check bytes pass. -/
theorem exec_crcCheck_of_eq {crc : Bytes} (h : crcBytes data = crc) :
    exec (.crcCheck data crc) s = .next (s.okWith [0x01#8]) := by
  subst h
  rw [exec_crcCheck_of_length_eq data s rfl, if_pos rfl]

end

/-! ## Their packets -/

/-- The packet of CRC_COMPUTE (R65, R70) is what the encoder writes; a command's packet reads no parameter. -/
theorem decodePacket_crcCompute {data : Bytes} (h : data.length < 2 ^ 32) :
    decodePacket (0x01#8 :: (toBE 4 data.length ++ data)) = .ok (.crcCompute data) :=
  Laws.RoundTrip.crcCompute data standardParams (decide_eq_true h)

/-- The packet of CRC_CHECK (R65, R70), in the same way. -/
theorem decodePacket_crcCheck {data crc : Bytes} (hdata : data.length < 2 ^ 32) (hcrc : crc.length < 2 ^ 32) :
    decodePacket (0x02#8 :: (toBE 4 data.length ++ data ++ (toBE 4 crc.length ++ crc))) = .ok (.crcCheck data crc) :=
  Laws.RoundTrip.crcCheck data crc standardParams (Bool.and_eq_true_iff.mpr ⟨decide_eq_true hdata, decide_eq_true hcrc⟩)

/-! ## The statements -/

/-- Settles O7, by how CRC_COMPUTE ends, the round trip of its packet and the register's named values. -/
theorem crcComputeReturnsCheckBytes : Obligations.CrcComputeReturnsCheckBytes :=
  ⟨exec_crcCompute, fun _ => decodePacket_crcCompute, crcBytes_nil, crcBytes_singleton, crcBytes_example⟩

/-- Settles O8, by the split on the length of `crc`. -/
theorem crcCheckComparesBothBytes : Obligations.CrcCheckComparesBothBytes := by
  refine ⟨fun data _ s => exec_crcCheck_of_length_ne data s, fun data c0 c1 s => exec_crcCheck_of_length_eq data s rfl,
    fun _ _ => decodePacket_crcCheck, fun s => exec_crcCheck_of_eq [] s crcBytes_nil,
    fun s => exec_crcCheck_of_eq _ s crcBytes_example, fun s => ?swapped⟩
  case swapped =>
    have hne : ([0xB3#8, 0x8B#8] : Bytes) ≠ [0x8B#8, 0xB3#8] := by decide
    rw [exec_crcCheck_of_length_eq _ s rfl, crcBytes_example, if_neg hne]

end Sys2Proof.Machine
end

section
/-! PROOFS. The frame codec (41_frame.md R120, R122): what byte stuffing does to each byte and to the whole string, how ESCAPE and
PREPARE_FRAME end, then O11 and O13. -/

namespace Sys2Proof.Machine

/-! ## Byte stuffing -/

theorem escapeByte_of_reserved {b : Byte} (h : b = escByte ∨ b = flagByte) : escapeByte b = [escByte, b ^^^ 0x20#8] := if_pos h

theorem escapeByte_of_not_reserved {b : Byte} (h : ¬(b = escByte ∨ b = flagByte)) : escapeByte b = [b] := if_neg h

/-- The second byte of a stuffed pair is 0x5D or 0x5E, so stuffing leaves no flag. -/
theorem flagByte_not_mem_escapeByte (b : Byte) : flagByte ∉ escapeByte b := by
  by_cases h : b = escByte ∨ b = flagByte
  · rcases h with rfl | rfl <;> decide
  · rw [escapeByte_of_not_reserved h, List.mem_singleton]
    exact fun hflag => h (.inr hflag.symm)

@[simp] theorem escape_nil : escape [] = [] := rfl

@[simp] theorem escape_cons (b : Byte) (data : Bytes) : escape (b :: data) = escapeByte b ++ escape data := List.flatMap_cons

/-- A string without reserved bytes passes unchanged (R120). -/
theorem escape_eq_self {data : Bytes} (h : ∀ b ∈ data, ¬(b = escByte ∨ b = flagByte)) : escape data = data := by
  induction data with
  | nil => rfl
  | cons b data ih =>
    obtain ⟨hb, hdata⟩ := List.forall_mem_cons.mp h
    rw [escape_cons, escapeByte_of_not_reserved hb, ih hdata, List.singleton_append]

/-- The length law of R120: one byte more for each reserved byte. -/
theorem length_escape (data : Bytes) :
    (escape data).length = data.length + data.countP fun b => b = escByte ∨ b = flagByte := by
  induction data with
  | nil => rfl
  | cons b data ih =>
    rw [escape_cons, List.length_append, ih, List.length_cons, List.countP_cons]
    by_cases h : b = escByte ∨ b = flagByte
    · rw [escapeByte_of_reserved h, if_pos (decide_eq_true h), List.length_cons, List.length_singleton]
      omega
    · rw [escapeByte_of_not_reserved h, if_neg (mt of_decide_eq_true h), List.length_singleton]
      omega

/-- The worst case of the length law: every byte is a flag (R120). -/
theorem length_escape_replicate_flagByte (n : Nat) : (escape (List.replicate n flagByte)).length = 2 * n := by
  rw [length_escape, List.length_replicate, List.countP_replicate, if_pos (by decide)]
  omega

/-- No flag stands in an escaped string, so a frame ends at its closing flag and nowhere before (R122). -/
theorem flagByte_not_mem_escape (data : Bytes) : flagByte ∉ escape data := by
  intro h
  obtain ⟨b, -, hb⟩ := List.mem_flatMap.mp h
  exact flagByte_not_mem_escapeByte b hb

/-! ## How the two commands end -/

/-- The length field of a result that a u32 counts (R66). -/
theorem putBytesResult_of_lt {b : Bytes} (h : b.length < 2 ^ 32) : putBytesResult b = toBE 4 b.length ++ b :=
  congrArg (· ++ b) (if_pos h)

theorem exec_escape (data : Bytes) (s : State) :
    exec (.escape data) s = .next (s.okWith (putBytesResult (escape data))) := rfl

theorem exec_prepareFrame (payload : Bytes) (s : State) :
    exec (.prepareFrame payload) s = .next (s.okWith (putBytesResult (prepareFrame payload))) := rfl

/-- PREPARE_FRAME of a payload whose frame is known, its length field written out. -/
theorem exec_prepareFrame_of_eq {payload frame : Bytes} (s : State) (h : prepareFrame payload = frame)
    (hlength : frame.length < 2 ^ 32) : exec (.prepareFrame payload) s = .next (s.okWith (toBE 4 frame.length ++ frame)) := by
  rw [exec_prepareFrame, h, putBytesResult_of_lt hlength]

theorem prepareFrame_nil : prepareFrame [] = [0x7E#8, 0x00#8, 0x00#8, 0x7E#8] := by decide

/-- The example of R122: the one reserved byte of the payload is stuffed, the check bytes 0C 1B pass. -/
theorem prepareFrame_example : prepareFrame [0x00#8, 0x81#8, 0x01#8, 0x90#8, 0x7E#8, 0x00#8, 0x02#8] =
    [0x7E#8, 0x00#8, 0x81#8, 0x01#8, 0x90#8, 0x7D#8, 0x5E#8, 0x00#8, 0x02#8, 0x0C#8, 0x1B#8, 0x7E#8] := by decide +kernel

/-! ## Their packets -/

/-- The packet of ESCAPE (R65, R70) is what the encoder writes; a command's packet reads no parameter. -/
theorem decodePacket_escape {data : Bytes} (h : data.length < 2 ^ 32) :
    decodePacket (0x10#8 :: (toBE 4 data.length ++ data)) = .ok (.escape data) :=
  Laws.RoundTrip.escape data standardParams (decide_eq_true h)

/-- The packet of PREPARE_FRAME (R65, R70), in the same way. -/
theorem decodePacket_prepareFrame {payload : Bytes} (h : payload.length < 2 ^ 32) :
    decodePacket (0x12#8 :: (toBE 4 payload.length ++ payload)) = .ok (.prepareFrame payload) :=
  Laws.RoundTrip.prepareFrame payload standardParams (decide_eq_true h)

/-! ## The statements -/

/-- Settles O11, by how ESCAPE ends, the round trip of its packet and what stuffing does to the length. -/
theorem escapeStuffsReservedBytes : Obligations.EscapeStuffsReservedBytes :=
  ⟨exec_escape, fun _ => decodePacket_escape, length_escape, length_escape_replicate_flagByte, escape_nil,
    escape_eq_self (by decide), by decide, by decide⟩

/-- Settles O13, by how PREPARE_FRAME ends, the round trip of its packet and the absence of flags in an escaped string. -/
theorem prepareFrameDelimitsStuffedPayload : Obligations.PrepareFrameDelimitsStuffedPayload :=
  ⟨exec_prepareFrame, fun _ => decodePacket_prepareFrame, fun payload => flagByte_not_mem_escape (payload ++ crcBytes payload),
    fun s => exec_prepareFrame_of_eq s prepareFrame_nil (by decide),
    fun s => exec_prepareFrame_of_eq s prepareFrame_example (by decide)⟩

end Sys2Proof.Machine
end

section
/-! PROOFS. The decoder (30_encoding.md R65 to R72; 60_exceptions.md R301): every well-formed instruction round trips, an
operand parser that answers answers the same whatever follows, then O1, O2, O3, O4 and O5. -/

namespace Sys2Proof

open Machine

/-! ## Operand parsers read no byte past their operand -/

/-- A parser that answers keeps its answer when more bytes follow, and leaves them to the next parser. -/
def ReadsLocally {α : Type} (f : Bytes → Option (α × Bytes)) : Prop :=
  ∀ ⦃bs : Bytes⦄ ⦃v : α⦄ ⦃r : Bytes⦄ (extra : Bytes), f bs = some (v, r) → f (bs ++ extra) = some (v, r ++ extra)

theorem readsLocally_some {α : Type} (v : α) : ReadsLocally fun bs => some (v, bs) := by
  intro bs w r extra h
  cases h
  rfl

/-- A chain of two parsers, the second chosen by what the first answered. -/
theorem ReadsLocally.bind {α β : Type} {f : Bytes → Option (α × Bytes)} {g : α → Bytes → Option (β × Bytes)}
    (hf : ReadsLocally f) (hg : ∀ a, ReadsLocally (g a)) : ReadsLocally fun bs => f bs >>= fun (a, r) => g a r := by
  intro bs v r extra h
  obtain ⟨⟨a, t⟩, ha, hga⟩ := Option.bind_eq_some_iff.mp h
  exact Option.bind_eq_some_iff.mpr ⟨(a, t ++ extra), hf extra ha, hg a extra hga⟩

theorem ReadsLocally.map {α β : Type} {f : Bytes → Option (α × Bytes)} (hf : ReadsLocally f) (g : α → β) :
    ReadsLocally fun bs => (f bs).map fun (a, r) => (g a, r) := by
  intro bs v r extra h
  obtain ⟨⟨a, t⟩, ha, hga⟩ := Option.map_eq_some_iff.mp h
  cases hga
  exact Option.map_eq_some_iff.mpr ⟨(a, r ++ extra), hf extra ha, rfl⟩

/-- Enough bytes: the first `k` are the number. -/
theorem takeNat_append {k : Nat} {a : Bytes} (h : k ≤ a.length) (r : Bytes) :
    takeNat k (a ++ r) = some (beNat (a.take k), a.drop k ++ r) := by
  rw [takeNat, if_neg (by rw [List.length_append]; omega), List.take_append_of_le_length h,
    List.drop_append_of_le_length h]

theorem takeBV_append {k : Nat} {a : Bytes} (h : k ≤ a.length) (r : Bytes) :
    takeBV k (a ++ r) = some (BitVec.ofNat (8 * k) (beNat (a.take k)), a.drop k ++ r) := by
  rw [takeBV, takeNat_append h]
  rfl

theorem takeBV_append_of_length_eq {k : Nat} {a : Bytes} (h : a.length = k) (r : Bytes) :
    takeBV k (a ++ r) = some (BitVec.ofNat (8 * k) (beNat a), r) := by
  subst h
  rw [takeBV_append le_rfl, List.take_length, List.drop_length, List.nil_append]

theorem readsLocally_takeNat (k : Nat) : ReadsLocally (takeNat k) := by
  intro bs v r extra h
  by_cases hlt : bs.length < k
  · rw [takeNat, if_pos hlt] at h
    cases h
  · rw [takeNat, if_neg hlt] at h
    cases h
    exact takeNat_append (Nat.not_lt.mp hlt) extra

theorem readsLocally_takeBV (k : Nat) : ReadsLocally (takeBV k) :=
  (readsLocally_takeNat k).map fun v => BitVec.ofNat (8 * k) v

/-- The bytes of a `Bytes` operand, once its length `n` is read. -/
theorem readsLocally_take (n : Nat) :
    ReadsLocally fun r : Bytes => if r.length < n then none else some (r.take n, r.drop n) := by
  intro bs v r extra h
  dsimp only at h ⊢
  by_cases hlt : bs.length < n
  · rw [if_pos hlt] at h
    cases h
  · rw [if_neg hlt] at h
    cases h
    have hle : n ≤ bs.length := Nat.not_lt.mp hlt
    rw [if_neg (by rw [List.length_append]; omega), List.take_append_of_le_length hle, List.drop_append_of_le_length hle]

theorem readsLocally_takeBytes : ReadsLocally takeBytes := (readsLocally_takeNat 4).bind readsLocally_take

theorem readsLocally_takeBool : ReadsLocally takeBool := by
  intro bs v r extra h
  cases bs with
  | nil => cases h
  | cons b bs =>
    simp only [takeBool, List.cons_append] at h ⊢
    split_ifs at h ⊢ <;> cases h <;> rfl

theorem readsLocally_takeOption32 : ReadsLocally takeOption32 := by
  intro bs v r extra h
  cases bs with
  | nil => cases h
  | cons b bs =>
    simp only [takeOption32, List.cons_append] at h ⊢
    split_ifs at h ⊢
    · cases h
      rfl
    · exact (readsLocally_takeBV 4).map some extra h

theorem readsLocally_takeReportIn : ReadsLocally takeReportIn :=
  (readsLocally_takeBV 1).bind fun _ => (readsLocally_takeBV 1).bind fun _ => (readsLocally_takeBV 4).bind fun _ =>
  (readsLocally_takeBV 8).bind fun _ => (readsLocally_takeBV 8).bind fun _ => (readsLocally_takeBV 4).bind fun _ =>
  (readsLocally_takeBV 1).bind fun _ => (readsLocally_takeBV 1).bind fun _ => (readsLocally_takeBV 1).bind fun _ =>
  readsLocally_takeOption32.bind fun _ => readsLocally_takeOption32.bind fun _ => (readsLocally_takeBV 8).bind fun _ =>
  (readsLocally_takeBV 1).bind fun _ => readsLocally_takeBytes.bind fun _ => (readsLocally_takeBV 1).bind fun _ =>
  readsLocally_some _

theorem readsLocally_takeOperands (k : Cmd) : ReadsLocally (takeOperands k) := by
  cases k with
  | crcCompute | escape | unescape | prepareFrame | decPayload | addBytes | uatIframes | uatApdu | dlacDecode =>
    exact readsLocally_takeBytes.map _
  | encOwnship | encTraffic => exact readsLocally_takeReportIn.map _
  | readOut | readStats | readStatus | readBuffer | reset => exact readsLocally_some _
  | crcCheck => exact readsLocally_takeBytes.bind fun _ => readsLocally_takeBytes.bind fun _ => readsLocally_some _
  | encHeartbeat =>
    exact (readsLocally_takeBV 1).bind fun _ => (readsLocally_takeBV 1).bind fun _ => (readsLocally_takeBV 4).bind fun _ =>
      (readsLocally_takeBV 1).bind fun _ => (readsLocally_takeBV 2).bind fun _ => readsLocally_some _
  | encGeoalt =>
    exact (readsLocally_takeBV 4).bind fun _ => readsLocally_takeOption32.bind fun _ =>
      readsLocally_takeBool.bind fun _ => readsLocally_some _
  | encGpstime =>
    exact (readsLocally_takeBV 4).bind fun _ => (readsLocally_takeBV 1).bind fun _ => (readsLocally_takeBV 1).bind fun _ =>
      (readsLocally_takeBV 1).bind fun _ => readsLocally_some _
  | encUplink =>
    exact (readsLocally_takeBV 4).bind fun _ => readsLocally_takeBytes.bind fun _ => readsLocally_takeBytes.bind fun _ =>
      readsLocally_some _

/-! ## Packets -/

/-- What a packet that decodes is: one of a reserved code, or an assigned code whose operands end with the packet. -/
theorem decodePacket_eq_ok {c : Byte} {ops : Bytes} {i : Instr} (h : decodePacket (c :: ops) = .ok i) :
    i = .reservedCommand (c :: ops) ∨ ∃ k, cmdOfCode c = some k ∧ takeOperands k ops = some (i, []) := by
  rw [decodePacket] at h
  cases hc : cmdOfCode c with
  | none =>
    rw [hc] at h
    cases h
    exact .inl rfl
  | some k =>
    rw [hc] at h
    refine .inr ⟨k, rfl, ?_⟩
    dsimp only at h
    split at h
    · next hops =>
      cases h
      exact hops
    · cases h

/-- An assigned code whose operands parse to no instruction that ends with the packet is a format error (R67). -/
theorem decodePacket_eq_error {c : Byte} {k : Cmd} {ops : Bytes} (hc : cmdOfCode c = some k)
    (h : ∀ i, takeOperands k ops ≠ some (i, [])) : decodePacket (c :: ops) = .error .operandFormatError := by
  rw [decodePacket, hc]
  dsimp only
  split
  · next i hops => exact absurd hops (h i)
  · rfl

/-- Operands that end before the packet does (R67). -/
theorem decodePacket_append_eq_error {c : Byte} {k : Cmd} {ops extra : Bytes} {i : Instr} (hc : cmdOfCode c = some k)
    (h : takeOperands k ops = some (i, [])) (hextra : extra ≠ []) :
    decodePacket (c :: (ops ++ extra)) = .error .operandFormatError := by
  refine decodePacket_eq_error hc fun j hj => hextra ?_
  exact (Prod.ext_iff.mp (Option.some.inj ((readsLocally_takeOperands k extra h).symm.trans hj))).2

/-- Operands cut short (R67): what parsed from the first bytes would parse from all of them, and leave the others over. -/
theorem decodePacket_take_eq_error {c : Byte} {k : Cmd} {ops : Bytes} {i : Instr} {n : Nat} (hc : cmdOfCode c = some k)
    (h : takeOperands k ops = some (i, [])) (hn : n < ops.length) :
    decodePacket (c :: ops.take n) = .error .operandFormatError := by
  refine decodePacket_eq_error hc fun j hj => ?_
  have hwhole := readsLocally_takeOperands k (ops.drop n) hj
  rw [List.take_append_drop, h] at hwhole
  have hdrop : [] = ops.drop n := (Prod.ext_iff.mp (Option.some.inj hwhole)).2
  have := List.drop_eq_nil_iff.mp hdrop.symm
  omega

/-! ## `Bool` and `Option` bytes other than 0 and 1 -/

section
variable {b : Byte} (h0 : b ≠ 0x00#8) (h1 : b ≠ 0x01#8) (rest : Bytes)
include h0 h1

theorem takeBool_eq_none : takeBool (b :: rest) = none := by rw [takeBool, if_neg h0, if_neg h1]

theorem takeOption32_eq_none : takeOption32 (b :: rest) = none := by rw [takeOption32, if_neg h0, if_neg h1]

end

theorem takeOption32_zero (rest : Bytes) : takeOption32 (0x00#8 :: rest) = some (none, rest) := rfl

theorem takeOption32_one {v : Bytes} (hv : v.length = 4) (rest : Bytes) :
    takeOption32 (0x01#8 :: (v ++ rest)) = some (some (BitVec.ofNat 32 (beNat v)), rest) := by
  rw [takeOption32, if_neg (by decide), if_pos rfl, takeBV_append_of_length_eq hv]
  rfl

/-- ENC_GEOALT reads its merit right after the 4 bytes of the altitude, and then its warning (R70). -/
theorem takeOperands_encGeoalt {a tail : Bytes} (ha : a.length = 4)
    (h : takeOption32 tail = none ∨ ∃ m r, takeOption32 tail = some (m, r) ∧ takeBool r = none) :
    takeOperands .encGeoalt (a ++ tail) = none := by
  refine bind_of_eq_some (takeBV_append_of_length_eq ha _) ?_
  rcases h with h | ⟨m, r, hm, hr⟩
  · dsimp only
    rw [h]
    rfl
  · refine bind_of_eq_some hm ?_
    dsimp only
    rw [hr]
    rfl

/-- A report record reads its two velocities right after the 29 bytes of its first nine fields (R71). -/
theorem takeReportIn_eq_none {a tail : Bytes} (ha : a.length = 29)
    (h : takeOption32 tail = none ∨ ∃ v r, takeOption32 tail = some (v, r) ∧ takeOption32 r = none) :
    takeReportIn (a ++ tail) = none := by
  have step (k n : Nat) (hk : k + n ≤ 29) : takeBV k (a.drop n ++ tail) =
      some (BitVec.ofNat (8 * k) (beNat ((a.drop n).take k)), a.drop (n + k) ++ tail) := by
    rw [takeBV_append (by rw [List.length_drop]; omega), List.drop_drop]
  have hend : a.drop 29 ++ tail = tail := by rw [← ha, List.drop_length, List.nil_append]
  refine bind_of_eq_some (step 1 0 (by omega)) <| bind_of_eq_some (step 1 1 (by omega)) <|
    bind_of_eq_some (step 4 2 (by omega)) <| bind_of_eq_some (step 8 6 (by omega)) <|
    bind_of_eq_some (step 8 14 (by omega)) <| bind_of_eq_some (step 4 22 (by omega)) <|
    bind_of_eq_some (step 1 26 (by omega)) <| bind_of_eq_some (step 1 27 (by omega)) <|
    bind_of_eq_some (step 1 28 (by omega)) ?_
  rcases h with h | ⟨v, r, hv, hr⟩
  · dsimp only
    rw [hend, h]
    rfl
  · refine bind_of_eq_some ((congrArg takeOption32 hend).trans hv) ?_
    dsimp only
    rw [hr]
    rfl

end Sys2Proof

namespace Sys2Proof.Machine

/-! ## Steps -/

/-- A step takes the first input away and runs what it decodes to. -/
theorem step_of_decode_eq_ok {s : State} {x : HostInput} {rest : List HostInput} {i : Instr} (h : s.input = x :: rest)
    (hi : decode s.params x = .ok i) : step s = exec i { s with input := rest } := by
  simp only [step, h, hi]

theorem step_of_decode_eq_error {s : State} {x : HostInput} {rest : List HostInput} (h : s.input = x :: rest)
    (hx : decode s.params x = .error .operandFormatError) :
    step s = .next (State.statusOnly { s with input := rest } 0x09#8) := by
  simp only [step, h, hx]
  rfl

theorem step_of_input_eq_nil {s : State} (h : s.input = []) : step s = .next s := by simp only [step, h]

theorem exec_reservedCommand (packet : Bytes) (s : State) :
    exec (.reservedCommand packet) s = .next (s.statusOnly 0x08#8) := rfl

/-- The codes of R70 are the codes of the commands, so no other code selects one. -/
theorem cmdOfCode_eq_none {c : Byte} (h : c ∉ allCmds.map codeOfCmd) : cmdOfCode c = none := by
  refine List.find?_eq_none.mpr fun k hk hc => h ?_
  exact List.mem_map.mpr ⟨k, hk, beq_iff_eq.mp hc⟩

/-! ## The statements -/

/-- Settles O1, by the round trip of each instruction. -/
theorem encodeThenDecodeIsIdentity : Obligations.EncodeThenDecodeIsIdentity := by
  intro P i
  cases i with
  | crcCompute => exact Laws.RoundTrip.crcCompute _ P
  | crcCheck => exact Laws.RoundTrip.crcCheck _ _ P
  | escape => exact Laws.RoundTrip.escape _ P
  | unescape => exact Laws.RoundTrip.unescape _ P
  | prepareFrame => exact Laws.RoundTrip.prepareFrame _ P
  | encHeartbeat => exact Laws.RoundTrip.encHeartbeat _ _ _ _ _ P
  | encOwnship => exact Laws.RoundTrip.encOwnship _ P
  | encTraffic => exact Laws.RoundTrip.encTraffic _ P
  | encGeoalt => exact Laws.RoundTrip.encGeoalt _ _ _ P
  | encGpstime => exact Laws.RoundTrip.encGpstime _ _ _ _ P
  | encUplink => exact Laws.RoundTrip.encUplink _ _ _ P
  | decPayload => exact Laws.RoundTrip.decPayload _ P
  | addBytes => exact Laws.RoundTrip.addBytes _ P
  | readOut => exact Laws.RoundTrip.readOut P
  | readStats => exact Laws.RoundTrip.readStats P
  | readStatus => exact Laws.RoundTrip.readStatus P
  | readBuffer => exact Laws.RoundTrip.readBuffer P
  | reset => exact Laws.RoundTrip.reset P
  | uatIframes => exact Laws.RoundTrip.uatIframes _ P
  | uatApdu => exact Laws.RoundTrip.uatApdu _ P
  | dlacDecode => exact Laws.RoundTrip.dlacDecode _ P
  | reservedCommand => exact Laws.RoundTrip.reservedCommand _ P
  | msgHeartbeat => exact Laws.RoundTrip.msgHeartbeat _ P
  | msgOwnship => exact Laws.RoundTrip.msgOwnship _ P
  | msgTraffic => exact Laws.RoundTrip.msgTraffic _ P
  | msgGeoalt => exact Laws.RoundTrip.msgGeoalt _ P
  | msgUplink => exact Laws.RoundTrip.msgUplink _ P
  | msgGpstime => exact Laws.RoundTrip.msgGpstime _ P
  | msgVendor => exact Laws.RoundTrip.msgVendor _ P
  | msgUnknown => exact Laws.RoundTrip.msgUnknown _ P

/-- A well-formed command's packet is an assigned code and operands that parse to the command and end with the packet. -/
theorem packet_of_wf {P : Params} {i : Instr} {packet : Bytes} (hwf : i.wf P = true) (hi : ∀ q, i ≠ .reservedCommand q)
    (he : encode i = .packet packet) :
    ∃ c ops k, packet = c :: ops ∧ cmdOfCode c = some k ∧ takeOperands k ops = some (i, []) := by
  have hdecode : decodePacket packet = .ok i := by
    have := encodeThenDecodeIsIdentity P i hwf
    rwa [he] at this
  cases packet with
  | nil => exact absurd (Except.ok.inj hdecode).symm (hi [])
  | cons c ops =>
    rcases decodePacket_eq_ok hdecode with hr | ⟨k, hc, hops⟩
    · exact absurd hr (hi _)
    · exact ⟨c, ops, k, rfl, hc, hops⟩

/-- Settles O4, by the locality of the operand parsers. -/
theorem unparsablePacketsAreFormatErrors : Obligations.UnparsablePacketsAreFormatErrors := by
  refine ⟨?cut, ?geoalt, ?report, fun s q rest h hq => step_of_decode_eq_error h hq⟩
  case cut =>
    intro P i packet hwf hi he
    obtain ⟨c, ops, k, rfl, hc, hops⟩ := packet_of_wf hwf hi he
    refine ⟨fun n hpos hn => ?_, fun extra => decodePacket_append_eq_error hc hops⟩
    obtain ⟨m, rfl⟩ : ∃ m, n = m + 1 := ⟨n - 1, by omega⟩
    exact decodePacket_take_eq_error hc hops (by simpa using hn)
  case geoalt =>
    intro a v rest b ha hv h0 h1
    have bad {tail : Bytes}
        (h : takeOption32 tail = none ∨ ∃ m r, takeOption32 tail = some (m, r) ∧ takeBool r = none) :
        decodePacket (0x23#8 :: (a ++ tail)) = .error .operandFormatError :=
      decodePacket_eq_error (cmdOfCode_codeOfCmd .encGeoalt) fun _ => by simp [takeOperands_encGeoalt ha h]
    exact ⟨bad (.inl (takeOption32_eq_none h0 h1 rest)),
      bad (.inr ⟨_, _, takeOption32_zero _, takeBool_eq_none h0 h1 rest⟩),
      bad (.inr ⟨_, _, takeOption32_one hv _, takeBool_eq_none h0 h1 rest⟩)⟩
  case report =>
    intro c a v rest b hc ha hv h0 h1
    have bad {tail : Bytes}
        (h : takeOption32 tail = none ∨ ∃ v r, takeOption32 tail = some (v, r) ∧ takeOption32 r = none) :
        decodePacket (c :: (a ++ tail)) = .error .operandFormatError := by
      have hnone := takeReportIn_eq_none ha h
      rcases hc with rfl | rfl
      · exact decodePacket_eq_error (cmdOfCode_codeOfCmd .encOwnship) fun _ => by simp [takeOperands, hnone]
      · exact decodePacket_eq_error (cmdOfCode_codeOfCmd .encTraffic) fun _ => by simp [takeOperands, hnone]
    exact ⟨bad (.inl (takeOption32_eq_none h0 h1 rest)),
      bad (.inr ⟨_, _, takeOption32_zero _, takeOption32_eq_none h0 h1 rest⟩),
      bad (.inr ⟨_, _, takeOption32_one hv _, takeOption32_eq_none h0 h1 rest⟩)⟩

/-- Settles O2, by running the decoder on each word. -/
theorem writtenOutWordsDecode : Obligations.WrittenOutWordsDecode := by
  refine ⟨?_, ?_, ?_, ?_, ?_, ?_, ?_, ?_, ?_⟩ <;> decide

/-- Settles O3, by the codes of the command map. -/
theorem unassignedCodesAreIllegal : Obligations.UnassignedCodesAreIllegal := by
  refine ⟨exec_reservedCommand, fun s rest h => step_of_decode_eq_ok h rfl, fun s c ops rest hc h => ?_⟩
  have hdecode : decode s.params (.packet (c :: ops)) = .ok (.reservedCommand (c :: ops)) := by
    simp only [decode, decodePacket, cmdOfCode_eq_none hc]
  exact step_of_decode_eq_ok h hdecode

/-- Settles O5, by the two branches of a step. -/
theorem stepRunsTheDecodedInstruction : Obligations.StepRunsTheDecodedInstruction :=
  ⟨fun _ _ _ _ => step_of_decode_eq_ok, fun _ => step_of_input_eq_nil⟩

end Sys2Proof.Machine
end

section
/-! PROOFS. The drain loop without its fuel (44_stream.md R232 to R236): a relation with one rule for each thing a pass can do,
which every state has exactly one outcome in, and which `State.drain` computes; then O37. -/

namespace Sys2Proof.Machine

/-! ## The buffer primitives where the flag byte stands -/

theorem bufFind_append {front more : Bytes} {b : Byte} (h : b ∉ more) (rest : Bytes) :
    bufFind (front ++ (more ++ b :: rest)) b front.length = some (more.length + front.length) := by
  have hidx : (more ++ b :: rest).findIdx? (fun x => x == b) = some more.length := by
    have hnone : more.findIdx? (fun x => x == b) = none :=
      List.findIdx?_eq_none_iff.mpr fun x hx => beq_eq_false_iff_ne.mpr (ne_of_mem_of_not_mem hx h)
    simp [List.findIdx?_append, List.findIdx?_cons, hnone]
  rw [bufFind, List.drop_left, hidx]
  rfl

/-- A byte string without a flag byte, or split at its first. -/
theorem split_at_flagByte (buf : Bytes) :
    flagByte ∉ buf ∨ ∃ garbage rest, buf = garbage ++ flagByte :: rest ∧ flagByte ∉ garbage := by
  by_cases h : flagByte ∈ buf
  · obtain ⟨garbage, rest, hbuf, hg⟩ := List.eq_append_cons_of_mem h
    exact .inr ⟨garbage, rest, hbuf, hg⟩
  · exact .inl h

/-- BUF after RESYNC found a flag byte with `rest` behind it (R233): case (b) drops the first of two adjacent flags, case (c)
keeps a lone one. -/
def resyncBuf (rest : Bytes) : Bytes := if rest.head? = some flagByte then rest else flagByte :: rest

theorem resyncBuf_of_flag {rest : Bytes} (h : rest.head? = some flagByte) : resyncBuf rest = rest := if_pos h

theorem resyncBuf_of_ne {rest : Bytes} (h : rest.head? ≠ some flagByte) : resyncBuf rest = flagByte :: rest := if_neg h

theorem head?_resyncBuf (rest : Bytes) : (resyncBuf rest).head? = some flagByte := by
  by_cases h : rest.head? = some flagByte
  · rw [resyncBuf_of_flag h, h]
  · rw [resyncBuf_of_ne h, List.head?_cons]

theorem length_resyncBuf_le (rest : Bytes) : (resyncBuf rest).length ≤ rest.length + 1 := by
  rw [resyncBuf]
  split
  · omega
  · exact le_rfl

/-- The state in which ADD_BYTES of `d` starts its loop (R231). -/
abbrev State.fed (s : State) (d : Bytes) : State := { s with buf := s.buf ++ d }

/-- The state in which a frame's body is decoded: the frame is gone from BUF and counted (R235). -/
abbrev State.dropFrame (s : State) (rest : Bytes) : State :=
  { s with buf := rest, totalFrames := bump s.params.ctrW s.totalFrames }

/-- The state after RESYNC found a flag byte (R233). -/
abbrev State.resynced (s : State) (rest : Bytes) : State :=
  { s with resyncCount := bump s.params.ctrW s.resyncCount, buf := resyncBuf rest, sync := true }

/-- The state after RESYNC exhausted BUF (R233). -/
abbrev State.discarded (s : State) : State := { s with resyncCount := bump s.params.ctrW s.resyncCount, buf := [] }

section
variable {s : State}

theorem resync_of_not_mem (h : flagByte ∉ s.buf) : s.resync = (s.discarded, false) := by
  rcases resync_cases s with ⟨-, hs⟩ | ⟨k, hk, -⟩
  · exact hs
  · exact absurd (List.mem_of_mem_drop (List.mem_of_head? hk)) h

theorem resync_of_eq_append {garbage rest : Bytes} (hbuf : s.buf = garbage ++ flagByte :: rest) (hg : flagByte ∉ garbage) :
    s.resync = (s.resynced rest, true) := by
  have hfind : bufFind s.buf flagByte 0 = some garbage.length := by
    rw [hbuf]
    exact bufFind_append (front := []) hg rest
  have hnext : s.buf[garbage.length + 1]? = rest.head? := by
    rw [hbuf, List.getElem?_append_right (Nat.le_add_right _ 1), Nat.add_sub_cancel_left, List.getElem?_cons_succ,
      List.head?_eq_getElem?]
  have hdrop : s.buf.drop (garbage.length + 1) = rest := by rw [hbuf, List.drop_append]; simp
  have hdrop' : s.buf.drop garbage.length = flagByte :: rest := by rw [hbuf, List.drop_left]
  simp only [State.resync, hfind, hnext]
  split
  · next h => simp only [State.bufDrop, State.setSync, State.resynced, resyncBuf_of_flag h, hdrop]
  · next h => simp only [State.bufDrop, State.setSync, State.resynced, resyncBuf_of_ne h, hdrop']

theorem extract_of_head_ne (h : s.buf.head? ≠ some flagByte) : s.extract = .ok ({ s with sync := false }, true) := if_pos h

theorem extract_of_open {tail : Bytes} (hbuf : s.buf = flagByte :: tail) (h : flagByte ∉ tail) : s.extract = .ok (s, false) := by
  have hfind : bufFind s.buf flagByte 1 = none := bufFind_eq_none.mpr (by simpa [hbuf] using h)
  rw [State.extract, if_neg (by simp [hbuf]), hfind]

theorem extract_of_frame {body rest : Bytes} (hbuf : s.buf = flagByte :: (body ++ flagByte :: rest)) (h : flagByte ∉ body) :
    s.extract = ((s.dropFrame rest).frameDecode body).map fun t => (t, true) := by
  have hfind : bufFind s.buf flagByte 1 = some (body.length + 1) := by
    rw [hbuf]
    exact bufFind_append (front := [flagByte]) h rest
  have hslice : slice s.buf 1 (body.length + 1) = body := by simp [slice, hbuf]
  have hdrop : s.buf.drop (body.length + 1 + 1) = rest := by
    rw [hbuf, List.drop_succ_cons, ← List.drop_drop, List.drop_left, List.drop_one, List.tail_cons]
  rw [State.extract, if_neg (by simp [hbuf]), hfind]
  simp only [hslice, State.bufDrop, hdrop]

/-! ## One pass of the loop -/

section
variable (k : Nat)

theorem drain_of_idle (hs : s.sync = true) (hbuf : s.buf = []) : State.drain k s = .ok s := by
  cases k with
  | zero => rfl
  | succ k => simp [State.drain, hs, hbuf]

/-- A synchronized pass over a non-empty BUF is EXTRACT. -/
theorem drain_succ_of_sync (hs : s.sync = true) (hbuf : s.buf ≠ []) :
    State.drain (k + 1) s = s.extract >>= fun p => if p.2 then State.drain k p.1 else .ok p.1 := by
  simp only [State.drain, hs, if_true, Bool.not_true, Bool.false_eq_true, if_false, List.isEmpty_iff, hbuf]
  rcases s.extract with r | ⟨t, goOn | goOn⟩ <;> rfl

theorem drain_succ_of_open {tail : Bytes} (hs : s.sync = true) (hbuf : s.buf = flagByte :: tail) (h : flagByte ∉ tail) :
    State.drain (k + 1) s = .ok s := by
  rw [drain_succ_of_sync k hs (by simp [hbuf]), extract_of_open hbuf h]
  rfl

theorem drain_succ_of_frame {body rest : Bytes} (hs : s.sync = true) (hbuf : s.buf = flagByte :: (body ++ flagByte :: rest))
    (h : flagByte ∉ body) : State.drain (k + 1) s = (s.dropFrame rest).frameDecode body >>= State.drain k := by
  rw [drain_succ_of_sync k hs (by simp [hbuf]), extract_of_frame hbuf h]
  cases (s.dropFrame rest).frameDecode body <;> rfl

theorem drain_succ_of_lost (hs : s.sync = true) (hbuf : s.buf ≠ []) (h : s.buf.head? ≠ some flagByte) :
    State.drain (k + 1) s = State.drain k { s with sync := false } := by
  rw [drain_succ_of_sync k hs hbuf, extract_of_head_ne h]
  rfl

theorem drain_succ_of_not_mem (hs : s.sync = false) (h : flagByte ∉ s.buf) :
    State.drain (k + 1) s = .ok s.discarded := by
  simp [State.drain, hs, resync_of_not_mem h]

/-- RESYNC that finds a flag byte goes on in the same pass (R232). -/
theorem drain_succ_of_found {garbage rest : Bytes} (hs : s.sync = false) (hbuf : s.buf = garbage ++ flagByte :: rest)
    (hg : flagByte ∉ garbage) : State.drain (k + 1) s = State.drain (k + 1) (s.resynced rest) := by
  simp [State.drain, hs, resync_of_eq_append hbuf hg]

end
end

/-! ## The relation -/

/-- `Drains s o`: the drain loop of R232 run from `s` to its end has the outcome `o`. -/
inductive Drains : State → Except RefusalReason State → Prop
  | idle {s : State} : s.sync = true → s.buf = [] → Drains s (.ok s)
  | waits {s : State} {tail : Bytes} : s.sync = true → s.buf = flagByte :: tail → flagByte ∉ tail → Drains s (.ok s)
  | refuses {s : State} {body rest : Bytes} {r : RefusalReason} : s.sync = true →
      s.buf = flagByte :: (body ++ flagByte :: rest) → flagByte ∉ body → (s.dropFrame rest).frameDecode body = .error r →
      Drains s (.error r)
  | frame {s u : State} {body rest : Bytes} {o : Except RefusalReason State} : s.sync = true →
      s.buf = flagByte :: (body ++ flagByte :: rest) → flagByte ∉ body → (s.dropFrame rest).frameDecode body = .ok u →
      Drains u o → Drains s o
  | lost {s : State} {o : Except RefusalReason State} : s.sync = true → s.buf ≠ [] → s.buf.head? ≠ some flagByte →
      Drains { s with sync := false } o → Drains s o
  | exhausts {s : State} : s.sync = false → flagByte ∉ s.buf → Drains s (.ok s.discarded)
  | finds {s : State} {garbage rest : Bytes} {o : Except RefusalReason State} : s.sync = false →
      s.buf = garbage ++ flagByte :: rest → flagByte ∉ garbage → Drains (s.resynced rest) o → Drains s o

/-- What bounds the passes still to come: each frame takes two bytes or more, and a lost SYNC is found again or BUF is empty. -/
def State.passBound (s : State) : Nat :=
  2 * s.buf.length + if s.sync then (if s.buf.head? = some flagByte then 0 else 2) else 1

theorem passBound_le (s : State) : s.passBound ≤ s.drainFuel := by
  rw [State.passBound, State.drainFuel]
  split_ifs <;> omega

section
variable {s u : State} {body rest : Bytes}

theorem passBound_of_frame (hs : s.sync = true) (hbuf : s.buf = flagByte :: (body ++ flagByte :: rest))
    (hu : (s.dropFrame rest).frameDecode body = .ok u) : u.passBound + 2 ≤ s.passBound := by
  obtain ⟨st, q, rfl⟩ := frameDecode_eq_ok hu
  simp only [State.passBound, hbuf, hs, List.length_cons, List.length_append, List.head?_cons]
  split_ifs <;> omega

theorem passBound_of_lost (hs : s.sync = true) (h : s.buf.head? ≠ some flagByte) :
    State.passBound { s with sync := false } + 1 = s.passBound := by
  simp [State.passBound, hs, h]

theorem passBound_of_found {garbage : Bytes} (hs : s.sync = false) (hbuf : s.buf = garbage ++ flagByte :: rest) :
    (s.resynced rest).passBound + 1 ≤ s.passBound := by
  have := length_resyncBuf_le rest
  simp only [State.passBound, head?_resyncBuf, hs, hbuf, List.length_append, List.length_cons]
  simp only [if_pos, Bool.false_eq_true, if_false]
  omega

end

/-- The loop computes the relation's outcome, with any fuel its passes fit in. -/
theorem drain_of_drains {s : State} {o : Except RefusalReason State} (h : Drains s o) :
    ∀ k, s.passBound ≤ k → State.drain k s = o := by
  induction h with
  | idle hs hbuf => exact fun k _ => drain_of_idle k hs hbuf
  | waits hs hbuf hno =>
    intro k hk
    obtain ⟨k, rfl⟩ : ∃ n, k = n + 1 := ⟨k - 1, by simp [State.passBound, hs, hbuf] at hk; omega⟩
    exact drain_succ_of_open k hs hbuf hno
  | refuses hs hbuf hno hr =>
    intro k hk
    obtain ⟨k, rfl⟩ : ∃ n, k = n + 1 := ⟨k - 1, by simp [State.passBound, hs, hbuf] at hk; omega⟩
    rw [drain_succ_of_frame k hs hbuf hno, hr]
    rfl
  | frame hs hbuf hno hu _ ih =>
    intro k hk
    have := passBound_of_frame hs hbuf hu
    obtain ⟨k, rfl⟩ : ∃ n, k = n + 1 := ⟨k - 1, by omega⟩
    rw [drain_succ_of_frame k hs hbuf hno, hu]
    exact ih k (by omega)
  | lost hs hbuf hhead _ ih =>
    intro k hk
    have := passBound_of_lost hs hhead
    obtain ⟨k, rfl⟩ : ∃ n, k = n + 1 := ⟨k - 1, by omega⟩
    rw [drain_succ_of_lost k hs hbuf hhead]
    exact ih k (by omega)
  | exhausts hs hno =>
    intro k hk
    obtain ⟨k, rfl⟩ : ∃ n, k = n + 1 := ⟨k - 1, by simp [State.passBound, hs] at hk; omega⟩
    exact drain_succ_of_not_mem k hs hno
  | finds hs hbuf hno _ ih =>
    intro k hk
    have := passBound_of_found hs hbuf
    obtain ⟨k, rfl⟩ : ∃ n, k = n + 1 := ⟨k - 1, by omega⟩
    rw [drain_succ_of_found k hs hbuf hno]
    exact ih (k + 1) (by omega)

/-- From every state the loop comes to an end (R232). -/
theorem drains_total (s : State) : ∃ o, Drains s o := by
  cases hs : s.sync with
  | false =>
    rcases split_at_flagByte s.buf with hno | ⟨garbage, rest, hbuf, hno⟩
    · exact ⟨_, .exhausts hs hno⟩
    · have := passBound_of_found hs hbuf
      obtain ⟨o, ho⟩ := drains_total (s.resynced rest)
      exact ⟨o, .finds hs hbuf hno ho⟩
  | true =>
    by_cases hnil : s.buf = []
    · exact ⟨_, .idle hs hnil⟩
    · by_cases hhead : s.buf.head? = some flagByte
      · obtain ⟨tail, hbuf⟩ := List.head?_eq_some_iff.mp hhead
        rcases split_at_flagByte tail with hno | ⟨body, rest, rfl, hno⟩
        · exact ⟨_, .waits hs hbuf hno⟩
        · cases hu : (s.dropFrame rest).frameDecode body with
          | error r => exact ⟨_, .refuses hs hbuf hno hu⟩
          | ok u =>
            have := passBound_of_frame hs hbuf hu
            obtain ⟨o, ho⟩ := drains_total u
            exact ⟨o, .frame hs hbuf hno hu ho⟩
      · have := passBound_of_lost hs hhead
        obtain ⟨o, ho⟩ := drains_total { s with sync := false }
        exact ⟨o, .lost hs hnil hhead ho⟩
termination_by s.passBound

theorem drains_drain {s : State} {k : Nat} (h : s.passBound ≤ k) : Drains s (State.drain k s) := by
  obtain ⟨o, ho⟩ := drains_total s
  rwa [drain_of_drains ho k h]

/-! ## ADD_BYTES -/

section
variable {s t : State} {d : Bytes} {r : RefusalReason}

/-- ADD_BYTES past a finite `BUF_CAP` (R231). -/
theorem exec_addBytes_of_overflow {cap : Nat} (hcap : s.params.bufCap = some cap) (h : cap < s.buf.length + d.length) :
    exec (.addBytes d) s = .next (s.refusedWith .bufferOverflow) := by
  have happend : s.bufAppend d = .error .bufferOverflow := by simp only [State.bufAppend, hcap, if_pos h]
  simp only [exec, execAddBytes, State.addBytes, happend]
  rfl

theorem bufAppend_of_withinCap (h : withinCap s.params.bufCap (s.buf.length + d.length)) :
    s.bufAppend d = .ok (s.fed d) := by
  rcases bufAppend_cases s d with ⟨-, c, hc, hlt⟩ | ⟨happend, -⟩
  · exact absurd (h c hc) (Nat.not_le.mpr hlt)
  · exact happend

/-- ADD_BYTES of bytes that fit is the drain loop over them (R230). -/
theorem exec_addBytes_of_drains (hcap : withinCap s.params.bufCap (s.buf.length + d.length))
    (h : Drains (s.fed d) (.ok t)) :
    exec (.addBytes d) s = .next (t.okWith (putU32 (t.outq.length - s.outq.length))) := by
  have hdrain := drain_of_drains h _ (passBound_le _)
  simp only [exec, execAddBytes, State.addBytes, bufAppend_of_withinCap hcap, hdrain]
  rfl

theorem exec_addBytes_of_drains_error (hcap : withinCap s.params.bufCap (s.buf.length + d.length))
    (h : Drains (s.fed d) (.error r)) : exec (.addBytes d) s = .next (s.refusedWith r) := by
  have hdrain := drain_of_drains h _ (passBound_le _)
  simp only [exec, execAddBytes, State.addBytes, bufAppend_of_withinCap hcap, hdrain]
  rfl

/-- Everything ADD_BYTES can do: a refused append, a refusal in the loop, or the loop to its end. -/
theorem exec_addBytes_cases (d : Bytes) (s : State) :
    (exec (.addBytes d) s = .next (s.refusedWith .bufferOverflow) ∧ s.params.bufCap ≠ none) ∨
    withinCap s.params.bufCap (s.buf.length + d.length) ∧
    ((∃ r, Drains (s.fed d) (.error r) ∧ exec (.addBytes d) s = .next (s.refusedWith r)) ∨
      ∃ t, Drains (s.fed d) (.ok t) ∧
        exec (.addBytes d) s = .next (t.okWith (putU32 (t.outq.length - s.outq.length)))) := by
  rcases bufAppend_cases s d with ⟨-, c, hc, hlt⟩ | ⟨-, hcap⟩
  · exact .inl ⟨exec_addBytes_of_overflow hc hlt, by simp [hc]⟩
  · obtain ⟨o, ho⟩ := drains_total (s.fed d)
    cases o with
    | error r => exact .inr ⟨hcap, .inl ⟨r, ho, exec_addBytes_of_drains_error hcap ho⟩⟩
    | ok t => exact .inr ⟨hcap, .inr ⟨t, ho, exec_addBytes_of_drains hcap ho⟩⟩

end

/-! ## The statement -/

/-- Settles O37, by the relation, which knows no fuel. -/
theorem drainLoopTerminates : Obligations.DrainLoopTerminates := by
  intro s k hk
  exact drain_of_drains (drains_drain (passBound_le s)) k ((passBound_le s).trans hk)

end Sys2Proof.Machine
end

section
/-! PROOFS. What the drain loop counts and queues (44_stream.md R235, R236, R245): the three things FRAME_DECODE can do, the account
of a list of frames, that the loop keeps it for the frames `frameBodies` reads; then O35 and O36. -/

namespace Sys2Proof.Machine

/-! ## FRAME_DECODE, by its case -/

/-- The ID a body is counted under: its first unescaped byte (R236). -/
abbrev idOf (P : Params) (body : Bytes) : Byte := (unescape P.loneEsc body).headD 0#8

/-- The state with a frame of `body` counted as good (R236). -/
abbrev State.countedGood (s : State) (body : Bytes) : State :=
  { s with stats := countGood s.params.ctrW (idOf s.params body) (ensureEntry (idOf s.params body) s.stats) }

/-- The state with a frame of `body` counted as bad (R236). -/
abbrev State.countedBad (s : State) (body : Bytes) : State :=
  { s with stats := countBad s.params.ctrW (idOf s.params body) (ensureEntry (idOf s.params body) s.stats) }

section
variable {s : State} {body : Bytes}

theorem frameDecode_of_isShort (h : isShort s.params body) : s.frameDecode body = .ok s := if_pos h

theorem frameDecode_of_fails (hlong : ¬ isShort s.params body) (h : ¬ passesCheck s.params body) :
    s.frameDecode body = .ok (s.countedBad body) := by
  rcases frameDecode_cases s body with ⟨hs, -⟩ | ⟨-, -, hbad⟩ | ⟨h5, hcrc, -⟩
  · exact absurd hs hlong
  · exact hbad
  · exact absurd ⟨h5, hcrc⟩ h

theorem frameDecode_of_error (h : passesCheck s.params body) {r : RefusalReason}
    (hd : decPayload s.params (payloadOf s.params body) = .error r) : s.frameDecode body = .error r := by
  rcases frameDecode_cases s body with ⟨hs, -⟩ | ⟨-, hcrc, -⟩ | ⟨-, -, ⟨r', hr', he⟩ | ⟨habs, -⟩ | ⟨r', -, hr', -⟩⟩
  · exact absurd hs (not_isShort_of_passesCheck h)
  · exact absurd h.2 hcrc
  · cases hd.symm.trans hr'
    exact he
  · cases hd.symm.trans habs
  · cases hd.symm.trans hr'

theorem frameDecode_of_absent (h : passesCheck s.params body)
    (hd : decPayload s.params (payloadOf s.params body) = .ok .absent) : s.frameDecode body = .ok (s.countedGood body) := by
  rcases frameDecode_cases s body with ⟨hs, -⟩ | ⟨-, hcrc, -⟩ | ⟨-, -, ⟨r', hr', -⟩ | ⟨-, habs⟩ | ⟨r', hne, hr', -⟩⟩
  · exact absurd hs (not_isShort_of_passesCheck h)
  · exact absurd h.2 hcrc
  · cases hd.symm.trans hr'
  · exact habs
  · exact absurd (Except.ok.inj (hr'.symm.trans hd)) hne

theorem frameDecode_of_ok (h : passesCheck s.params body) {r : DecodeResult}
    (hd : decPayload s.params (payloadOf s.params body) = .ok r) (hr : r ≠ .absent) :
    s.frameDecode body = (s.countedGood body).enqueue r := by
  rcases frameDecode_cases s body with ⟨hs, -⟩ | ⟨-, hcrc, -⟩ | ⟨-, -, ⟨r', hr', -⟩ | ⟨habs, -⟩ | ⟨r', -, hr', hq⟩⟩
  · exact absurd hs (not_isShort_of_passesCheck h)
  · exact absurd h.2 hcrc
  · cases hd.symm.trans hr'
  · exact absurd (Except.ok.inj (hd.symm.trans habs)) hr
  · cases hd.symm.trans hr'
    exact hq

theorem enqueue_of_withinCap {r : DecodeResult} (h : withinCap s.params.outqCap (s.outq.length + 1)) :
    s.enqueue r = .ok { s with outq := s.outq ++ [r] } := by
  rcases enqueue_cases s r with ⟨-, c, hc, hle⟩ | ⟨hadd, -⟩
  · exact absurd (h c hc) (Nat.not_le.mpr (Nat.lt_succ_of_le hle))
  · exact hadd

theorem enqueue_of_full {r : DecodeResult} {cap : Nat} (hcap : s.params.outqCap = some cap) (h : cap ≤ s.outq.length) :
    s.enqueue r = .error .outqOverflow := by
  simp only [State.enqueue, hcap, if_pos h]

/-- The state with what `body` decodes to, none or one result, added to OUTQ (R236, R237). -/
abbrev State.queued (s : State) (body : Bytes) : State := { s with outq := s.outq ++ (queuedOf s.params body).toList }

theorem queuedOf_of_ok {P : Params} {r : DecodeResult} (hd : decPayload P (payloadOf P body) = .ok r) :
    queuedOf P body = if r = .absent then none else some r := by
  simp only [queuedOf, hd]

/-- Of a body that passes its check FRAME_DECODE, when it is not refused, counts one good frame and queues what it decodes to. -/
theorem frameDecode_eq_ok_of_passes {t : State} (h : passesCheck s.params body) (ht : s.frameDecode body = .ok t) :
    (∃ r, decPayload s.params (payloadOf s.params body) = .ok r) ∧
      t = (s.countedGood body).queued body := by
  cases hd : decPayload s.params (payloadOf s.params body) with
  | error r => cases ht.symm.trans (frameDecode_of_error h hd)
  | ok r =>
    refine ⟨⟨r, rfl⟩, ?_⟩
    by_cases ha : r = .absent
    · rw [State.queued, queuedOf_of_ok hd, if_pos ha, Option.toList_none, List.append_nil]
      exact Except.ok.inj (ht.symm.trans (frameDecode_of_absent h (ha ▸ hd)))
    · rw [State.queued, queuedOf_of_ok hd, if_neg ha]
      rw [frameDecode_of_ok h hd ha] at ht
      rcases enqueue_cases (s.countedGood body) r with ⟨hfull, -⟩ | ⟨hadd, -⟩
      · cases ht.symm.trans hfull
      · exact Except.ok.inj (ht.symm.trans hadd)

end

/-! ## The account of a list of frames -/

/-- The bodies that pass their check (R236). -/
def goodBodies (P : Params) (bodies : List Bytes) : List Bytes := bodies.filter fun b => passesCheck P b

theorem goodBodies_append (P : Params) (bodies more : List Bytes) :
    goodBodies P (bodies ++ more) = goodBodies P bodies ++ goodBodies P more := List.filter_append bodies more

theorem goodBodies_of_passes {P : Params} {body : Bytes} (h : passesCheck P body) : goodBodies P [body] = [body] :=
  List.filter_eq_self.mpr fun _ hb => decide_eq_true (List.mem_singleton.mp hb ▸ h)

theorem goodBodies_of_fails {P : Params} {body : Bytes} (h : ¬ passesCheck P body) : goodBodies P [body] = [] :=
  List.filter_eq_nil_iff.mpr fun _ hb => mt of_decide_eq_true (List.mem_singleton.mp hb ▸ h)

/-- `t` is `s` after frames with these bodies: only the stream elements differ, OUTQ grew by what the good ones decode to, and the
counters as R245 says. -/
structure Accounts (s t : State) (bodies : List Bytes) : Prop where
  params : t.params = s.params
  refused : t.refused = s.refused
  input : t.input = s.input
  results : t.results = s.results
  outq : t.outq = s.outq ++ (goodBodies s.params bodies).filterMap (queuedOf s.params)
  answered : ∀ b ∈ bodies, passesCheck s.params b → ∃ r, decPayload s.params (payloadOf s.params b) = .ok r
  canonical : statsCanonical s.stats → statsCanonical t.stats
  total : s.params.ctrW ≤ 64 → t.totalFrames.toNat ≡ s.totalFrames.toNat + bodies.length [MOD 2 ^ s.params.ctrW]
  good : s.params.ctrW ≤ 64 → statsCanonical s.stats →
    goodSum t.stats ≡ goodSum s.stats + (goodBodies s.params bodies).length [MOD 2 ^ s.params.ctrW]
  all : s.params.ctrW ≤ 64 → statsCanonical s.stats →
    t.totalFrames.toNat + (goodSum s.stats + badSum s.stats) ≡
      s.totalFrames.toNat + bodies.countP (fun b => isShort s.params b) + (goodSum t.stats + badSum t.stats)
      [MOD 2 ^ s.params.ctrW]

/-- No frame: BUF, SYNC and RESYNC_COUNT are in no account. -/
theorem Accounts.none (s : State) (buf : Bytes) (sync : Bool) (resyncs : BitVec 64) :
    Accounts s { s with buf := buf, sync := sync, resyncCount := resyncs } [] where
  params := rfl
  refused := rfl
  input := rfl
  results := rfl
  outq := (List.append_nil _).symm
  answered := fun _ hb => absurd hb List.not_mem_nil
  canonical := id
  total := fun _ => Nat.ModEq.refl _
  good := fun _ _ => Nat.ModEq.refl _
  all := fun _ _ => Nat.ModEq.refl _

theorem Accounts.trans {s t u : State} {bodies more : List Bytes} (h : Accounts s t bodies) (h' : Accounts t u more) :
    Accounts s u (bodies ++ more) where
  params := h'.params.trans h.params
  refused := h'.refused.trans h.refused
  input := h'.input.trans h.input
  results := h'.results.trans h.results
  outq := by
    rw [h'.outq, h.outq, h.params, goodBodies_append, List.filterMap_append, List.append_assoc]
  answered := fun b hb hpass => by
    rcases List.mem_append.mp hb with hb | hb
    · exact h.answered b hb hpass
    · have := h'.answered b hb
      rw [h.params] at this
      exact this hpass
  canonical := fun hs => h'.canonical (h.canonical hs)
  total := fun hw => by
    have h₂ := h'.total (h.params ▸ hw)
    rw [h.params] at h₂
    rw [List.length_append, ← Nat.add_assoc]
    exact h₂.trans ((h.total hw).add_right _)
  good := fun hw hs => by
    have h₂ := h'.good (h.params ▸ hw) (h.canonical hs)
    rw [h.params] at h₂
    rw [goodBodies_append, List.length_append, ← Nat.add_assoc]
    exact h₂.trans ((h.good hw hs).add_right _)
  all := fun hw hs => by
    have h₂ := h'.all (h.params ▸ hw) (h.canonical hs)
    rw [h.params] at h₂
    have hsum := (h.all hw hs).add h₂
    rw [List.countP_append]
    refine Nat.ModEq.add_right_cancel' (t.totalFrames.toNat + (goodSum t.stats + badSum t.stats)) ?_
    convert hsum using 1 <;> omega

section
variable {s u : State} {body rest : Bytes}

theorem totalFrames_dropFrame (s : State) (rest : Bytes) (hw : s.params.ctrW ≤ 64) :
    (s.dropFrame rest).totalFrames.toNat ≡ s.totalFrames.toNat + 1 [MOD 2 ^ s.params.ctrW] := by
  rw [State.dropFrame, bump_toNat hw]
  exact Nat.mod_modEq _ _

/-- One frame, whatever becomes of it: counted as short, as bad, or as good and queued. -/
theorem Accounts.frame (h : (s.dropFrame rest).frameDecode body = .ok u) : Accounts s u [body] := by
  by_cases hshort : isShort s.params body
  · have hfail : ¬ passesCheck s.params body := fun hp => not_isShort_of_passesCheck hp hshort
    cases h.symm.trans (frameDecode_of_isShort hshort)
    exact
      { params := rfl, refused := rfl, input := rfl, results := rfl, canonical := id
        outq := by simp [goodBodies_of_fails hfail]
        answered := fun b hb hp => by
          rw [List.mem_singleton.mp hb] at hp
          exact absurd hp hfail
        total := totalFrames_dropFrame s rest
        good := fun _ _ => by
          rw [goodBodies_of_fails hfail]
          exact Nat.ModEq.refl _
        all := fun hw _ => by
          rw [List.countP_singleton, if_pos (decide_eq_true hshort)]
          exact (totalFrames_dropFrame s rest hw).add_right _ }
  by_cases hpass : passesCheck s.params body
  · obtain ⟨hok, rfl⟩ := frameDecode_eq_ok_of_passes (s := s.dropFrame rest) hpass h
    exact
      { params := rfl, refused := rfl, input := rfl, results := rfl
        canonical := fun hs => countGood_canonical _ _ (ensureEntry_canonical _ hs)
        outq := by
          rw [goodBodies_of_passes hpass]
          cases hq : queuedOf s.params body <;> simp [hq]
        answered := fun b hb _ => by
          rw [List.mem_singleton.mp hb]
          exact hok
        total := totalFrames_dropFrame s rest
        good := fun hw hs => by
          rw [goodBodies_of_passes hpass]
          exact goodSum_countGood hw _ hs
        all := fun hw hs => by
          have htotal := totalFrames_dropFrame s rest hw
          have hgood : goodSum _ ≡ _ [MOD _] := goodSum_countGood hw (idOf s.params body) hs
          have hbad := badSum_countGood s.params.ctrW (idOf s.params body) (ensureEntry (idOf s.params body) s.stats)
          rw [badSum_ensureEntry] at hbad
          rw [List.countP_singleton, if_neg (mt of_decide_eq_true hshort)]
          dsimp only [State.queued, State.countedGood]
          rw [hbad]
          calc
            _ ≡ s.totalFrames.toNat + 1 + (goodSum s.stats + badSum s.stats) [MOD _] := htotal.add_right _
            _ = s.totalFrames.toNat + 0 + (goodSum s.stats + 1 + badSum s.stats) := by omega
            _ ≡ _ [MOD _] := (hgood.symm.add_right _).add_left _ }
  · cases h.symm.trans (frameDecode_of_fails (s := s.dropFrame rest) hshort hpass)
    exact
      { params := rfl, refused := rfl, input := rfl, results := rfl
        canonical := fun hs => countBad_canonical _ _ (ensureEntry_canonical _ hs)
        outq := by simp [goodBodies_of_fails hpass]
        answered := fun b hb hp => by
          rw [List.mem_singleton.mp hb] at hp
          exact absurd hp hpass
        total := totalFrames_dropFrame s rest
        good := fun _ _ => by
          rw [goodBodies_of_fails hpass, goodSum_countBad, goodSum_ensureEntry]
          exact Nat.ModEq.refl _
        all := fun hw hs => by
          have htotal := totalFrames_dropFrame s rest hw
          have hbad : badSum _ ≡ _ [MOD _] := badSum_countBad hw (idOf s.params body) hs
          have hgood := goodSum_countBad s.params.ctrW (idOf s.params body) (ensureEntry (idOf s.params body) s.stats)
          rw [goodSum_ensureEntry] at hgood
          rw [List.countP_singleton, if_neg (mt of_decide_eq_true hshort)]
          dsimp only [State.countedBad]
          rw [hgood]
          calc
            _ ≡ s.totalFrames.toNat + 1 + (goodSum s.stats + badSum s.stats) [MOD _] := htotal.add_right _
            _ = s.totalFrames.toNat + 0 + (goodSum s.stats + (badSum s.stats + 1)) := by omega
            _ ≡ _ [MOD _] := (hbad.symm.add_left _).add_left _ }

end

/-! ## The loop -/

/-- Where the reader of the stream stands at the start of a command (R235). -/
abbrev State.scanMode (s : State) : ScanMode := if s.sync then .between else .hunting

theorem frameBodies_resyncBuf {garbage : Bytes} (hg : flagByte ∉ garbage) (rest : Bytes) :
    frameBodies .hunting (garbage ++ flagByte :: rest) = frameBodies .between (resyncBuf rest) := by
  rw [frameBodies_hunting_append hg]
  by_cases h : rest.head? = some flagByte
  · rw [frameBodies_hunting_pair h, resyncBuf_of_flag h]
  · rw [frameBodies_hunting_lone h, resyncBuf_of_ne h]

theorem frameBodies_hunting_of_not_mem {buf : Bytes} (h : flagByte ∉ buf) : frameBodies .hunting buf = [] := by
  simpa [frameBodies] using frameBodies_hunting_append h []

/-- The loop takes the frames `frameBodies` reads from left to right, and keeps their account. -/
theorem accounts_of_drains {s : State} {o : Except RefusalReason State} (h : Drains s o) :
    ∀ t, o = .ok t → Accounts s t (frameBodies s.scanMode s.buf) := by
  induction h with
  | @idle s hs hbuf =>
    rintro t ⟨⟩
    rw [State.scanMode, hs, hbuf]
    exact Accounts.none s _ _ _
  | @waits s tail hs hbuf hno =>
    rintro t ⟨⟩
    rw [State.scanMode, hs, hbuf, if_pos rfl, frameBodies_between_open hno]
    exact Accounts.none s _ _ _
  | refuses => rintro t ⟨⟩
  | @frame s u body rest o hs hbuf hno hu _ ih =>
    rintro t rfl
    have hrest : frameBodies u.scanMode u.buf = frameBodies .between rest := by
      obtain ⟨st, q, rfl⟩ := frameDecode_eq_ok hu
      simp only [State.scanMode, hs, if_true]
    rw [State.scanMode, hs, hbuf, if_pos rfl, frameBodies_between_frame hno, ← hrest]
    exact (Accounts.frame hu).trans (ih t rfl)
  | @lost s o hs _ hhead _ ih =>
    rintro t rfl
    rw [State.scanMode, hs, if_pos rfl, frameBodies_between_lost hhead]
    exact (Accounts.none s s.buf false s.resyncCount).trans (ih t rfl)
  | @exhausts s hs hno =>
    rintro t ⟨⟩
    rw [State.scanMode, hs, if_neg Bool.false_ne_true, frameBodies_hunting_of_not_mem hno]
    exact Accounts.none s _ _ _
  | @finds s garbage rest o hs hbuf hno _ ih =>
    rintro t rfl
    rw [State.scanMode, hs, hbuf, if_neg Bool.false_ne_true, frameBodies_resyncBuf hno]
    exact (Accounts.none s _ _ _).trans (ih t rfl)

/-- The loop ends with BUF settled (R245, law 3). -/
theorem settled_of_drains {s : State} {o : Except RefusalReason State} (h : Drains s o) : ∀ t, o = .ok t → t.Settled := by
  induction h with
  | idle hs hbuf =>
    rintro t ⟨⟩
    exact .inl hbuf
  | waits hs hbuf hno =>
    rintro t ⟨⟩
    exact .inr ⟨by rw [hbuf]; rfl, hs, by rwa [hbuf]⟩
  | refuses => rintro t ⟨⟩
  | exhausts =>
    rintro t ⟨⟩
    exact .inl rfl
  | frame _ _ _ _ _ ih | lost _ _ _ _ ih | finds _ _ _ _ ih => exact ih

/-- A refusal in the loop is one of FRAME_DECODE. -/
theorem refusal_of_drains {s : State} {o : Except RefusalReason State} (h : Drains s o) :
    ∀ r, o = .error r → ∃ u body, u.params = s.params ∧ State.frameDecode u body = .error r := by
  induction h with
  | idle | waits | exhausts => rintro r ⟨⟩
  | refuses _ _ _ hr =>
    rintro r ⟨⟩
    exact ⟨State.dropFrame _ _, _, rfl, hr⟩
  | frame _ _ _ hu _ ih =>
    intro r hr
    obtain ⟨v, body, hv, he⟩ := ih r hr
    exact ⟨v, body, hv.trans (Accounts.frame hu).params, he⟩
  | lost _ _ _ _ ih | finds _ _ _ _ ih => exact ih

/-- FRAME_DECODE is refused by a full OUTQ or by DEC_PAYLOAD (R236, R237). -/
theorem frameDecode_eq_error {s : State} {body : Bytes} {r : RefusalReason} (h : s.frameDecode body = .error r) :
    s.params.outqCap ≠ none ∨ ∃ p, decPayload s.params p = .error r := by
  rcases frameDecode_cases s body with ⟨-, hs⟩ | ⟨-, -, hbad⟩ | ⟨-, -, ⟨r', hr', he⟩ | ⟨-, habs⟩ | ⟨r', -, -, hq⟩⟩
  · cases h.symm.trans hs
  · cases h.symm.trans hbad
  · cases h.symm.trans he
    exact .inr ⟨_, hr'⟩
  · cases h.symm.trans habs
  · rcases enqueue_cases (s.countedGood body) r' with ⟨-, c, hc, -⟩ | ⟨hadd, -⟩
    · exact .inl fun hnone => by cases hnone.symm.trans hc
    · cases h.symm.trans (hq.trans hadd)

/-! ## The statements -/

/-- Where every good body decodes, the queued results are as many as the good bodies that are not `Absent` (R245, law 2). -/
theorem length_filterMap_queuedOf {P : Params} {good : List Bytes}
    (h : ∀ b ∈ good, ∃ r, decPayload P (payloadOf P b) = .ok r) :
    (good.filterMap (queuedOf P)).length + good.countP (fun b => decPayload P (payloadOf P b) = .ok .absent) = good.length := by
  induction good with
  | nil => rfl
  | cons b good ih =>
    obtain ⟨⟨r, hr⟩, hgood⟩ := List.forall_mem_cons.mp h
    have := ih hgood
    by_cases ha : r = .absent
    · have hq : queuedOf P b = none := by rw [queuedOf_of_ok hr, if_pos ha]
      rw [List.filterMap_cons_none hq, List.countP_cons_of_pos (by simp [hr, ha]), List.length_cons]
      omega
    · have hq : queuedOf P b = some r := by rw [queuedOf_of_ok hr, if_neg ha]
      rw [List.filterMap_cons_some hq, List.countP_cons_of_neg (by simp [hr, ha]), List.length_cons, List.length_cons]
      omega

/-- Settles O35, by the account of the frames the drain loop takes. -/
theorem addBytesSettlesAndCountsOrIsRefused : Obligations.AddBytesSettlesAndCountsOrIsRefused := by
  intro data s
  rcases exec_addBytes_cases data s with ⟨hover, -⟩ | ⟨-, ⟨r, -, hr⟩ | ⟨t, hdrains, ht⟩⟩
  · exact .inl ⟨_, hover⟩
  · exact .inl ⟨r, hr⟩
  · have hacc : Accounts (s.fed data) t (s.bodiesOf data) := accounts_of_drains hdrains t rfl
    have hlength : t.outq.length - s.outq.length =
        ((goodBodies s.params (s.bodiesOf data)).filterMap (queuedOf s.params)).length := by
      rw [hacc.outq, List.length_append, Nat.add_sub_cancel_left]
    rw [hlength] at ht
    refine .inr ⟨_, _, ht, settled_of_drains hdrains t rfl, ?_, rfl, ?_, hacc.total,
      fun hw hs => ⟨hacc.good hw hs, hacc.all hw hs⟩⟩
    · obtain ⟨hparams, hrefused, hinput, hresults, houtq, -, -, -, -, -⟩ := hacc
      cases t
      cases hparams
      cases hrefused
      cases hinput
      cases hresults
      cases houtq
      rfl
    · exact length_filterMap_queuedOf fun b hb => by
        obtain ⟨hmem, hpass⟩ := List.mem_filter.mp hb
        exact hacc.answered b hmem (of_decide_eq_true hpass)

/-- With no vendor ID and a given `GPS_LAYOUT`, DEC_PAYLOAD is refused for no payload (R181, R196). -/
theorem decPayload_ne_error {P : Params} (hvendor : P.vendorIds = []) (hlayout : P.gpsLayout ≠ none) (p : Bytes)
    (r : RefusalReason) : decPayload P p ≠ .error r := by
  obtain ⟨L, hL⟩ := Option.ne_none_iff_exists'.mp hlayout
  cases p with
  | nil => exact nofun
  | cons id rest =>
    simp only [decPayload, hvendor, decGpstime, hL, List.contains_nil, Bool.false_eq_true, if_false]
    split_ifs <;> exact nofun

/-- Settles O36, by the sources of a refusal, none of which is there. -/
theorem addBytesCompletes : Obligations.AddBytesCompletes := by
  intro data s hbuf houtq hvendor hlayout
  rcases exec_addBytes_cases data s with ⟨-, hcap⟩ | ⟨-, ⟨r, hdrains, -⟩ | ⟨t, hdrains, ht⟩⟩
  · exact absurd hbuf hcap
  · obtain ⟨u, body, hu, he⟩ := refusal_of_drains hdrains r rfl
    rcases frameDecode_eq_error he with hcap | ⟨p, hp⟩
    · rw [hu] at hcap
      exact absurd houtq hcap
    · rw [hu] at hp
      exact absurd hp (decPayload_ne_error hvendor hlayout p r)
  · have hacc := accounts_of_drains hdrains t rfl
    refine ⟨_, _, ht, settled_of_drains hdrains t rfl, hacc.refused, hacc.outq, ?_⟩
    rw [hacc.outq, List.length_append, Nat.add_sub_cancel_left]
    exact congrArg (· ++ _) hacc.results

end Sys2Proof.Machine
end

section
/-! PROOFS. The message-ID map (30_encoding.md R63, 43_messages.md R181): DEC_PAYLOAD and the message rows both do what the kind of
the payload says, and the kind of each ID at lawful parameters; then O6, O33 and O34. -/

namespace Sys2Proof.Machine

/-! ## What a kind of payload decodes to -/

/-- The decode of a payload of a known kind (R181). -/
def decodeAs (P : Params) (p : Bytes) : MsgKind → Except RefusalReason DecodeResult
  | .heartbeat => .ok (decHeartbeat p)
  | .ownship => .ok (decReport P p 0x0A#8 .ownshipReport)
  | .traffic => .ok (decReport P p P.idTraffic .trafficReport)
  | .geoalt => .ok (decGeoalt p)
  | .uplink => .ok (decUplink P p)
  | .gpstime => decGpstime P p
  | .vendor => .error .vendorLayoutNotInSource
  | .unknown => .ok (match p with
    | [] => .invalid .malformedField
    | id :: _ => .unknown id p)

theorem decPayload_eq_decodeAs (P : Params) (p : Bytes) : decPayload P p = decodeAs P p (kindOfPayload P p) := by
  cases p with
  | nil => rfl
  | cons id rest =>
    simp only [decPayload, kindOfPayload, kindOfId]
    split_ifs <;> rfl

theorem exec_decPayload (p : Bytes) (s : State) :
    exec (.decPayload p) s = .next (s.finish (endingOfDecode (decodeAs s.params p (kindOfPayload s.params p)))) := by
  rw [← decPayload_eq_decodeAs]
  rfl

theorem exec_decodePayload (p : Bytes) (s : State) : exec (decodePayload s.params p) s =
    .next (s.finish (endingOfDecode (decodeAs s.params p (kindOfPayload s.params p)))) := by
  rw [decodePayload]
  cases kindOfPayload s.params p <;> rfl

/-- Settles O6: both sides end as the kind of the payload says. -/
theorem messageRowsAgreeWithDecPayload : Obligations.MessageRowsAgreeWithDecPayload := by
  intro s p
  rw [exec_decodePayload, exec_decPayload]

/-! ## The kind of each ID at lawful parameters -/

section
variable {P : Params} (h : paramsLawful P = true)
include h

theorem nodup_decodedIds : (decodedIds P).Nodup := by
  simp only [paramsLawful, Bool.and_eq_true, decide_eq_true_eq] at h
  exact h.1.1.1

theorem contains_vendorIds_of_mem {id : Byte} (hid : id ∈ decodedIds P) : P.vendorIds.contains id = false := by
  simp only [paramsLawful, Bool.and_eq_true, List.all_eq_true] at h
  simpa using h.1.1.2 id hid

theorem ctrW_le : P.ctrW ≤ 64 := by
  simp only [paramsLawful, Bool.and_eq_true, decide_eq_true_eq] at h
  exact h.1.2.2

theorem kindOfId_heartbeat : kindOfId P 0x00#8 = .heartbeat := by
  rw [kindOfId, contains_vendorIds_of_mem h (by simp [decodedIds])]
  rfl

theorem kindOfId_ownship : kindOfId P 0x0A#8 = .ownship := by
  rw [kindOfId, contains_vendorIds_of_mem h (by simp [decodedIds])]
  rfl

theorem kindOfId_traffic : kindOfId P P.idTraffic = .traffic := by
  have hne := nodup_decodedIds h
  simp only [decodedIds, List.nodup_cons, List.mem_cons, not_or] at hne
  obtain ⟨⟨-, -, h0, -⟩, ⟨-, hA, -⟩, -⟩ := hne
  rw [kindOfId, contains_vendorIds_of_mem h (by simp [decodedIds])]
  simp [Ne.symm h0, Ne.symm hA]

theorem kindOfId_geoalt : kindOfId P P.idGeoalt = .geoalt := by
  have hne := nodup_decodedIds h
  simp only [decodedIds, List.nodup_cons, List.mem_cons, not_or] at hne
  obtain ⟨⟨-, -, -, h0, -⟩, ⟨-, -, hA, -⟩, -, ⟨hT, -⟩, -⟩ := hne
  rw [kindOfId, contains_vendorIds_of_mem h (by simp [decodedIds])]
  simp [Ne.symm h0, Ne.symm hA, Ne.symm hT]

theorem kindOfId_uplink : kindOfId P P.idUplink = .uplink := by
  have hne := nodup_decodedIds h
  simp only [decodedIds, List.nodup_cons, List.mem_cons, not_or] at hne
  obtain ⟨⟨-, -, -, -, h0, -⟩, ⟨-, -, -, hA, -⟩, -, ⟨-, hT, -⟩, ⟨hG, -⟩, -⟩ := hne
  rw [kindOfId, contains_vendorIds_of_mem h (by simp [decodedIds])]
  simp [Ne.symm h0, Ne.symm hA, Ne.symm hT, Ne.symm hG]

theorem kindOfId_gpstime : kindOfId P 0x65#8 = .gpstime := by
  have hne := nodup_decodedIds h
  simp only [decodedIds, List.nodup_cons, List.mem_cons, not_or] at hne
  obtain ⟨-, -, ⟨hT, hG, hU, -⟩, -⟩ := hne
  rw [kindOfId, contains_vendorIds_of_mem h (by simp [decodedIds])]
  simp [hT, hG, hU]

end

theorem kindOfPayload_eq_kindOfId {P : Params} {p : Bytes} (h : p ≠ []) : kindOfPayload P p = kindOfId P (p.headD 0#8) := by
  obtain ⟨id, rest, rfl⟩ := List.exists_cons_of_ne_nil h
  rfl

theorem kindOfId_vendor {P : Params} {id : Byte} (h : id ∈ P.vendorIds) : kindOfId P id = .vendor :=
  if_pos (List.contains_iff_mem.mpr h)

theorem kindOfId_unknown {P : Params} {id : Byte} (hvendor : id ∉ P.vendorIds)
    (h : id ∉ [0x00#8, 0x0A#8, P.idTraffic, P.idGeoalt, P.idUplink, 0x65#8]) : kindOfId P id = .unknown := by
  simp only [List.mem_cons, List.not_mem_nil, or_false, not_or] at h
  obtain ⟨h0, hA, hT, hG, hU, h65⟩ := h
  simp [kindOfId, hvendor, h0, hA, hT, hG, hU, h65]

/-- A payload's ID settles its kind, and the kind what DEC_PAYLOAD does. -/
theorem exec_decPayload_of_kind {s : State} {id : Byte} {rest : Bytes} {kind : MsgKind} (h : kindOfId s.params id = kind) :
    exec (.decPayload (id :: rest)) s = .next (s.finish (endingOfDecode (decodeAs s.params (id :: rest) kind))) := by
  rw [exec_decPayload, kindOfPayload, h]

/-- A GPS time of 12 or 21 bytes needs the layout (R196). -/
theorem decGpstime_of_no_layout {P : Params} {p : Bytes} (hlength : p.length = 12 ∨ p.length = 21)
    (hlayout : P.gpsLayout = none) : decGpstime P p = .error .gpsLayoutOpen := by
  rw [decGpstime, if_neg (by omega), if_neg (by omega), hlayout]

/-- Settles O34, by the kind of each ID. -/
theorem decPayloadFollowsTheIdMap : Obligations.DecPayloadFollowsTheIdMap := fun _ _ h =>
  ⟨rfl, exec_decPayload_of_kind (kindOfId_heartbeat h), exec_decPayload_of_kind (kindOfId_ownship h),
    exec_decPayload_of_kind (kindOfId_traffic h), exec_decPayload_of_kind (kindOfId_geoalt h),
    exec_decPayload_of_kind (kindOfId_uplink h), exec_decPayload_of_kind (kindOfId_gpstime h),
    fun _ hid => exec_decPayload_of_kind (kindOfId_vendor hid),
    fun _ hvendor hid => exec_decPayload_of_kind (kindOfId_unknown hvendor hid)⟩

/-- Settles O33, by how the two rows end. -/
theorem unknownAndVendorPayloads : Obligations.UnknownAndVendorPayloads :=
  ⟨fun _ _ _ => rfl, fun _ => rfl, fun _ _ => rfl⟩

end Sys2Proof.Machine
end

section
/-! PROOFS. UNESCAPE (41_frame.md R121, R123): its equations and that it undoes ESCAPE, then O12. -/

namespace Sys2Proof.Machine

section
variable (mode : LoneEsc)

@[simp] theorem unescape_nil : unescape mode [] = [] := rfl

theorem unescape_cons_of_ne {b : Byte} (h : b ≠ escByte) (rest : Bytes) :
    unescape mode (b :: rest) = b :: unescape mode rest := by
  cases rest with
  | nil => exact if_neg h
  | cons c rest => rw [unescape, if_neg h]

theorem unescape_pair (c : Byte) (rest : Bytes) :
    unescape mode (escByte :: c :: rest) = (c ^^^ 0x20#8) :: unescape mode rest := by
  rw [unescape, if_pos rfl]

/-- The two bytes of a stuffed pair, or the byte itself, give the byte back (R123). -/
theorem unescape_escapeByte_append (b : Byte) (rest : Bytes) :
    unescape mode (escapeByte b ++ rest) = b :: unescape mode rest := by
  by_cases h : b = escByte ∨ b = flagByte
  · rw [escapeByte_of_reserved h, List.cons_append, List.singleton_append, unescape_pair, BitVec.xor_assoc,
      BitVec.xor_self, BitVec.xor_zero]
  · rw [escapeByte_of_not_reserved h, List.singleton_append, unescape_cons_of_ne mode (fun he => h (.inl he))]

theorem unescape_escape (data : Bytes) : unescape mode (escape data) = data := by
  induction data with
  | nil => rfl
  | cons b data ih => rw [escape_cons, unescape_escapeByte_append, ih]

end

theorem exec_unescape (data : Bytes) (s : State) :
    exec (.unescape data) s = .next (s.okWith (putBytesResult (unescape s.params.loneEsc data))) := rfl

/-- Settles O12, by the equations of `unescape` and its inversion of each stuffed byte. -/
theorem unescapeConsumesPairsAndInvertsEscape : Obligations.UnescapeConsumesPairsAndInvertsEscape := by
  refine ⟨fun data s => ⟨exec_unescape data s, by rw [exec_unescape, unescape_escape]⟩, fun mode => ⟨unescape_nil mode,
    fun b rest hb => unescape_cons_of_ne mode hb rest, unescape_pair mode, ?_, ?_, unescape_escape mode⟩⟩
  · rintro rfl
    rfl
  · rintro rfl
    rfl

end Sys2Proof.Machine
end

section
/-! PROOFS. Commands of ADD_BYTES that carry one frame or none to a CORE whose BUF is known (44_stream.md R233 to R237;
70_reset_and_hazards.md R343), then O38, O39, O40, O43 and O44. -/

namespace Sys2Proof.Machine

/-! ## One frame and BUF empty -/

/-- CORE with BUF empty after one whole frame is taken and before its body is decoded: the frame counted, SYNC true, and one
RESYNC counted where SYNC was false (R233, R235). -/
abbrev State.tookFrame (s : State) : State :=
  { s with
    sync := true
    resyncCount := if s.sync then s.resyncCount else bump s.params.ctrW s.resyncCount
    totalFrames := bump s.params.ctrW s.totalFrames }

/-- A synchronized reader whose BUF is one whole frame takes it; what decoding its body gives is the outcome. -/
theorem drains_of_buf_eq_frame {v : State} {body : Bytes} (hsync : v.sync = true)
    (hbuf : v.buf = flagByte :: (body ++ [flagByte])) (hflag : flagByte ∉ body) :
    Drains v ((v.dropFrame []).frameDecode body) := by
  cases hu : (v.dropFrame []).frameDecode body with
  | error r => exact .refuses hsync hbuf hflag hu
  | ok u =>
    refine .frame hsync hbuf hflag hu ?_
    obtain ⟨st, q, rfl⟩ := frameDecode_eq_ok hu
    exact .idle hsync rfl

/-- After a body that is not empty and holds no flag, the next byte is no flag. -/
theorem head?_append_ne_flagByte {body : Bytes} (hne : body ≠ []) (hflag : flagByte ∉ body) (rest : Bytes) :
    (body ++ rest).head? ≠ some flagByte := by
  obtain ⟨b, more, rfl⟩ := List.exists_cons_of_ne_nil hne
  rw [List.cons_append, List.head?_cons]
  exact fun h => hflag (Option.some.inj h ▸ List.mem_cons_self)

section
variable {s : State} {body : Bytes} (hbuf : s.buf = []) (hflag : flagByte ∉ body)
include hbuf hflag

/-- A synchronized CORE takes the frame at once (R235). -/
theorem drains_frame_of_sync (hsync : s.sync = true) :
    Drains (s.fed ([flagByte] ++ body ++ [flagByte])) (s.tookFrame.frameDecode body) := by
  have htook : (s.fed ([flagByte] ++ body ++ [flagByte])).dropFrame [] = s.tookFrame := by
    cases s
    cases hbuf
    cases hsync
    rfl
  rw [← htook]
  exact drains_of_buf_eq_frame hsync (by simp [hbuf]) hflag

/-- A CORE out of step finds the opening flag first, where the body is not empty (R233 case (c)). -/
theorem drains_frame (hne : body ≠ []) :
    Drains (s.fed ([flagByte] ++ body ++ [flagByte])) (s.tookFrame.frameDecode body) := by
  by_cases hsync : s.sync = true
  · exact drains_frame_of_sync hbuf hflag hsync
  · have hlost : s.sync = false := Bool.eq_false_of_not_eq_true hsync
    have hrest : resyncBuf (body ++ [flagByte]) = flagByte :: (body ++ [flagByte]) :=
      resyncBuf_of_ne (head?_append_ne_flagByte hne hflag _)
    have htook : ((s.fed ([flagByte] ++ body ++ [flagByte])).resynced (body ++ [flagByte])).dropFrame [] = s.tookFrame := by
      cases s
      cases hbuf
      cases hlost
      rfl
    refine .finds (garbage := []) (rest := body ++ [flagByte]) hlost (by simp [hbuf]) List.not_mem_nil ?_
    rw [← htook]
    exact drains_of_buf_eq_frame rfl hrest hflag

end

/-- What ADD_BYTES of one frame answers where decoding its body is not refused. -/
theorem exec_addBytes_of_frame {s u : State} {body : Bytes} (hbuf : s.buf = [])
    (hcap : withinCap s.params.bufCap (body.length + 2))
    (h : Drains (s.fed ([flagByte] ++ body ++ [flagByte])) (.ok u)) :
    exec (.addBytes ([flagByte] ++ body ++ [flagByte])) s =
      .next (u.okWith (putU32 (u.outq.length - s.outq.length))) :=
  exec_addBytes_of_drains (by simpa [hbuf] using hcap) h

theorem exec_addBytes_of_refused_frame {s : State} {body : Bytes} {r : RefusalReason} (hbuf : s.buf = [])
    (hcap : withinCap s.params.bufCap (body.length + 2))
    (h : Drains (s.fed ([flagByte] ++ body ++ [flagByte])) (.error r)) :
    exec (.addBytes ([flagByte] ++ body ++ [flagByte])) s = .next (s.refusedWith r) :=
  exec_addBytes_of_drains_error (by simpa [hbuf] using hcap) h

/-! ## The frame of a payload -/

section
variable (P : Params) (p : Bytes)

theorem payloadOf_escape : payloadOf P (escape (p ++ crcBytes p)) = p := by
  have hlength : (p ++ crcBytes p).length - 2 = p.length := by simp [crcBytes]
  rw [payloadOf, unescape_escape, hlength, List.take_left]

theorem passesCheck_escape (h : 3 ≤ p.length) : passesCheck P (escape (p ++ crcBytes p)) := by
  have hlength : (p ++ crcBytes p).length = p.length + 2 := by simp [crcBytes]
  rw [passesCheck, payloadOf_escape, unescape_escape, hlength, Nat.add_sub_cancel, List.drop_left]
  exact ⟨by omega, rfl⟩

theorem idOf_escape (h : p ≠ []) : idOf P (escape (p ++ crcBytes p)) = p.headD 0#8 := by
  obtain ⟨b, more, rfl⟩ := List.exists_cons_of_ne_nil h
  rw [idOf, unescape_escape, List.cons_append, List.headD_cons, List.headD_cons]

/-- An encoded payload of any length is a body that is not empty: it holds the check bytes. -/
theorem escape_append_crcBytes_ne_nil : escape (p ++ crcBytes p) ≠ [] := by
  intro h
  have := unescape_escape .keep (p ++ crcBytes p)
  rw [h] at this
  simp [crcBytes] at this

end

/-- Settles O38, by the one frame the loop takes. -/
theorem preparedFrameIsDecodedAndCounted : Obligations.PreparedFrameIsDecodedAndCounted := by
  intro s p r hbuf hlength hcap hq hd
  have hframe : prepareFrame p = [flagByte] ++ escape (p ++ crcBytes p) ++ [flagByte] := rfl
  have hne : p ≠ [] := List.ne_nil_of_length_pos (by omega)
  rw [hframe] at hcap ⊢
  have hpass := passesCheck_escape s.params p hlength
  have hd' : decPayload s.params (payloadOf s.params (escape (p ++ crcBytes p))) = .ok r := by rwa [payloadOf_escape]
  have hdrains := drains_frame hbuf (flagByte_not_mem_escape (p ++ crcBytes p)) (escape_append_crcBytes_ne_nil p)
  have hcap' : withinCap s.params.bufCap ((escape (p ++ crcBytes p)).length + 2) := by simpa using hcap
  by_cases ha : r = .absent
  · rw [frameDecode_of_absent (s := s.tookFrame) hpass (ha ▸ hd')] at hdrains
    rw [exec_addBytes_of_frame hbuf hcap' hdrains, State.countedGood, idOf_escape _ _ hne, ha]
    simp [putU32]
  · rw [frameDecode_of_ok (s := s.tookFrame) hpass hd' ha,
      enqueue_of_withinCap (s := s.tookFrame.countedGood _) hq] at hdrains
    rw [exec_addBytes_of_frame hbuf hcap' hdrains, State.countedGood, idOf_escape _ _ hne]
    simp [putU32, ha]

/-- Settles O39, by what FRAME_DECODE does with the one body. -/
theorem rejectedFramesAreOnlyCounted : Obligations.RejectedFramesAreOnlyCounted := by
  intro s body hbuf hsync hflag hcap
  have hdrains := drains_frame_of_sync hbuf hflag hsync
  have hzero : putU32 (s.outq.length - s.outq.length) = [0x00#8, 0x00#8, 0x00#8, 0x00#8] := by
    rw [Nat.sub_self]
    decide
  refine ⟨fun hshort => ?_, fun hlong hcrc => ?_⟩
  · rw [frameDecode_of_isShort (s := s.tookFrame) hshort] at hdrains
    rw [exec_addBytes_of_frame hbuf hcap hdrains, hzero, State.tookFrame, hsync]
    rfl
  · rw [frameDecode_of_fails (s := s.tookFrame) (Nat.not_lt.mpr hlong) fun hpass => hcrc hpass.2] at hdrains
    rw [exec_addBytes_of_frame hbuf hcap hdrains, hzero, State.countedBad, State.tookFrame, hsync]
    rfl

/-! ## RESYNC -/

/-- The state after one RESYNC, with nothing decoded. -/
abbrev State.afterResync (s : State) (buf : Bytes) (sync : Bool) : State :=
  { s with buf := buf, sync := sync, resyncCount := bump s.params.ctrW s.resyncCount }

/-- What ADD_BYTES answers where one RESYNC is all that happened: no result. -/
theorem exec_addBytes_of_resync {s : State} {d buf : Bytes} {sync : Bool} (hcap : s.params.bufCap = none)
    (h : Drains (s.fed d) (.ok (s.afterResync buf sync))) :
    exec (.addBytes d) s = .next ((s.afterResync buf sync).okWith [0x00#8, 0x00#8, 0x00#8, 0x00#8]) := by
  have hunbounded : withinCap s.params.bufCap (s.buf.length + d.length) := by
    rw [hcap]
    exact nofun
  rw [exec_addBytes_of_drains hunbounded h, Nat.sub_self]
  rfl

/-- Garbage up to a flag byte, and what RESYNC leaves holds no frame (R233 cases (b) and (c)). -/
theorem drains_of_garbage {s : State} {garbage rest tail : Bytes} (hbuf : s.buf = []) (hsync : s.sync = false)
    (hgarbage : flagByte ∉ garbage) (hrest : resyncBuf rest = flagByte :: tail) (htail : flagByte ∉ tail) :
    Drains (s.fed (garbage ++ flagByte :: rest)) (.ok (s.afterResync (flagByte :: tail) true)) := by
  refine .finds (garbage := garbage) (rest := rest) hsync (by rw [State.fed, hbuf, List.nil_append]) hgarbage ?_
  rw [State.resynced, hrest]
  exact .waits rfl rfl htail

/-- Settles O40, by the three cases of RESYNC. -/
theorem resyncDiscardsToTheFlag : Obligations.ResyncDiscardsToTheFlag := by
  intro s garbage tail hbuf hsync hcap hgarbage htail
  refine ⟨?exhausted, ?pair, ?lone⟩
  case exhausted =>
    have h : Drains (s.fed garbage) (.ok (s.afterResync s.buf s.sync)) := by
      rw [State.afterResync, hbuf]
      exact .exhausts hsync (by rwa [State.fed, hbuf, List.nil_append])
    exact exec_addBytes_of_resync hcap h
  case pair =>
    rw [List.append_assoc]
    exact exec_addBytes_of_resync hcap (drains_of_garbage hbuf hsync hgarbage (resyncBuf_of_flag rfl) htail)
  case lone =>
    have hhead : tail.head? ≠ some flagByte := fun h => htail (List.mem_of_head? h)
    rw [List.append_assoc]
    exact exec_addBytes_of_resync hcap (drains_of_garbage hbuf hsync hgarbage (resyncBuf_of_ne hhead) htail)

theorem isShort_nil (P : Params) : isShort P [] := by simp

/-- Settles O43, pass by pass: the empty frame between the two flags, the lost SYNC, the flag found at the end. -/
theorem loneFlagStateLosesOneFrameCommands : Obligations.LoneFlagStateLosesOneFrameCommands := by
  intro s e hbuf hsync hne hflag hcap
  have hend : { (s.fed ([flagByte] ++ e ++ [flagByte])).dropFrame (e ++ [flagByte]) with sync := false }.resynced [] =
      { s with
        resyncCount := bump s.params.ctrW s.resyncCount
        totalFrames := bump s.params.ctrW s.totalFrames } := by
    cases s
    cases hbuf
    cases hsync
    rfl
  have hdrains : Drains (s.fed ([flagByte] ++ e ++ [flagByte])) (.ok { s with
      resyncCount := bump s.params.ctrW s.resyncCount
      totalFrames := bump s.params.ctrW s.totalFrames }) := by
    refine .frame hsync (body := []) (rest := e ++ [flagByte]) (by simp [hbuf]) List.not_mem_nil
      (frameDecode_of_isShort (isShort_nil _)) ?_
    refine .lost hsync (by simp) (head?_append_ne_flagByte hne hflag _) ?_
    refine .finds (garbage := e) (rest := []) rfl rfl hflag ?_
    rw [hend]
    exact .waits hsync hbuf List.not_mem_nil
  have hlength : s.buf.length + ([flagByte] ++ e ++ [flagByte]).length = e.length + 3 := by
    simp only [hbuf, List.length_append, List.length_singleton]
    omega
  rw [exec_addBytes_of_drains (by rwa [hlength]) hdrains, Nat.sub_self]
  rfl

/-! ## Refusals -/

/-- A body that passes its check has an ID: it is not empty. -/
theorem ne_nil_of_passesCheck {P : Params} {body : Bytes} (h : passesCheck P body) : body ≠ [] := by
  rintro rfl
  exact absurd h.1 (by simp)

/-- A body that passes its check has a payload of 3 bytes or more. -/
theorem payloadOf_ne_nil {P : Params} {body : Bytes} (h : passesCheck P body) : payloadOf P body ≠ [] := by
  have h5 := h.1
  exact List.ne_nil_of_length_pos (by rw [List.length_take]; omega)

/-- Settles O44: the append by the capacity, the frame by what FRAME_DECODE is refused for. -/
theorem addBytesRefusals : Obligations.AddBytesRefusals := by
  refine ⟨fun s data cap hcap => ⟨exec_addBytes_of_overflow hcap, fun hle => bufAppend_of_withinCap ?_⟩, ?_⟩
  · rw [hcap]
    rintro c ⟨⟩
    exact hle
  intro s body hbuf hflag hcap hpass
  have hdrains := drains_frame hbuf hflag (ne_nil_of_passesCheck hpass)
  have refused {r : RefusalReason} (h : s.tookFrame.frameDecode body = .error r) :
      exec (.addBytes ([flagByte] ++ body ++ [flagByte])) s = .next (s.refusedWith r) :=
    exec_addBytes_of_refused_frame hbuf hcap (h ▸ hdrains)
  have refusedByKind {kind : MsgKind} {r : RefusalReason} (hkind : kindOfId s.params ((payloadOf s.params body).headD 0#8) = kind)
      (h : decodeAs s.params (payloadOf s.params body) kind = .error r) :
      exec (.addBytes ([flagByte] ++ body ++ [flagByte])) s = .next (s.refusedWith r) := by
    refine refused (frameDecode_of_error (s := s.tookFrame) hpass ?_)
    rwa [decPayload_eq_decodeAs, kindOfPayload_eq_kindOfId (payloadOf_ne_nil hpass), hkind]
  refine ⟨fun cap r hq hle hd ha => refused ?_, fun hvendor => refusedByKind (kindOfId_vendor hvendor) rfl,
    fun hlawful hid hlength hlayout =>
      refusedByKind (kind := .gpstime) (by rw [hid, kindOfId_gpstime hlawful]) (decGpstime_of_no_layout hlength hlayout)⟩
  rw [frameDecode_of_ok (s := s.tookFrame) hpass hd ha]
  exact enqueue_of_full hq hle

end Sys2Proof.Machine
end

section
/-! PROOFS. The arithmetic the field codecs share (00_scope.md R11, 42_fields.md R141): what `truncQ` and `roundQ` give, and which
number the binary64 of a dyadic rational denotes. -/

namespace Sys2Proof.Machine

/-! ## Truncation and rounding of a rational -/

/-- Rounding is the floor, or the next integer where the rest is at least a half. -/
theorem roundQ_cases (mode : RoundMode) (num : Int) (den : Nat) :
    (roundQ mode num den = Int.fdiv num den ∧ 2 * Int.fmod num den ≤ den ∧
      (2 * Int.fmod num den = den → mode = .halfEven → Int.fdiv num den % 2 = 0)) ∨
    (roundQ mode num den = Int.fdiv num den + 1 ∧ den ≤ 2 * Int.fmod num den ∧
      (2 * Int.fmod num den = den → mode = .halfEven → (Int.fdiv num den + 1) % 2 = 0)) := by
  unfold roundQ
  cases mode with
  | halfEven =>
    dsimp only
    split_ifs with hbelow habove heven
    · exact .inl ⟨rfl, by omega, by omega⟩
    · exact .inr ⟨rfl, by omega, by omega⟩
    · exact .inl ⟨rfl, by omega, fun _ _ => heven⟩
    · exact .inr ⟨rfl, by omega, by omega⟩
  | halfAway =>
    dsimp only
    split_ifs
    · exact .inl ⟨rfl, by omega, fun _ => nofun⟩
    · exact .inr ⟨rfl, by omega, fun _ => nofun⟩
    · exact .inl ⟨rfl, by omega, fun _ => nofun⟩
    · exact .inr ⟨rfl, by omega, fun _ => nofun⟩

section
variable {den : Nat} (hden : 0 < den)
include hden

/-- Truncation goes toward zero, by less than one. -/
theorem truncQ_bounds (num : Int) :
    (0 ≤ num → 0 ≤ truncQ num den) ∧ (num ≤ 0 → truncQ num den ≤ 0) ∧
      (truncQ num den).natAbs * den ≤ num.natAbs ∧ num.natAbs < ((truncQ num den).natAbs + 1) * den := by
  have habs : (truncQ num den).natAbs = num.natAbs / den := Int.natAbs_tdiv num den
  refine ⟨fun h => Int.tdiv_nonneg h (Int.natCast_nonneg den), fun h => ?_, ?_, ?_⟩
  · obtain ⟨n, rfl⟩ := Int.exists_eq_neg_ofNat h
    rw [truncQ, Int.neg_tdiv]
    exact Int.neg_nonpos_of_nonneg (Int.tdiv_nonneg (Int.natCast_nonneg n) (Int.natCast_nonneg den))
  · rw [habs]
    exact Nat.div_mul_le_self _ _
  · rw [habs, Nat.mul_comm]
    exact Nat.lt_mul_div_succ _ hden

theorem truncQ_mul_self (q : Int) : truncQ (q * den) den = q := Int.mul_tdiv_cancel q (by omega)

/-- Rounding gives an integer at most half away, and an even one on a tie under `halfEven`. -/
theorem roundQ_bounds (mode : RoundMode) (num : Int) :
    2 * (num - roundQ mode num den * den).natAbs ≤ den ∧
      (2 * (num - roundQ mode num den * den).natAbs = den → mode = .halfEven → roundQ mode num den % 2 = 0) := by
  have hpos : (0 : Int) < den := by omega
  have hsum : Int.fmod num den + den * Int.fdiv num den = num := Int.fmod_add_mul_fdiv num den
  have hlow : 0 ≤ Int.fmod num den := Int.fmod_nonneg_of_pos num hpos
  have hhigh : Int.fmod num den < den := Int.fmod_lt_of_pos num hpos
  rcases roundQ_cases mode num den with ⟨hq, hle, htie⟩ | ⟨hq, hle, htie⟩
  · have hrest : num - Int.fdiv num den * den = Int.fmod num den := by linarith
    rw [hq, hrest]
    exact ⟨by omega, fun h => htie (by omega)⟩
  · have hrest : num - (Int.fdiv num den + 1) * den = Int.fmod num den - den := by linarith
    rw [hq, hrest]
    exact ⟨by omega, fun h => htie (by omega)⟩

theorem roundQ_mul_self (mode : RoundMode) (q : Int) : roundQ mode (q * den) den = q := by
  have hzero : Int.fmod (q * den) den = 0 := Int.mul_fmod_left q den
  have hq : Int.fdiv (q * den) den = q := Int.mul_fdiv_cancel q (by omega)
  unfold roundQ
  rw [hzero, hq]
  exact if_pos (by omega)

end

/-! ## Binary64 -/

/-- The number a binary64 with a normal exponent denotes, from its three fields (IEEE 754). -/
theorem realOf_of_fields (negative : Bool) {e f : Nat} (he : 0 < e) (he' : e < 2047) (hf : f < 2 ^ 52) :
    realOf (BitVec.ofNat 64 ((if negative then 2 ^ 63 else 0) + e * 2 ^ 52 + f)) =
      .finite ((if negative then -1 else 1) * ((2 ^ 52 + f) * 2 ^ (e - 1075) : Nat)) (2 ^ (1075 - e)) := by
  generalize hn : (if negative then 2 ^ 63 else 0) + e * 2 ^ 52 + f = n
  have hlt : n < 2 ^ 64 := by cases negative <;> simp at hn <;> omega
  have hmsb : (BitVec.ofNat 64 n).msb = negative := by
    rw [BitVec.msb_eq_decide, BitVec.toNat_ofNat, Nat.mod_eq_of_lt hlt]
    cases negative <;> simp at hn ⊢ <;> omega
  have hexp : ((BitVec.ofNat 64 n).extractLsb' 52 11).toNat = e := by
    rw [BitVec.extractLsb'_toNat, BitVec.toNat_ofNat, Nat.mod_eq_of_lt hlt, Nat.shiftRight_eq_div_pow]
    cases negative <;> simp at hn <;> omega
  have hfrac : ((BitVec.ofNat 64 n).extractLsb' 0 52).toNat = f := by
    rw [BitVec.extractLsb'_toNat, BitVec.toNat_ofNat, Nat.mod_eq_of_lt hlt, Nat.shiftRight_zero]
    cases negative <;> simp at hn <;> omega
  simp only [realOf, hmsb, hexp, hfrac, if_neg (Nat.ne_of_lt he'), if_neg (Nat.ne_of_gt he)]
  congr 1
  cases negative
  · exact (one_mul _).symm
  · exact (neg_one_mul _).symm

theorem realOf_zero : ∃ den, 0 < den ∧ realOf 0#64 = .finite 0 den := ⟨_, Nat.two_pow_pos _, rfl⟩

/-- `f64OfDyadic m k` denotes exactly `m / 2^k`, where `m` fits the fraction and the exponent stays normal (R141). -/
theorem realOf_f64OfDyadic {m : Int} {k : Nat} (hm : m.natAbs < 2 ^ 53) (hk : k < 1023) :
    ∃ (num : Int) (den : Nat), 0 < den ∧ realOf (f64OfDyadic m k) = .finite num den ∧ num * 2 ^ k = m * den := by
  by_cases hzero : m = 0
  · subst hzero
    obtain ⟨den, hden, hreal⟩ := realOf_zero
    exact ⟨0, den, hden, hreal, by rw [zero_mul, zero_mul]⟩
  · have ha : m.natAbs ≠ 0 := Int.natAbs_ne_zero.mpr hzero
    have hle : m.natAbs.log2 ≤ 52 := Nat.le_of_lt_succ ((Nat.log2_lt ha).mpr hm)
    generalize hlog : m.natAbs.log2 = e at hle
    have hlow : 2 ^ e ≤ m.natAbs := hlog ▸ Nat.log2_self_le ha
    have hhigh : m.natAbs < 2 ^ (e + 1) := hlog ▸ Nat.lt_log2_self
    have hpow : 2 ^ e * 2 ^ (52 - e) = 2 ^ 52 := by rw [← Nat.pow_add]; congr 1; omega
    have hscaled : 2 ^ 52 ≤ m.natAbs * 2 ^ (52 - e) := hpow ▸ Nat.mul_le_mul_right _ hlow
    have hscaled' : m.natAbs * 2 ^ (52 - e) < 2 ^ 53 := by
      have := Nat.mul_lt_mul_of_pos_right hhigh (Nat.two_pow_pos (52 - e))
      rw [Nat.pow_succ, Nat.mul_right_comm, hpow] at this
      exact this
    have hbits : f64OfDyadic m k = BitVec.ofNat 64 ((if decide (m < 0) then 2 ^ 63 else 0) + (e + 1023 - k) * 2 ^ 52 +
        (m.natAbs * 2 ^ (52 - e) - 2 ^ 52)) := by
      simp only [f64OfDyadic, if_neg hzero, hlog, decide_eq_true_eq]
    refine ⟨m * 2 ^ (52 - e), 2 ^ (52 - e + k), by positivity, ?_, by push_cast; ring⟩
    rw [hbits, realOf_of_fields (decide (m < 0)) (by omega) (by omega) (by omega),
      show e + 1023 - k - 1075 = 0 by omega, show 1075 - (e + 1023 - k) = 52 - e + k by omega, Nat.pow_zero, Nat.mul_one,
      Nat.add_sub_cancel' hscaled]
    congr 1
    push_cast
    by_cases hneg : m < 0
    · rw [decide_eq_true hneg, if_pos rfl, abs_of_neg hneg]
      ring
    · rw [decide_eq_false hneg, if_neg Bool.false_ne_true, abs_of_nonneg (by omega), one_mul]

/-- The denominator of what a binary64 denotes is positive. -/
theorem den_pos_of_realOf {b : F64} {num : Int} {den : Nat} (h : realOf b = .finite num den) : 0 < den := by
  unfold realOf at h
  dsimp only at h
  split_ifs at h
  all_goals exact (Nat.two_pow_pos _).trans_eq (RealVal.finite.inj h).2

end Sys2Proof.Machine
end

section
/-! PROOFS. The coordinate and track codecs (42_fields.md R142 to R144, R151, R152, R163): both coordinate encoders are one with a
limit; decoded codes are exact; then O14, O15, O16, O17 and O18. -/

namespace Sys2Proof.Machine

/-! ## Coordinates -/

/-- `lat_enc` and `lon_enc` (R142, R143): the same encoder, with the limit 90 or 180. -/
def coordEnc (limit : Nat) (deg : F64) : Except Status (BitVec 24) := (clampDegrees limit deg).map coordCode

theorem latEnc_eq_coordEnc (deg : F64) : latEnc deg = coordEnc 90 deg := rfl

theorem lonEnc_eq_coordEnc (deg : F64) : lonEnc deg = coordEnc 180 deg := rfl

section
variable {limit : Nat} {deg : F64}

theorem coordEnc_of_nan (h : realOf deg = .nan) : coordEnc limit deg = .error .encodeValueOutOfRange := by
  rw [coordEnc, clampDegrees, h]
  rfl

theorem coordEnc_of_infinite {negative : Bool} (h : realOf deg = .infinite negative) :
    coordEnc limit deg = .ok (coordCode (if negative then -(limit : Int) else (limit : Int), 1)) := by
  rw [coordEnc, clampDegrees, h]
  rfl

section
variable {num : Int} {den : Nat} (h : realOf deg = .finite num den)
include h

theorem coordEnc_of_above (hnum : (limit * den : Nat) < num) : coordEnc limit deg = .ok (coordCode ((limit : Int), 1)) := by
  rw [coordEnc, clampDegrees, h]
  simp only [gt_iff_lt, if_pos hnum]
  rfl

theorem coordEnc_of_below (hnum : num < -((limit * den : Nat) : Int)) :
    coordEnc limit deg = .ok (coordCode (-(limit : Int), 1)) := by
  rw [coordEnc, clampDegrees, h]
  simp only [gt_iff_lt, if_neg (show ¬ (limit * den : Nat) < num by omega), if_pos hnum]
  rfl

theorem coordEnc_of_inside (hlow : -((limit * den : Nat) : Int) ≤ num) (hhigh : num ≤ (limit * den : Nat)) :
    coordEnc limit deg = .ok (BitVec.ofInt 24 (truncQ (num * 2 ^ 23) (180 * den))) := by
  rw [coordEnc, clampDegrees, h]
  simp only [gt_iff_lt, if_neg (not_lt.mpr hhigh), if_neg (not_lt.mpr hlow)]
  rfl

/-- Every operand that is a number has a code (R142, R143). -/
theorem coordEnc_of_finite : ∃ code, coordEnc limit deg = .ok code := by
  by_cases hhigh : (limit * den : Nat) < num
  · exact ⟨_, coordEnc_of_above h hhigh⟩
  · by_cases hlow : num < -((limit * den : Nat) : Int)
    · exact ⟨_, coordEnc_of_below h hlow⟩
    · exact ⟨_, coordEnc_of_inside h (not_lt.mp hlow) (not_lt.mp hhigh)⟩

end

/-- A coordinate operand is out of the encoders' range exactly when it is NaN (R303). -/
theorem coordEnc_of_ne_nan (h : realOf deg ≠ .nan) : ∃ code, coordEnc limit deg = .ok code := by
  cases hreal : realOf deg with
  | nan => exact absurd hreal h
  | infinite negative => exact ⟨_, coordEnc_of_infinite hreal⟩
  | finite num den => exact coordEnc_of_finite hreal

end

/-- The step toward zero from the exact product (R142, R143), against the operand itself. -/
theorem coordStep_bounds (num : Int) {den : Nat} (hden : 0 < den) :
    let q := truncQ (num * 2 ^ 23) (180 * den)
    (0 ≤ num → 0 ≤ q) ∧ (num ≤ 0 → q ≤ 0) ∧ q.natAbs * (180 * den) ≤ num.natAbs * 2 ^ 23 ∧
      num.natAbs * 2 ^ 23 < (q.natAbs + 1) * (180 * den) := by
  obtain ⟨hpos, hneg, hlow, hhigh⟩ := truncQ_bounds (show 0 < 180 * den by omega) (num * 2 ^ 23)
  rw [Int.natAbs_mul] at hlow hhigh
  exact ⟨fun h => hpos (by omega), fun h => hneg (by omega), hlow, hhigh⟩

/-- A decoded coordinate denotes exactly `sext_24(raw) * 180 / 2^23` (R144). -/
theorem realOf_coordDec (raw : BitVec 24) : ∃ (num : Int) (den : Nat), 0 < den ∧ realOf (coordDec raw) = .finite num den ∧
    num * 2 ^ 23 = raw.toInt * 180 * den := by
  have hlow := BitVec.le_toInt raw
  have hhigh := BitVec.toInt_lt (x := raw)
  exact realOf_f64OfDyadic (by omega) (by decide)

/-- Settles O14, by what the binary64 of a dyadic rational denotes. -/
theorem coordinateDecodeIsExact : Obligations.CoordinateDecodeIsExact :=
  ⟨realOf_coordDec, by decide +kernel, by decide +kernel, by decide +kernel, by decide +kernel⟩

/-- Settles O16, by the branches of the clamp; the codes of the two limits are evaluated. -/
theorem coordinateEncodeTruncatesTowardZero : Obligations.CoordinateEncodeTruncatesTowardZero := by
  intro deg limit enc henc
  have hcodes : enc deg = coordEnc limit deg ∧
      coordCode ((limit : Int), 1) = BitVec.ofNat 24 (limit * 2 ^ 23 / 180) ∧
      coordCode (-(limit : Int), 1) = -BitVec.ofNat 24 (limit * 2 ^ 23 / 180) := by
    rcases henc with ⟨rfl, rfl⟩ | ⟨rfl, rfl⟩
    · exact ⟨rfl, by decide, by decide⟩
    · exact ⟨rfl, by decide, by decide⟩
  obtain ⟨henc, hhigh, hlow⟩ := hcodes
  rw [henc, ← hlow, ← hhigh]
  refine ⟨coordEnc_of_nan, coordEnc_of_infinite, coordEnc_of_infinite, fun num den h =>
    ⟨coordEnc_of_above h, coordEnc_of_below h, fun hmin hmax => ⟨_, coordEnc_of_inside h hmin hmax, ?_⟩⟩⟩
  exact coordStep_bounds num (den_pos_of_realOf h)

/-- A code whose degrees lie within the limit is the code of its own decoded value (R163). -/
theorem coordEnc_coordDec {limit : Nat} {raw : BitVec 24} (hlow : -((limit * 2 ^ 23 : Nat) : Int) ≤ raw.toInt * 180)
    (hhigh : raw.toInt * 180 ≤ (limit * 2 ^ 23 : Nat)) : coordEnc limit (coordDec raw) = .ok raw := by
  obtain ⟨num, den, hden, hreal, hnum⟩ := realOf_coordDec raw
  have hden' : (0 : Int) < den := by omega
  have hscaled : num * 2 ^ 23 = raw.toInt * (180 * den : Nat) := by rw [hnum]; push_cast; ring
  rw [coordEnc_of_inside hreal, hscaled, truncQ_mul_self (by omega), BitVec.ofInt_toInt]
  · have := mul_le_mul_of_nonneg_right hlow hden'.le
    push_cast at this ⊢
    linarith
  · have := mul_le_mul_of_nonneg_right hhigh hden'.le
    push_cast at this ⊢
    linarith

/-- `x` is less than one step (180/2^23 degrees) from the number `num / den`, toward zero (R163). -/
def OneStepTowardZero (num : Int) (den : Nat) (v : Except Status F64) : Prop :=
  ∃ (x : F64) (n : Int) (d : Nat), v = .ok x ∧ realOf x = .finite n d ∧ 0 < d ∧ (0 ≤ num → 0 ≤ n) ∧ (num ≤ 0 → n ≤ 0) ∧
    n.natAbs * den ≤ num.natAbs * d ∧ num.natAbs * d * 2 ^ 23 < n.natAbs * den * 2 ^ 23 + 180 * (den * d)

/-- A coordinate inside the limit whose code fits 24 bits comes back less than one step toward zero of it (R163). -/
theorem coordEnc_map_coordDec {limit : Nat} {deg : F64} {num : Int} {den : Nat} (h : realOf deg = .finite num den)
    (hin : num.natAbs ≤ limit * den) (hlow : -2 ^ 23 ≤ truncQ (num * 2 ^ 23) (180 * den))
    (hhigh : truncQ (num * 2 ^ 23) (180 * den) < 2 ^ 23) :
    OneStepTowardZero num den ((coordEnc limit deg).map coordDec) := by
  obtain ⟨hpos, hneg, hle, hlt⟩ := coordStep_bounds num (den_pos_of_realOf h)
  rw [coordEnc_of_inside h (by omega) (by omega)]
  generalize truncQ (num * 2 ^ 23) (180 * den) = q at *
  obtain ⟨n, d, hd, hreal, hn⟩ := realOf_coordDec (BitVec.ofInt 24 q)
  rw [BitVec.toInt_ofInt_eq_self (by decide) hlow hhigh] at hn
  have habs : n.natAbs * 2 ^ 23 = q.natAbs * (180 * d) := by
    have := congrArg Int.natAbs hn
    rwa [Int.natAbs_mul, Int.natAbs_mul, Int.natAbs_mul, Int.natAbs_natCast, Nat.mul_assoc] at this
  refine ⟨_, n, d, rfl, hreal, hd, fun hnum => ?_, fun hnum => ?_, ?_, ?_⟩
  · have : 0 ≤ q * 180 * d := by have := hpos hnum; positivity
    omega
  · have : q * 180 * d ≤ 0 := by
      have := mul_nonneg (show 0 ≤ -q by have := hneg hnum; omega) (show (0 : Int) ≤ 180 * d by omega)
      linarith
    omega
  · refine Nat.le_of_mul_le_mul_right ?_ (Nat.two_pow_pos 23)
    calc
      n.natAbs * den * 2 ^ 23 = q.natAbs * (180 * den) * d := by rw [Nat.mul_right_comm, habs]; ring
      _ ≤ num.natAbs * 2 ^ 23 * d := Nat.mul_le_mul_right d hle
      _ = num.natAbs * d * 2 ^ 23 := Nat.mul_right_comm _ _ _
  · calc
      num.natAbs * d * 2 ^ 23 = num.natAbs * 2 ^ 23 * d := Nat.mul_right_comm _ _ _
      _ < (q.natAbs + 1) * (180 * den) * d := Nat.mul_lt_mul_of_pos_right hlt hd
      _ = n.natAbs * den * 2 ^ 23 + 180 * (den * d) := by rw [Nat.mul_right_comm n.natAbs, habs]; ring

/-- The code of a coordinate is at most that of its limit. -/
theorem natAbs_coordStep_le {limit : Nat} {num : Int} {den : Nat} (hden : 0 < den) (hin : num.natAbs ≤ limit * den) :
    (truncQ (num * 2 ^ 23) (180 * den)).natAbs * 180 ≤ limit * 2 ^ 23 := by
  obtain ⟨-, -, hle, -⟩ := coordStep_bounds num hden
  refine Nat.le_of_mul_le_mul_right ?_ hden
  calc
    _ = (truncQ (num * 2 ^ 23) (180 * den)).natAbs * (180 * den) := Nat.mul_assoc _ _ _
    _ ≤ num.natAbs * 2 ^ 23 := hle
    _ ≤ limit * den * 2 ^ 23 := Nat.mul_le_mul_right _ hin
    _ = limit * 2 ^ 23 * den := Nat.mul_right_comm _ _ _

/-- Only +180 degrees has the code 2^23, which 24 bits read as -2^23 (R143). -/
theorem coordStep_lt {num : Int} {den : Nat} (hden : 0 < den) (hin : num.natAbs ≤ 180 * den) (hne : num ≠ (180 * den : Nat)) :
    truncQ (num * 2 ^ 23) (180 * den) < 2 ^ 23 := by
  obtain ⟨-, hneg, hle, -⟩ := coordStep_bounds num hden
  have hmax := natAbs_coordStep_le hden hin
  by_contra hge
  have hq : (truncQ (num * 2 ^ 23) (180 * den)).natAbs = 2 ^ 23 := by omega
  rw [hq, Nat.mul_comm] at hle
  have hfull : 180 * den ≤ num.natAbs := Nat.le_of_mul_le_mul_right hle (Nat.two_pow_pos 23)
  have hpos : 0 < num := by
    by_contra hnum
    have := hneg (by omega)
    omega
  omega

/-- The code of +180 degrees is that of -180, the same meridian (R143). -/
theorem lonQuantized_of_eq {deg : F64} {num : Int} {den : Nat} (h : realOf deg = .finite num den)
    (hnum : num = (180 * den : Nat)) : lonQuantized deg = .ok 0xC066800000000000#64 := by
  have hden := den_pos_of_realOf h
  have hscaled : num * 2 ^ 23 = 2 ^ 23 * (180 * den : Nat) := by rw [hnum, mul_comm]
  have hcode : lonEnc deg = .ok (BitVec.ofInt 24 (2 ^ 23)) := by
    rw [lonEnc_eq_coordEnc, coordEnc_of_inside h (by omega) (by omega), hscaled, truncQ_mul_self (by omega)]
  rw [lonQuantized, hcode]
  exact congrArg Except.ok (show coordDec (BitVec.ofInt 24 (2 ^ 23)) = 0xC066800000000000#64 by decide +kernel)

/-- Settles O15, by the round trip of codes within the limit and the step of operands within it. -/
theorem coordinateQuantization : Obligations.CoordinateQuantization := by
  refine ⟨fun raw => ?lonCode, fun raw hmin hmax => ?latCode, fun deg num den h => ⟨fun hin => ?lat, fun hin hne => ?lon,
    lonQuantized_of_eq h⟩⟩
  case lonCode =>
    have hlow := BitVec.le_toInt raw
    have hhigh := BitVec.toInt_lt (x := raw)
    exact coordEnc_coordDec (by omega) (by omega)
  case latCode => exact coordEnc_coordDec (by omega) (by omega)
  case lat =>
    have hmax := natAbs_coordStep_le (den_pos_of_realOf h) hin
    exact coordEnc_map_coordDec h hin (by omega) (by omega)
  case lon =>
    have hmax := natAbs_coordStep_le (den_pos_of_realOf h) hin
    exact coordEnc_map_coordDec h hin (by omega) (coordStep_lt (den_pos_of_realOf h) hin hne)

/-! ## Tracks -/

/-- A decoded track denotes exactly `raw * 45 / 32` (R152). -/
theorem realOf_trackDec (raw : Byte) : ∃ (num : Int) (den : Nat), 0 < den ∧ realOf (trackDec raw) = .finite num den ∧
    num * 2 ^ 5 = (raw.toNat : Int) * 45 * den := by
  have := raw.isLt
  exact realOf_f64OfDyadic (by omega) (by decide)

section
variable {mode : RoundMode} {deg : F64}

theorem trackEnc_of_nan (h : realOf deg = .nan) : trackEnc mode deg = .error .encodeValueOutOfRange := by
  rw [trackEnc, h]

theorem trackEnc_of_infinite {negative : Bool} (h : realOf deg = .infinite negative) :
    trackEnc mode deg = .error .encodeValueOutOfRange := by
  rw [trackEnc, h]

theorem trackEnc_of_finite {num : Int} {den : Nat} (h : realOf deg = .finite num den) :
    trackEnc mode deg = .ok (BitVec.ofInt 8 (roundQ mode (num * 256) (360 * den))) := by
  rw [trackEnc, h]

end

theorem trackReencode_eq (mode : RoundMode) (raw : Byte) : trackReencode mode raw = .ok raw := by
  obtain ⟨num, den, hden, hreal, hnum⟩ := realOf_trackDec raw
  have hscaled : num * 256 = (raw.toNat : Int) * (360 * den : Nat) := by push_cast; linarith
  rw [trackReencode, trackEnc_of_finite hreal, hscaled, roundQ_mul_self (by omega)]
  rw [BitVec.ofInt_natCast, BitVec.ofNat_toNat, BitVec.setWidth_eq]

/-- Settles O17, by the exact decoded value, a multiple of the step. -/
theorem trackCodesAreExactAndRoundTrip : Obligations.TrackCodesAreExactAndRoundTrip := by
  intro raw
  obtain ⟨num, den, hden, hreal, hnum⟩ := realOf_trackDec raw
  exact ⟨⟨num, den, hden, hreal, by linarith⟩, trackReencode_eq _ raw, trackReencode_eq _ raw⟩

/-- The byte of an integer step, whole turns of 256 steps away. -/
theorem toNat_ofInt_byte (q : Int) : ((BitVec.ofInt 8 q).toNat : Int) = q - 256 * (q / 256) := by
  rw [BitVec.toNat_ofInt]
  omega

/-- Settles O18, by the bounds of the rounding; 64 times the error in degrees is a quarter of the error in steps. -/
theorem trackEncodeRoundsToNearest : Obligations.TrackEncodeRoundsToNearest := by
  refine fun mode deg => ⟨trackEnc_of_nan, fun _ => trackEnc_of_infinite, fun num den h => ?_⟩
  have henc : trackEnc mode deg = .ok _ := trackEnc_of_finite h
  obtain ⟨hnear, htie⟩ := roundQ_bounds (den := 360 * den) (by have := den_pos_of_realOf h; omega) mode (num * 256)
  generalize roundQ mode (num * 256) (360 * den) = q at *
  obtain ⟨n, d, hd, hreal, hn⟩ := realOf_trackDec (BitVec.ofInt 8 q)
  rw [toNat_ofInt_byte] at hn
  push_cast at hnear htie
  refine ⟨q, henc, hnear, htie, _, n, q / 256, d, by rw [trackQuantized, henc]; rfl, hreal, hd, ?_⟩
  have herror : 256 * (num * d - (n + 360 * (q / 256) * d) * den) = (num * 256 - q * (360 * den)) * d := by
    linear_combination (-8 * (den : Int)) * hn
  have habs : 256 * (num * d - (n + 360 * (q / 256) * d) * den).natAbs = (num * 256 - q * (360 * den)).natAbs * d := by
    have := congrArg Int.natAbs herror
    rwa [Int.natAbs_mul, Int.natAbs_mul, Int.natAbs_natCast] at this
  have hscaled := Nat.mul_le_mul_right d hnear
  rw [Nat.mul_assoc, ← habs, Nat.mul_assoc] at hscaled
  omega

end Sys2Proof.Machine
end

section
/-! PROOFS. The integer field codecs (42_fields.md R145 to R158): altitude, velocities, call sign, geometric altitude and its metrics
word, then O19, O20 and O21. -/

namespace Sys2Proof.Machine

/-! ## Integers in a field -/

theorem ofInt_toNat {w : Nat} (raw : BitVec w) : BitVec.ofInt w (raw.toNat : Int) = raw := by
  rw [BitVec.ofInt_natCast, BitVec.ofNat_toNat, BitVec.setWidth_eq]

theorem toNat_ofInt_of_mem {w : Nat} {q : Int} (hlow : 0 ≤ q) (hhigh : q < 2 ^ w) : ((BitVec.ofInt w q).toNat : Int) = q := by
  have : (((2 ^ w : Nat) : Int)) = 2 ^ w := by push_cast; rfl
  rw [BitVec.toNat_ofInt, Int.emod_eq_of_lt hlow (this ▸ hhigh), Int.toNat_of_nonneg hlow]

/-! ## Altitude (R145, R146) -/

/-- `Q((ft + 1000) / 25)` (R145). -/
def altStep (quant : AltQuant) (mode : RoundMode) (ft : Int) : Int :=
  match quant with
  | .round => roundQ mode (ft + 1000) 25
  | .trunc => truncQ (ft + 1000) 25

theorem altEnc_eq (quant : AltQuant) (mode : RoundMode) (ft : Int) :
    altEnc quant mode ft = BitVec.ofInt 12 (clampInt (altStep quant mode ft) 0 0xFFE) := by
  cases quant <;> rfl

section
variable (quant : AltQuant) (mode : RoundMode) (ft : Int)

theorem roundQ_altitude : 2 * (ft + 1000 - roundQ mode (ft + 1000) 25 * 25).natAbs ≤ 25 := (roundQ_bounds (by decide) mode _).1

/-- Either quantizer gives a step less than one step from the altitude, and the exact one on a step. -/
theorem altStep_near : (ft + 1000 - altStep quant mode ft * 25).natAbs < 25 := by
  cases quant with
  | round =>
    have := roundQ_altitude mode ft
    rw [altStep]
    omega
  | trunc =>
    obtain ⟨hpos, hneg, hlow, hhigh⟩ := truncQ_bounds (den := 25) (by decide) (ft + 1000)
    rw [altStep]
    rcases le_total 0 (ft + 1000) with h | h
    · have := hpos h
      omega
    · have := hneg h
      omega

theorem altStep_altDec (raw : BitVec 12) : altStep quant mode (altDec raw) = raw.toNat := by
  have hnum : altDec raw + 1000 = (raw.toNat : Int) * (25 : Nat) := by rw [altDec]; omega
  cases quant with
  | round => rw [altStep, hnum, roundQ_mul_self (by decide)]
  | trunc => rw [altStep, hnum, truncQ_mul_self (by decide)]

theorem altEnc_of_below (h : ft < -1000) : altEnc quant mode ft = 0x000#12 := by
  have := altStep_near quant mode ft
  have hclamp : clampInt (altStep quant mode ft) 0 0xFFE = 0 := by rw [clampInt]; omega
  rw [altEnc_eq, hclamp]
  rfl

theorem altEnc_of_above (h : 101350 < ft) : altEnc quant mode ft = 0xFFE#12 := by
  have hstep : 0xFFE ≤ altStep quant mode ft := by
    cases quant with
    | round =>
      have := roundQ_altitude mode ft
      rw [altStep]
      omega
    | trunc =>
      obtain ⟨hpos, -, -, hhigh⟩ := truncQ_bounds (den := 25) (by decide) (ft + 1000)
      have := hpos (by omega)
      rw [altStep]
      omega
  have hclamp : clampInt (altStep quant mode ft) 0 0xFFE = 0xFFE := by rw [clampInt]; omega
  rw [altEnc_eq, hclamp]
  rfl

theorem altQuantized_of_mem (hlow : -1000 ≤ ft) (hhigh : ft ≤ 101350) :
    altQuantized quant mode ft = altStep quant mode ft * 25 - 1000 := by
  have hmem : 0 ≤ altStep quant mode ft ∧ altStep quant mode ft ≤ 0xFFE := by
    have := altStep_near quant mode ft
    cases quant with
    | round =>
      have := roundQ_altitude mode ft
      rw [altStep] at *
      omega
    | trunc =>
      obtain ⟨hpos, -, hle, -⟩ := truncQ_bounds (den := 25) (by decide) (ft + 1000)
      have := hpos (by omega)
      rw [altStep] at *
      omega
  rw [altQuantized, altEnc_eq, clampInt_of_mem hmem.1 hmem.2, altDec, toNat_ofInt_of_mem hmem.1 (by omega)]

theorem altReencode_eq {raw : BitVec 12} (h : raw ≠ 0xFFF#12) : altReencode quant mode raw = raw := by
  have hraw : raw.toNat ≠ 0xFFF := fun he => h (BitVec.eq_of_toNat_eq he)
  have := raw.isLt
  rw [altReencode, altEnc_eq, altStep_altDec, clampInt_of_mem (by omega) (by omega), ofInt_toNat]

end

/-- Settles O19, by the two quantizers' distance to the altitude and the clamp. -/
theorem altitudeCodecBounds : Obligations.AltitudeCodecBounds := by
  refine fun quant mode => ⟨fun raw => ⟨rfl, altReencode_eq quant mode, altEnc_of_above quant mode _ (by decide)⟩,
    fun ft => ⟨altEnc_of_below quant mode ft, altEnc_of_above quant mode ft, fun hlow hhigh => ?_⟩⟩
  rw [altQuantized_of_mem quant mode ft hlow hhigh]
  refine ⟨?_, ?_⟩
  · rintro rfl
    have := roundQ_altitude mode ft
    rw [altStep]
    omega
  · rintro rfl
    obtain ⟨hpos, -, hle, hlt⟩ := truncQ_bounds (den := 25) (by decide) (ft + 1000)
    have := hpos (by omega)
    rw [altStep]
    omega

/-! ## Velocities (R147 to R150) -/

theorem hvelEnc_of_mem {k : Int} (hlow : 0 ≤ k) (hhigh : k ≤ 0xFFE) : hvelEnc (some k) = BitVec.ofInt 12 k := by
  rw [hvelEnc, clampInt_of_mem hlow hhigh]

theorem hvelDec_of_ne {raw : BitVec 12} (h : raw ≠ 0xFFF#12) : hvelDec raw = some raw := if_neg h

theorem hvelEnc_of_below {k : Int} (h : k < 0) : hvelEnc (some k) = 0x000#12 := by
  have hclamp : clampInt k 0 0xFFE = 0 := by rw [clampInt]; omega
  rw [hvelEnc, hclamp]
  rfl

theorem hvelEnc_of_above {k : Int} (h : 0xFFE < k) : hvelEnc (some k) = 0xFFE#12 := by
  have hclamp : clampInt k 0 0xFFE = 0xFFE := by rw [clampInt]; omega
  rw [hvelEnc, hclamp]
  rfl

theorem hvelDec_hvelEnc {k : Int} (hlow : 0 ≤ k) (hhigh : k ≤ 0xFFE) :
    hvelDec (hvelEnc (some k)) = some (BitVec.ofInt 12 k) := by
  rw [hvelEnc_of_mem hlow hhigh, hvelDec_of_ne]
  intro h
  have := toNat_ofInt_of_mem (w := 12) hlow (by omega)
  rw [h] at this
  have : (0xFFF : Int) = k := this
  omega

theorem hvelReencode_eq (raw : BitVec 12) : hvelReencode raw = raw := by
  by_cases h : raw = 0xFFF#12
  · rw [h]
    rfl
  · have hraw : raw.toNat ≠ 0xFFF := fun he => h (BitVec.eq_of_toNat_eq he)
    have := raw.isLt
    rw [hvelReencode, hvelDec_of_ne h, Option.map_some, hvelEnc_of_mem (by omega) (by omega), ofInt_toNat]

theorem hvelDec_eq_none {raw : BitVec 12} : hvelDec raw = none ↔ raw = 0xFFF#12 := by
  by_cases h : raw = 0xFFF#12
  · exact iff_of_true (if_pos h) h
  · exact iff_of_false (by rw [hvelDec_of_ne h]; exact nofun) h

/-- The reserved codes of R6, at the default parameters. -/
theorem vvelIsReserved_standardParams (raw : BitVec 12) : vvelIsReserved standardParams raw = true ↔
    (0x1FF ≤ raw.toNat ∧ raw.toNat ≤ 0x7FF) ∨ (0x801 ≤ raw.toNat ∧ raw.toNat ≤ 0xE01) := by
  simp [vvelIsReserved, standardParams]

section
variable (P : Params)

theorem vvelDec_of_reserved {raw : BitVec 12} (h : raw ≠ 0x800#12) (hr : vvelIsReserved P raw = true) :
    vvelDec P raw = some 0 := by
  rw [vvelDec, if_neg h, if_pos hr]

theorem vvelDec_of_not_reserved {raw : BitVec 12} (h : raw ≠ 0x800#12) (hr : vvelIsReserved P raw = false) :
    vvelDec P raw = some (raw.toInt * 64) := by
  rw [vvelDec, if_neg h, hr, if_neg Bool.false_ne_true]

theorem vvelEnc_of_above {f : Int} (h : 32576 < f) : vvelEnc P (some f) = P.vvelPosLimit := if_pos h

theorem vvelEnc_of_below {f : Int} (h : f < -32576) : vvelEnc P (some f) = P.vvelNegLimit := by
  rw [vvelEnc, if_neg (by omega), if_pos h]

theorem vvelEnc_of_mem {f : Int} (hlow : -32576 ≤ f) (hhigh : f ≤ 32576) :
    vvelEnc P (some f) = BitVec.ofInt 12 (truncQ f 64) := by
  rw [vvelEnc, if_neg (by omega), if_neg (by omega)]

/-- A step within the limits is no reserved code, and decodes to itself in feet per minute (R149, R150). -/
theorem vvelDec_ofInt {q : Int} (h : q.natAbs ≤ 509) : vvelDec standardParams (BitVec.ofInt 12 q) = some (q * 64) := by
  have htoInt : (BitVec.ofInt 12 q).toInt = q := BitVec.toInt_ofInt_eq_self (by decide) (by omega) (by omega)
  have hnat : (BitVec.ofInt 12 q).toNat ≤ 509 ∨ 3587 ≤ (BitVec.ofInt 12 q).toNat := by
    rw [BitVec.toNat_ofInt]
    omega
  have hr : vvelIsReserved standardParams (BitVec.ofInt 12 q) = false := by
    rw [← Bool.not_eq_true, vvelIsReserved_standardParams]
    omega
  rw [vvelDec_of_not_reserved _ _ hr, htoInt]
  intro he
  rw [he] at hnat
  exact absurd hnat (by decide)

theorem vvelReencode_eq {raw : BitVec 12} (h : vvelIsReserved standardParams raw = false) :
    vvelReencode standardParams raw = raw := by
  by_cases hs : raw = 0x800#12
  · rw [hs]
    rfl
  rw [vvelReencode, vvelDec_of_not_reserved _ hs h]
  rw [← Bool.not_eq_true, vvelIsReserved_standardParams] at h
  have hs' : raw.toNat ≠ 0x800 := fun he => hs (BitVec.eq_of_toNat_eq he)
  have hlt := raw.isLt
  have htoInt := BitVec.toInt_eq_toNat_cond raw
  by_cases hpos : raw = 0x1FE#12
  · rw [hpos]
    rfl
  by_cases hneg : raw = 0xE02#12
  · rw [hneg]
    rfl
  have hpos' : raw.toNat ≠ 0x1FE := fun he => hpos (BitVec.eq_of_toNat_eq he)
  have hneg' : raw.toNat ≠ 0xE02 := fun he => hneg (BitVec.eq_of_toNat_eq he)
  have hmem : -509 ≤ raw.toInt ∧ raw.toInt ≤ 509 := by
    split_ifs at htoInt <;> omega
  have hmul : raw.toInt * 64 = raw.toInt * (64 : Nat) := rfl
  rw [vvelEnc_of_mem _ (by omega) (by omega), hmul, truncQ_mul_self (by decide), BitVec.ofInt_toInt]

end

/-- Settles O20, codec by codec. -/
theorem velocityCodecSentinelsAndSteps : Obligations.VelocityCodecSentinelsAndSteps := by
  refine ⟨rfl, fun k => ⟨hvelEnc_of_below, hvelEnc_of_above, hvelDec_hvelEnc⟩,
    fun raw => ⟨hvelReencode_eq raw, hvelDec_eq_none⟩,
    fun P => ⟨rfl, rfl, fun raw => vvelDec_of_reserved P, fun f => ⟨vvelEnc_of_above P, vvelEnc_of_below P,
      fun hlow hhigh => ?_⟩⟩, fun raw => vvelReencode_eq⟩
  obtain ⟨hpos, hneg, hle, hlt⟩ := truncQ_bounds (den := 64) (by decide) f
  rw [vvelEnc_of_mem P hlow hhigh]
  exact ⟨_, rfl, hpos, hneg, hle, hlt, vvelDec_ofInt (by omega)⟩

/-! ## Call signs (R153, R154) -/

theorem callsignEnc_of_ge {t : Bytes} (h : 8 ≤ t.length) : callsignEnc t = t.take 8 := if_pos h

theorem callsignEnc_of_le {t : Bytes} (h : t.length ≤ 8) : callsignEnc t = t ++ List.replicate (8 - t.length) 0x20#8 := by
  by_cases h8 : 8 ≤ t.length
  · have hlength : t.length = 8 := le_antisymm h h8
    rw [callsignEnc_of_ge h8, hlength, List.take_of_length_le h, Nat.sub_self, List.replicate_zero, List.append_nil]
  · exact if_neg h8

@[simp] theorem length_callsignEnc (t : Bytes) : (callsignEnc t).length = 8 := by
  rcases le_total t.length 8 with h | h
  · rw [callsignEnc_of_le h, List.length_append, List.length_replicate]
    omega
  · rw [callsignEnc_of_ge h, List.length_take]
    omega

/-- Spaces at the end go, and what they followed is treated the same. -/
theorem stripSpaces_append_replicate (t : Bytes) (n : Nat) : stripSpaces (t ++ List.replicate n 0x20#8) = stripSpaces t := by
  rw [stripSpaces, List.reverse_append, List.reverse_replicate]
  induction n with
  | zero => rfl
  | succ n ih => rw [List.replicate_succ, List.cons_append, List.dropWhile_cons_of_pos (by decide), ih]

theorem stripSpaces_concat {c : Byte} (h : c ≠ 0x20#8) (t : Bytes) : stripSpaces (t ++ [c]) = t ++ [c] := by
  rw [stripSpaces, List.reverse_append, List.reverse_singleton, List.singleton_append,
    List.dropWhile_cons_of_neg (by simpa using h), List.reverse_cons, List.reverse_reverse]

theorem callsignDec_of_ne_nil {b : Bytes} (h : stripSpaces b ≠ []) : callsignDec b = stripSpaces b := by
  rw [callsignDec]
  split
  · next he => exact absurd he h
  · next he => exact he.symm

theorem callsignDec_concat_replicate {c : Byte} (h : c ≠ 0x20#8) (t : Bytes) (n : Nat) :
    callsignDec (t ++ [c] ++ List.replicate n 0x20#8) = t ++ [c] := by
  have hstrip : stripSpaces (t ++ [c] ++ List.replicate n 0x20#8) = t ++ [c] := by
    rw [stripSpaces_append_replicate, stripSpaces_concat h]
  rw [callsignDec_of_ne_nil (by rw [hstrip]; simp), hstrip]

theorem callsignDec_replicate (n : Nat) : callsignDec (List.replicate n 0x20#8) = emptyCallsign := by
  have hstrip : stripSpaces (List.replicate n 0x20#8) = [] := stripSpaces_append_replicate [] n
  rw [callsignDec, hstrip]

/-- Settles O21, by what stripping does to a text and the spaces after it. -/
theorem callSignCodec : Obligations.CallSignCodec := by
  refine ⟨fun t => ⟨length_callsignEnc t, callsignEnc_of_le, callsignEnc_of_ge⟩,
    fun t c n hc => callsignDec_concat_replicate hc t n, fun t c hc hlength => ?_,
    fun n => ⟨callsignDec_replicate n, List.cons_ne_nil _ _⟩⟩
  rw [callsignEnc_of_le (by rw [List.length_append, List.length_singleton]; omega), callsignDec_concat_replicate hc]

end Sys2Proof.Machine
end

section
/-! PROOFS. The messages of whole bytes (43_messages.md R183, R184, R190 to R198): bytes and words as numbers, then the heartbeat (O22,
O23), the geometric altitude (O27, O28), the uplink data (O29, O30) and the GPS time (O31, O32). -/

namespace Sys2Proof.Machine

/-! ## Bytes and words -/

theorem extractLsb'_low_byte {w : Nat} (x : BitVec w) : x.extractLsb' 0 8 = BitVec.ofNat 8 x.toNat := by
  apply BitVec.eq_of_toNat_eq
  rw [BitVec.extractLsb'_toNat, BitVec.toNat_ofNat, Nat.shiftRight_zero]

theorem extractLsb'_second_byte {w : Nat} (x : BitVec w) : x.extractLsb' 8 8 = BitVec.ofNat 8 (x.toNat / 256) := by
  apply BitVec.eq_of_toNat_eq
  rw [BitVec.extractLsb'_toNat, BitVec.toNat_ofNat, Nat.shiftRight_eq_div_pow]

/-- Two bytes side by side, as a number. -/
theorem toNat_append_byte {w : Nat} (x : BitVec w) (b : Byte) : (x ++ b).toNat = x.toNat * 256 + b.toNat := by
  have hb := b.isLt
  rw [BitVec.toNat_append, ← Nat.shiftLeft_add_eq_or_of_lt hb, Nat.shiftLeft_eq]

theorem beNat_pair (a b : Byte) : beNat [a, b] = a.toNat * 256 + b.toNat := by simp [beNat]

theorem ofNat_beNat_pair (a b : Byte) : BitVec.ofNat 16 (beNat [a, b]) = a ++ b := by
  apply BitVec.eq_of_toNat_eq
  have ha := a.isLt
  have hb := b.isLt
  rw [BitVec.toNat_ofNat, toNat_append_byte, beNat_pair]
  omega

/-- A byte string read as a bit vector of its width and written back is itself. -/
theorem toBE_toNat_ofNat_beNat (p : Bytes) : toBE p.length (BitVec.ofNat (8 * p.length) (beNat p)).toNat = p := by
  have h : beNat p < 2 ^ (8 * p.length) := by
    rw [Nat.pow_mul]
    exact beNat_lt p
  rw [BitVec.toNat_ofNat, Nat.mod_eq_of_lt h, toBE_beNat]

/-! ## Heartbeat -/

theorem getLsbD_seven (b : Byte) : b.getLsbD 7 = decide (128 ≤ b.toNat) :=
  (BitVec.msb_eq_getLsbD_last b).symm.trans (BitVec.msb_eq_decide b)

/-- `ts_dec` as a number (R159). -/
theorem toNat_tsDec (st2 lo hi : Byte) : (tsDec st2 lo hi).toNat = st2.toNat / 128 * 65536 + hi.toNat * 256 + lo.toNat := by
  have hst := st2.isLt
  have hlo := lo.isLt
  have hhi := hi.isLt
  have hlow : ((hi.setWidth 32 <<< 8) ||| lo.setWidth 32).toNat = hi.toNat * 256 + lo.toNat := by
    rw [BitVec.toNat_or, BitVec.toNat_shiftLeft, BitVec.toNat_setWidth, BitVec.toNat_setWidth,
      Nat.mod_eq_of_lt (show hi.toNat < 2 ^ 32 by omega), Nat.mod_eq_of_lt (show lo.toNat < 2 ^ 32 by omega),
      Nat.shiftLeft_eq, Nat.mod_eq_of_lt (by omega), ← Nat.shiftLeft_eq, ← Nat.shiftLeft_add_eq_or_of_lt hlo, Nat.shiftLeft_eq]
  rw [tsDec, BitVec.or_assoc, BitVec.toNat_or, hlow, getLsbD_seven]
  by_cases h : 128 ≤ st2.toNat
  · have hbit : st2.toNat / 128 = 1 := by omega
    rw [decide_eq_true h, if_pos rfl, hbit]
    have := Nat.two_pow_add_eq_or_of_lt (i := 16) (b := hi.toNat * 256 + lo.toNat) (by omega) 1
    rw [Nat.mul_one] at this
    exact this.symm.trans (by omega)
  · have hbit : st2.toNat / 128 = 0 := by omega
    rw [decide_eq_false h, if_neg Bool.false_ne_true, hbit]
    exact (Nat.zero_or _).trans (by omega)

/-- `counts_dec` of the two count bytes (R160); bit 2 of the first is in neither field. -/
theorem countsDec_beNat (b5 b6 : Byte) : countsDec (BitVec.ofNat 16 (beNat [b5, b6])) =
    (BitVec.ofNat 8 (b5.toNat / 8), BitVec.ofNat 16 (b5.toNat % 4 * 256 + b6.toNat)) := by
  have h5 := b5.isLt
  have h6 := b6.isLt
  rw [countsDec, beNat_pair]
  refine Prod.ext (BitVec.eq_of_toNat_eq ?_) (BitVec.eq_of_toNat_eq ?_)
  · rw [BitVec.toNat_setWidth, BitVec.extractLsb'_toNat, BitVec.toNat_ofNat, BitVec.toNat_ofNat, Nat.shiftRight_eq_div_pow]
    omega
  · rw [BitVec.toNat_setWidth, BitVec.extractLsb'_toNat, BitVec.toNat_ofNat, BitVec.toNat_ofNat, Nat.shiftRight_zero]
    omega

/-- MSG_HEARTBEAT of 7 bytes (R183). -/
theorem exec_msgHeartbeat (s : State) (id b1 b2 b3 b4 b5 b6 : Byte) : exec (.msgHeartbeat [id, b1, b2, b3, b4, b5, b6]) s =
    .next (s.okWith (0x00#8 :: ([b1, b2] ++ toBE 4 (b2.toNat / 128 * 65536 + b4.toNat * 256 + b3.toNat) ++
      [BitVec.ofNat 8 (b5.toNat / 8)] ++ toBE 2 (b5.toNat % 4 * 256 + b6.toNat)))) := by
  have hcount : (BitVec.ofNat 16 (b5.toNat % 4 * 256 + b6.toNat)).toNat = b5.toNat % 4 * 256 + b6.toNat := by
    have h6 := b6.isLt
    rw [BitVec.toNat_ofNat]
    omega
  have hdec : decHeartbeat [id, b1, b2, b3, b4, b5, b6] = .heartbeat b1 b2 (tsDec b2 b3 b4) (BitVec.ofNat 8 (b5.toNat / 8))
      (BitVec.ofNat 16 (b5.toNat % 4 * 256 + b6.toNat)) := by
    rw [decHeartbeat, countsDec_beNat]
  simp only [exec, execMsgHeartbeat, hdec, finish_value, State.returnValue, State.answer, Value.encode, putDecodeResult,
    toNat_tsDec, hcount, Status.code]

theorem decHeartbeat_of_length_ne {p : Bytes} (h : p.length ≠ 7) : decHeartbeat p = .invalid .malformedField := by
  unfold decHeartbeat
  split
  · exact absurd rfl h
  · rfl

/-- Settles O23, by the layout of the 7 bytes. -/
theorem heartbeatDecodeLayout : Obligations.HeartbeatDecodeLayout := by
  refine ⟨exec_msgHeartbeat, fun s p h => ?_⟩
  simp only [exec, execMsgHeartbeat, decHeartbeat_of_length_ne h]
  rfl

/-- `ts_enc` by the clamped timestamp (R159). -/
theorem tsEnc_eq (ts : BitVec 32) (st2 : Byte) :
    tsEnc ts st2 = ((st2 &&& 0x7F#8) ||| (if 0x10000 ≤ min ts.toNat 0x1FFFF then 0x80#8 else 0x00#8),
      BitVec.ofNat 8 (min ts.toNat 0x1FFFF), BitVec.ofNat 8 (min ts.toNat 0x1FFFF / 256)) := by
  have hlt : min ts.toNat 0x1FFFF < 2 ^ 17 := by omega
  have htop : (BitVec.ofNat 17 (min ts.toNat 0x1FFFF)).getLsbD 16 = decide (0x10000 ≤ min ts.toNat 0x1FFFF) := by
    have := BitVec.msb_eq_decide (BitVec.ofNat 17 (min ts.toNat 0x1FFFF))
    rwa [BitVec.msb_eq_getLsbD_last, BitVec.toNat_ofNat, Nat.mod_eq_of_lt hlt] at this
  rw [tsEnc]
  simp only [htop, decide_eq_true_eq, extractLsb'_low_byte, extractLsb'_second_byte, BitVec.toNat_ofNat,
    Nat.mod_eq_of_lt hlt]

/-- `counts_enc` as a number (R160). -/
theorem toNat_countsEnc (u : Byte) (bl : BitVec 16) :
    (countsEnc u bl).toNat = min u.toNat 31 * 2048 + min bl.toNat 1023 := by
  have hb : min bl.toNat 1023 < 2 ^ 11 := by omega
  rw [countsEnc, BitVec.toNat_or, BitVec.toNat_shiftLeft, BitVec.toNat_ofNat, BitVec.toNat_ofNat,
    Nat.mod_eq_of_lt (show min u.toNat 31 < 2 ^ 16 by omega), Nat.mod_eq_of_lt (show min bl.toNat 1023 < 2 ^ 16 by omega),
    Nat.shiftLeft_eq, Nat.mod_eq_of_lt (by omega), ← Nat.shiftLeft_eq, ← Nat.shiftLeft_add_eq_or_of_lt hb, Nat.shiftLeft_eq]

/-- Bit 7 of the status byte that carries bit 16 of the timestamp (R159). -/
theorem status2_div (b : Byte) (top : Bool) :
    ((b &&& 0x7F#8) ||| (if top then 0x80#8 else 0x00#8)).toNat / 128 = if top then 1 else 0 := by
  have hlow : (b &&& 0x7F#8).toNat < 2 ^ 7 := by
    rw [BitVec.toNat_and]
    exact Nat.and_lt_two_pow _ (by decide)
  cases top with
  | false =>
    rw [if_neg Bool.false_ne_true, BitVec.or_zero]
    exact Nat.div_eq_of_lt hlow
  | true =>
    have hsum := Nat.two_pow_add_eq_or_of_lt hlow 1
    have htop : (0x80#8).toNat = 2 ^ 7 * 1 := rfl
    rw [if_pos rfl, if_pos rfl, BitVec.toNat_or, Nat.or_comm, htop, ← hsum]
    omega

/-- The two counts, from the two bytes of the word that holds them in bits 15:11 and 9:0 (R160). -/
theorem fields_of_count_bytes {a b : Nat} (ha : a ≤ 31) (hb : b ≤ 1023) : (a * 2048 + b) / 256 % 2 ^ 8 / 8 = a ∧
    (a * 2048 + b) / 256 % 2 ^ 8 % 4 * 256 + (a * 2048 + b) % 2 ^ 8 = b := by
  omega

/-- Settles O22: the payload by its bytes, and what the layout reads from them. -/
theorem heartbeatEncodeClampsAndDecodesBack : Obligations.HeartbeatEncodeClampsAndDecodesBack := by
  intro s status1 status2 timestamp u bl t w st2 p
  refine ⟨?_, ?_⟩
  · have hp : heartbeatPayload status1 status2 timestamp u bl = p := by
      simp only [heartbeatPayload, tsEnc_eq, extractLsb'_low_byte, extractLsb'_second_byte, toNat_countsEnc]
      rfl
    simp only [exec, execEncHeartbeat, hp]
    rfl
  · have ht : t < 2 ^ 17 := by omega
    have htop : st2.toNat / 128 = if 0x10000 ≤ t then 1 else 0 := by
      have := status2_div status2 (decide (0x10000 ≤ t))
      simpa only [decide_eq_true_eq] using this
    rw [exec_msgHeartbeat, htop]
    simp only [BitVec.toNat_ofNat]
    have h1 : (if 0x10000 ≤ t then 1 else 0) * 65536 + t / 256 % 2 ^ 8 * 256 + t % 2 ^ 8 = t := by
      split_ifs <;> omega
    obtain ⟨h2, h3⟩ := fields_of_count_bytes (Nat.min_le_right u.toNat 31) (Nat.min_le_right bl.toNat 1023)
    rw [h1, h2, h3]

/-! ## Geometric altitude -/

theorem roundQ_geoalt (mode : RoundMode) (ft : Int) : 2 * (ft - roundQ mode ft 5 * 5).natAbs ≤ 5 := (roundQ_bounds (by decide) mode ft).1

section
variable {mode : RoundMode} {ft : Int}

theorem geoaltEnc_of_below (h : ft < -163840) : geoaltEnc mode ft = 0x8000#16 := by
  have := roundQ_geoalt mode ft
  have hclamp : clampInt (roundQ mode ft 5) (-32768) 32767 = -32768 := by rw [clampInt]; omega
  rw [geoaltEnc, hclamp]
  rfl

theorem geoaltEnc_of_above (h : 163835 < ft) : geoaltEnc mode ft = 0x7FFF#16 := by
  have := roundQ_geoalt mode ft
  have hclamp : clampInt (roundQ mode ft 5) (-32768) 32767 = 32767 := by rw [clampInt]; omega
  rw [geoaltEnc, hclamp]
  rfl

theorem toInt_geoaltEnc (hlow : -163840 ≤ ft) (hhigh : ft ≤ 163835) : (geoaltEnc mode ft).toInt = roundQ mode ft 5 := by
  have := roundQ_geoalt mode ft
  rw [geoaltEnc, clampInt_of_mem (by omega) (by omega), BitVec.toInt_ofInt_eq_self (by decide) (by omega) (by omega)]

end

theorem geoaltReencode_eq (mode : RoundMode) (raw : BitVec 16) : geoaltReencode mode raw = raw := by
  have hlow := BitVec.le_toInt raw
  have hhigh := BitVec.toInt_lt (x := raw)
  have hmul : raw.toInt * 5 = raw.toInt * (5 : Nat) := rfl
  rw [geoaltReencode, geoaltDec, geoaltEnc, hmul, roundQ_mul_self (by decide), clampInt_of_mem (by omega) (by omega),
    BitVec.ofInt_toInt]

/-- The 15-bit merit of `vm_enc`, 0x7FFF for none (R157). -/
def meritCode (merit : Option (BitVec 32)) : Nat := merit.elim 0x7FFF fun m => min m.toNat 0x7FFE

theorem meritCode_lt (merit : Option (BitVec 32)) : meritCode merit < 2 ^ 15 := by
  cases merit with
  | none => decide
  | some m => exact Nat.lt_of_le_of_lt (Nat.min_le_right _ _) (by decide)

/-- `vm_enc` as a number: the warning bit above the merit (R157). -/
theorem toNat_vmEnc (merit : Option (BitVec 32)) (warning : Bool) :
    (vmEnc merit warning).toNat = (if warning then 0x8000 else 0) + meritCode merit := by
  have hlt := meritCode_lt merit
  have henc : vmEnc merit warning = (if warning then 0x8000#16 else 0#16) ||| BitVec.ofNat 16 (meritCode merit) := by
    cases merit <;> rfl
  have hnat : (BitVec.ofNat 16 (meritCode merit)).toNat = meritCode merit := by
    rw [BitVec.toNat_ofNat]
    exact Nat.mod_eq_of_lt (by omega)
  rw [henc, BitVec.toNat_or, hnat]
  cases warning with
  | false => exact (Nat.zero_or _).trans (Nat.zero_add _).symm
  | true => exact (Nat.two_pow_add_eq_or_of_lt hlt 1).symm

/-- Settles O27: the altitude code by the clamp and the rounding, the metrics word as a number. -/
theorem geoaltEncodeQuantizesAndPacks : Obligations.GeoaltEncodeQuantizesAndPacks := by
  intro s altitude merit warning ft v
  have hcode : (geoaltEnc s.params.roundMode ft).extractLsb' 8 8 ++ (geoaltEnc s.params.roundMode ft).extractLsb' 0 8 =
      geoaltEnc s.params.roundMode ft := by
    apply BitVec.eq_of_toNat_eq
    have := (geoaltEnc s.params.roundMode ft).isLt
    rw [toNat_append_byte, extractLsb'_low_byte, extractLsb'_second_byte, BitVec.toNat_ofNat, BitVec.toNat_ofNat]
    omega
  refine ⟨(geoaltEnc s.params.roundMode ft).extractLsb' 8 8, (geoaltEnc s.params.roundMode ft).extractLsb' 0 8, ?_⟩
  rw [hcode]
  refine ⟨geoaltEnc_of_below, geoaltEnc_of_above, fun hlow hhigh => ?_, ?_⟩
  · have := roundQ_geoalt s.params.roundMode ft
    rw [toInt_geoaltEnc hlow hhigh]
    omega
  · have hv : (vmEnc merit warning).toNat = v := toNat_vmEnc merit warning
    have hpayload : geoaltPayload s.params altitude merit warning = [s.params.idGeoalt,
        (geoaltEnc s.params.roundMode ft).extractLsb' 8 8, (geoaltEnc s.params.roundMode ft).extractLsb' 0 8,
        BitVec.ofNat 8 (v / 256), BitVec.ofNat 8 v] := by
      rw [geoaltPayload, extractLsb'_low_byte (vmEnc merit warning), extractLsb'_second_byte (vmEnc merit warning), hv]
    simp only [exec, execEncGeoalt, hpayload]
    rfl

/-- MSG_GEOALT of 5 bytes (R190). -/
theorem exec_msgGeoalt (s : State) (id a0 a1 v0 v1 : Byte) : exec (.msgGeoalt [id, a0, a1, v0, v1]) s =
    .next (s.okWith (0x03#8 :: (toBE 4 (BitVec.ofInt 32 ((a0 ++ a1).toInt * 5)).toNat ++ [v0, v1]))) := by
  have hvm : toBE 2 (BitVec.ofNat 16 (beNat [v0, v1])).toNat = [v0, v1] := toBE_toNat_ofNat_beNat [v0, v1]
  simp only [exec, execMsgGeoalt, decGeoalt, ofNat_beNat_pair a0 a1, finish_value, State.returnValue, State.answer, Value.encode,
    putDecodeResult, putI32, geoaltDec, hvm, Status.code]

theorem decGeoalt_of_length_ne {p : Bytes} (h : p.length ≠ 5) : decGeoalt p = .invalid .malformedField := by
  unfold decGeoalt
  split
  · exact absurd rfl h
  · rfl

theorem vmWarning_vmEnc (merit : Option (BitVec 32)) (warning : Bool) : vmWarning (vmEnc merit warning) = warning := by
  have hlt := meritCode_lt merit
  have hmsb := BitVec.msb_eq_decide (vmEnc merit warning)
  rw [BitVec.msb_eq_getLsbD_last, toNat_vmEnc] at hmsb
  rw [vmWarning]
  refine hmsb.trans ?_
  cases warning with
  | false => exact decide_eq_false (by simp; omega)
  | true => exact decide_eq_true (by simp)

theorem vmMerit_vmEnc (merit : Option (BitVec 32)) (warning : Bool) :
    vmMerit (vmEnc merit warning) = merit.map fun m => BitVec.ofNat 16 (min m.toNat 0x7FFE) := by
  have hlt := meritCode_lt merit
  have hlow : vmEnc merit warning &&& 0x7FFF#16 = BitVec.ofNat 16 (meritCode merit) := by
    apply BitVec.eq_of_toNat_eq
    have hand : (vmEnc merit warning).toNat &&& 0x7FFF = (vmEnc merit warning).toNat % 2 ^ 15 := Nat.and_two_pow_sub_one_eq_mod _ 15
    rw [BitVec.toNat_and, BitVec.toNat_ofNat, BitVec.toNat_ofNat]
    refine hand.trans ?_
    rw [toNat_vmEnc]
    cases warning <;> simp <;> omega
  rw [vmMerit, hlow]
  cases merit with
  | none => rfl
  | some m =>
    refine if_neg fun h => ?_
    have := congrArg BitVec.toNat h
    rw [BitVec.toNat_ofNat, BitVec.toNat_ofNat, meritCode, Option.elim_some] at this
    omega

/-- Settles O28, by the layout of the 5 bytes and the accessors of the metrics word. -/
theorem geoaltDecodeLayout : Obligations.GeoaltDecodeLayout := by
  refine ⟨exec_msgGeoalt, fun s p h => ?_, geoaltReencode_eq, fun merit warning =>
    ⟨vmWarning_vmEnc merit warning, vmMerit_vmEnc merit warning⟩⟩
  simp only [exec, execMsgGeoalt, decGeoalt_of_length_ne h]
  rfl

end Sys2Proof.Machine
end

section
/-! PROOFS. The uplink data and the GPS time (43_messages.md R194 to R197), then O29, O30, O31 and O32. -/

namespace Sys2Proof.Machine

/-! ## Uplink data -/

/-- Most significant byte first, read from the end, is least significant byte first. -/
theorem toBE_reverse (k v : Nat) : (toBE k v).reverse = toLE k v := by
  induction k generalizing v with
  | zero => rfl
  | succ k ih => rw [toBE, toLE, List.reverse_append, List.reverse_singleton, List.singleton_append, ih]

/-- The bytes of a time of reception in the order `TOR_ORDER` says (R162). -/
def torBytes (order : ByteOrder) (v : Nat) : Bytes :=
  match order with
  | .big => toBE 3 v
  | .little => toLE 3 v

theorem length_torBytes (order : ByteOrder) (v : Nat) : (torBytes order v).length = 3 := by
  cases order <;> rfl

section
variable (order : ByteOrder) {t : BitVec 32}

theorem torEnc_of_ge (h : 2 ^ 24 ≤ t.toNat) : torEnc order t = .error .encodeValueOutOfRange := by
  rw [torEnc, pack, if_pos (by omega)]
  rfl

theorem torEnc_of_lt (h : t.toNat < 2 ^ 24) : torEnc order t = .ok (torBytes order t.toNat) := by
  rw [torEnc, pack, if_neg (by omega), Int.toNat_natCast]
  cases order with
  | big => rfl
  | little => exact congrArg Except.ok (toBE_reverse 3 t.toNat)

theorem toNat_torDec_torBytes (h : t.toNat < 2 ^ 24) : (torDec order (torBytes order t.toNat)).toNat = t.toNat := by
  have hnat : (BitVec.ofNat 24 (beNat (toBE 3 t.toNat))).toNat = t.toNat := by
    rw [beNat_toBE_of_lt h, BitVec.toNat_ofNat, Nat.mod_eq_of_lt h]
  cases order with
  | big => exact hnat
  | little =>
    rw [torDec, torBytes, ← toBE_reverse, List.reverse_reverse]
    exact hnat

end

theorem decUplink_of_length_ne (P : Params) {p : Bytes} (h : p.length ≠ 436) : decUplink P p = .invalid .malformedField :=
  if_pos h

section
variable {P : Params} {s : State} {id : Byte} {tor header data : Bytes} (htor : tor.length = 3) (hheader : header.length = 8)
  (hdata : data.length = 424)
include htor hheader hdata

/-- The blocks of a 436-byte payload (R194). -/
theorem decUplink_eq :
    decUplink P (id :: (tor ++ header ++ data)) = .uplinkData (torDec P.torOrder tor) header data := by
  have hlength : (id :: (tor ++ header ++ data)).length = 436 := by simp [htor, hheader, hdata]
  have h1 : slice (id :: (tor ++ header ++ data)) 1 4 = tor := by
    rw [slice, List.take_succ_cons, List.drop_succ_cons, List.drop_zero, List.append_assoc, List.take_left' htor]
  have h2 : slice (id :: (tor ++ header ++ data)) 4 12 = header := by
    rw [slice, List.take_succ_cons, List.drop_succ_cons, List.take_left' (by simp [htor, hheader]), List.drop_left' htor]
  have h3 : slice (id :: (tor ++ header ++ data)) 12 436 = data := by
    rw [slice, List.take_succ_cons, List.drop_succ_cons, List.take_of_length_le (by simp [htor, hheader, hdata]),
      List.drop_left' (by simp [htor, hheader])]
  rw [decUplink, if_neg (not_not_intro hlength), h1, h2, h3]

/-- MSG_UPLINK of 436 bytes (R194). -/
theorem exec_msgUplink : exec (.msgUplink (id :: (tor ++ header ++ data))) s =
    .next (s.okWith (0x05#8 :: (toBE 4 (torDec s.params.torOrder tor).toNat ++ ([0x00#8, 0x00#8, 0x00#8, 0x08#8] ++ header) ++
      ([0x00#8, 0x00#8, 0x01#8, 0xA8#8] ++ data)))) := by
  have h8 : putBytesResult header = [0x00#8, 0x00#8, 0x00#8, 0x08#8] ++ header := by
    rw [putBytesResult_of_lt (by omega), hheader]
    rfl
  have h424 : putBytesResult data = [0x00#8, 0x00#8, 0x01#8, 0xA8#8] ++ data := by
    rw [putBytesResult_of_lt (by omega), hdata]
    rfl
  simp only [exec, execMsgUplink, decUplink_eq htor hheader hdata, finish_value, State.returnValue, State.answer, Value.encode,
    putDecodeResult, Status.code, h8, h424]

end

theorem exec_msgUplink_of_length_ne (s : State) {p : Bytes} (h : p.length ≠ 436) :
    exec (.msgUplink p) s = .next (s.okWith [0x07#8, 0x04#8]) := by
  simp only [exec, execMsgUplink, decUplink_of_length_ne _ h]
  rfl

section
variable (P : Params) {t : BitVec 32} {header data : Bytes}

/-- The operands ENC_UPLINK raises for (R195, R303). -/
theorem uplinkPayload_eq_error (h : header.length ≠ 8 ∨ data.length ≠ 424 ∨ 2 ^ 24 ≤ t.toNat) :
    uplinkPayload P t header data = .error .encodeValueOutOfRange := by
  by_cases hblocks : header.length ≠ 8 ∨ data.length ≠ 424
  · exact if_pos hblocks
  · rw [uplinkPayload, if_neg hblocks, torEnc_of_ge _ (by tauto)]
    rfl

theorem uplinkPayload_eq_ok (hheader : header.length = 8) (hdata : data.length = 424) (ht : t.toNat < 2 ^ 24) :
    uplinkPayload P t header data = .ok (P.idUplink :: (torBytes P.torOrder t.toNat ++ header ++ data)) := by
  rw [uplinkPayload, if_neg (by tauto), torEnc_of_lt _ ht]
  rfl

end

/-- Settles O29, by the checks in their order and the blocks of the payload. -/
theorem uplinkEncodeChecksAndDecodesBack : Obligations.UplinkEncodeChecksAndDecodesBack := by
  refine fun s t header data => ⟨fun h => ?_, fun hheader hdata ht => ⟨?_, ?_⟩⟩
  · simp only [exec, execEncUplink, uplinkPayload_eq_error _ h]
    rfl
  · simp only [exec, execEncUplink, uplinkPayload_eq_ok _ hheader hdata ht]
    rfl
  · have := exec_msgUplink (s := s) (id := s.params.idUplink) (length_torBytes s.params.torOrder t.toNat) hheader hdata
    rwa [toNat_torDec_torBytes _ ht] at this

/-- Three bytes read as one number and answered as a u32. -/
theorem toBE_torDec (order : ByteOrder) (t0 t1 t2 : Byte) : toBE 4 (torDec order [t0, t1, t2]).toNat =
    match order with
    | .big => [0x00#8, t0, t1, t2]
    | .little => [0x00#8, t2, t1, t0] := by
  have hbig (a b c : Byte) : toBE 4 (BitVec.ofNat 24 (beNat [a, b, c])).toNat = [0x00#8, a, b, c] := by
    have hlt : beNat [a, b, c] < 2 ^ 24 := (beNat_lt [a, b, c]).trans_eq (show 256 ^ 3 = 2 ^ 24 by norm_num)
    have hzero : beNat [a, b, c] = beNat [0x00#8, a, b, c] := by simp [beNat]
    rw [BitVec.toNat_ofNat, Nat.mod_eq_of_lt hlt, hzero]
    exact toBE_beNat [0x00#8, a, b, c]
  cases order with
  | big => exact hbig t0 t1 t2
  | little => exact hbig t2 t1 t0

/-- Settles O30, by the blocks of the payload and the kind of ID_UPLINK. -/
theorem uplinkDecodeLayout : Obligations.UplinkDecodeLayout := by
  refine ⟨fun s id t0 t1 t2 header data hheader hdata => ?_, fun s p => exec_msgUplink_of_length_ne s, fun P rest h => ?_,
    fun s rest h => exec_decPayload_of_kind (kindOfId_uplink h), rfl, by decide +kernel⟩
  · have := exec_msgUplink (s := s) (id := id) (tor := [t0, t1, t2]) rfl hheader hdata
    rw [toBE_torDec] at this
    exact this
  · rw [decodePayload, kindOfPayload, kindOfId_uplink h]

/-! ## GPS time -/

theorem decGpstime_of_29 (P : Params) {p : Bytes} (h : p.length = 29) : decGpstime P p = .ok .absent := if_pos h

theorem decGpstime_of_length_ne (P : Params) {p : Bytes} (h12 : p.length ≠ 12) (h21 : p.length ≠ 21) (h29 : p.length ≠ 29) :
    decGpstime P p = .ok (.invalid .malformedField) := by
  rw [decGpstime, if_neg h29, if_pos ⟨h12, h21⟩]

/-- Where the layout reads the fields of a payload of this length (R196). -/
abbrev gpsVariantOf (L : GpsLayout) (p : Bytes) : GpsVariant := if p.length = 12 then L.short else L.long

/-- The WAAS indication at the layout's place, where it names one (R196, log 5). -/
def gpsWaas (v : GpsVariant) (p : Bytes) : Option Bool := v.waas.map fun (b, i) => (p.getD b 0x00#8).getLsbD i

section
variable {P : Params} {L : GpsLayout} {p : Bytes} {hour minute : Byte} (hlength : p.length = 12 ∨ p.length = 21)
  (hlayout : P.gpsLayout = some L) (hhour : p[(gpsVariantOf L p).hour]? = some hour)
  (hminute : p[(gpsVariantOf L p).minute]? = some minute)
include hlength hlayout hhour hminute

/-- The decode of a payload of 12 or 21 bytes: the range check, then the time (R196, R310). -/
theorem decGpstime_eq : decGpstime P p = .ok (if 23 < hour.toNat ∨ 59 < minute.toNat then .invalid .invalidTimeField
    else .gpsTime hour minute (gpsWaas (gpsVariantOf L p) p)) := by
  have hdecode : gpsDecode L p = (hour, minute, gpsWaas (gpsVariantOf L p) p) := by
    simp only [gpsDecode, List.getD_eq_getElem?_getD, hhour, hminute, Option.getD_some, gpsWaas]
  rw [decGpstime, if_neg (by omega), if_neg (by omega), hlayout]
  simp only [hdecode, gt_iff_lt]
  split_ifs <;> rfl

theorem decGpstime_of_late (h : 23 < hour.toNat ∨ 59 < minute.toNat) :
    decGpstime P p = .ok (.invalid .invalidTimeField) := by
  rw [decGpstime_eq hlength hlayout hhour hminute, if_pos h]

theorem decGpstime_of_time (hh : hour.toNat ≤ 23) (hm : minute.toNat ≤ 59) :
    decGpstime P p = .ok (.gpsTime hour minute (gpsWaas (gpsVariantOf L p) p)) := by
  rw [decGpstime_eq hlength hlayout hhour hminute, if_neg (by omega)]

end

theorem exec_msgGpstime_of_eq {s : State} {p : Bytes} {o : Except RefusalReason DecodeResult}
    (h : decGpstime s.params p = o) : exec (.msgGpstime p) s = .next (s.finish (endingOfDecode o)) := by
  rw [← h]
  rfl

/-- What a lawful layout says of the places of hour and minute (R196, R197). -/
theorem gpsVariantLawful_lt {v : GpsVariant} {n : Nat} (h : gpsVariantLawful v n = true) :
    1 ≤ v.hour ∧ v.hour < n ∧ 1 ≤ v.minute ∧ v.minute < n ∧ v.hour ≠ v.minute := by
  rw [gpsVariantLawful, Bool.and_eq_true, decide_eq_true_eq] at h
  exact h.1

theorem gpsLayoutLawful_short {L : GpsLayout} (h : gpsLayoutLawful L = true) : gpsVariantLawful L.short 12 = true := by
  rw [gpsLayoutLawful, Bool.and_eq_true, Bool.and_eq_true] at h
  exact h.1.1

theorem gpsLayoutLawful_long {L : GpsLayout} (h : gpsLayoutLawful L = true) : gpsVariantLawful L.long 21 = true := by
  rw [gpsLayoutLawful, Bool.and_eq_true, Bool.and_eq_true] at h
  exact h.1.2

theorem gpsLayoutLawful_status {L : GpsLayout} (h : gpsLayoutLawful L = true) :
    1 ≤ L.status ∧ L.status < 12 ∧ L.status ≠ L.short.hour ∧ L.status ≠ L.short.minute := by
  rw [gpsLayoutLawful, Bool.and_eq_true, decide_eq_true_eq] at h
  exact h.2

/-- Settles O32, by the order of the decoder's checks. -/
theorem gpsTimeDecodeOutcomes : Obligations.GpsTimeDecodeOutcomes := by
  refine fun s p => ⟨fun h => exec_msgGpstime_of_eq (decGpstime_of_29 _ h),
    fun h12 h21 h29 => exec_msgGpstime_of_eq (decGpstime_of_length_ne _ h12 h21 h29),
    fun hlength => ⟨fun hnone => exec_msgGpstime_of_eq (decGpstime_of_no_layout hlength hnone), fun L hL hlawful => ?_⟩⟩
  intro v
  have hplaces : v.hour < p.length ∧ v.minute < p.length := by
    rcases hlength with h | h
    · obtain ⟨-, hh, -, hm, -⟩ := gpsVariantLawful_lt (gpsLayoutLawful_short hlawful)
      rw [show v = L.short from if_pos h, h]
      exact ⟨hh, hm⟩
    · obtain ⟨-, hh, -, hm, -⟩ := gpsVariantLawful_lt (gpsLayoutLawful_long hlawful)
      rw [show v = L.long from if_neg (by omega), h]
      exact ⟨hh, hm⟩
  have hhour : p[v.hour]? = some p[v.hour] := List.getElem?_eq_getElem hplaces.1
  have hminute : p[v.minute]? = some p[v.minute] := List.getElem?_eq_getElem hplaces.2
  refine ⟨_, _, hhour, hminute, fun hlate => exec_msgGpstime_of_eq (decGpstime_of_late hlength hL hhour hminute hlate),
    fun hh hm => ⟨gpsWaas v p, by simp [gpsWaas],
      exec_msgGpstime_of_eq (decGpstime_of_time hlength hL hhour hminute hh hm)⟩⟩

section
variable (L : GpsLayout) (count : BitVec 32) (q hour minute : Byte)

theorem length_gpsBody : (gpsBody L count q hour minute).length = 11 := by simp [gpsBody]

/-- The byte at payload offset `i` of an encoded time, by the places the layout names (R197). -/
theorem getElem?_gpsBody {i : Nat} (h1 : 1 ≤ i) (h12 : i < 12) : (gpsBody L count q hour minute)[i - 1]? =
    some (if i = L.status then 0x30#8 + q
      else if i = L.short.hour then hour
      else if i = L.short.minute then minute
      else Config.gpsFillByte L count q hour minute i) := by
  have hi : i - 1 + 1 = i := by omega
  rw [gpsBody, List.getElem?_map, List.getElem?_range (by omega), Option.map_some, hi]

end

section
variable {P : Params} {hour minute : Byte} (count : BitVec 32) (quality : Byte)

theorem gpstimeEnding_of_late (h : 23 < hour.toNat ∨ 59 < minute.toNat) :
    gpstimeEnding P count quality hour minute = .raised .encodeValueOutOfRange := if_pos h

theorem gpstimeEnding_of_no_layout (hh : hour.toNat ≤ 23) (hm : minute.toNat ≤ 59) (h : P.gpsLayout = none) :
    gpstimeEnding P count quality hour minute = .refused .gpsLayoutOpen := by
  rw [gpstimeEnding, if_neg (by omega), h]

theorem gpstimeEnding_of_layout (hh : hour.toNat ≤ 23) (hm : minute.toNat ≤ 59) {L : GpsLayout} (h : P.gpsLayout = some L) :
    gpstimeEnding P count quality hour minute = .value (.bytes (prepareFrame (0x65#8 ::
      gpsBody L count (BitVec.ofNat 8 (min quality.toNat 2)) hour minute))) := by
  rw [gpstimeEnding, if_neg (by omega), h]

end

theorem exec_encGpstime_of_eq {s : State} {count : BitVec 32} {quality hour minute : Byte} {e : Ending}
    (h : gpstimeEnding s.params count quality hour minute = e) :
    exec (.encGpstime count quality hour minute) s = .next (s.finish e) := by
  rw [← h]
  rfl

/-- Settles O31, by the checks in their order and the three places a lawful layout keeps apart. -/
theorem gpsTimeEncodeOutcomes : Obligations.GpsTimeEncodeOutcomes := by
  refine fun s count quality hour minute => ⟨fun h => exec_encGpstime_of_eq (gpstimeEnding_of_late count quality h),
    fun hh hm hnone => exec_encGpstime_of_eq (gpstimeEnding_of_no_layout count quality hh hm hnone),
    fun L hh hm hL hlawful => ?_⟩
  obtain ⟨hs1, hs12, hsh, hsm⟩ := gpsLayoutLawful_status hlawful
  obtain ⟨hh1, hh12, hm1, hm12, hhm⟩ := gpsVariantLawful_lt (gpsLayoutLawful_short hlawful)
  let q : Byte := BitVec.ofNat 8 (min quality.toNat 2)
  let body : Bytes := gpsBody L count q hour minute
  have hlength : (0x65#8 :: body).length = 12 := by rw [List.length_cons, length_gpsBody]
  have hbyte {i : Nat} (h1 : 1 ≤ i) : (0x65#8 :: body)[i]? = body[i - 1]? := by
    rw [List.getElem?_cons, if_neg (by omega)]
  have hvariant : gpsVariantOf L (0x65#8 :: body) = L.short := if_pos hlength
  refine ⟨body, _, length_gpsBody .., ?_, exec_encGpstime_of_eq (gpstimeEnding_of_layout count quality hh hm hL),
    exec_msgGpstime_of_eq (decGpstime_of_time (.inl hlength) hL ?_ ?_ hh hm)⟩
  · rw [getElem?_gpsBody _ _ _ _ _ hs1 hs12, if_pos rfl]
  · rw [hvariant, hbyte hh1, getElem?_gpsBody _ _ _ _ _ hh1 hh12, if_neg hsh.symm, if_pos rfl]
  · rw [hvariant, hbyte hm1, getElem?_gpsBody _ _ _ _ _ hm1 hm12, if_neg hsm.symm, if_neg hhm.symm, if_pos rfl]

end Sys2Proof.Machine
end

section
/-! PROOFS. The reports (43_messages.md R185 to R189; 20_memory.md R42): what `setbits` does to the bits of a byte string, what a field
reads from the bytes it lies in, then the encoders' checks (O24), their payload read back (O25) and the layout (O26). -/

namespace Sys2Proof.Machine

/-! ## Bit fields of byte strings (R42) -/

section
variable {p : Bytes} {o w : Nat} (v : Nat) (h : o + w ≤ 8 * p.length)
include h

theorem beNat_setbits : beNat (setbits p o w v) =
    (beNat p ^^^ (getbits p o w <<< (8 * p.length - o - w))) ||| ((v % 2 ^ w) <<< (8 * p.length - o - w)) := by
  have hpow : 256 ^ p.length = 2 ^ (8 * p.length) := (Nat.pow_mul 2 8 p.length).symm
  have hshift {x : Nat} (hx : x < 2 ^ w) : x <<< (8 * p.length - o - w) < 2 ^ (8 * p.length) := by
    rw [Nat.shiftLeft_eq]
    calc
      x * 2 ^ (8 * p.length - o - w) < 2 ^ w * 2 ^ (8 * p.length - o - w) := Nat.mul_lt_mul_of_pos_right hx (Nat.two_pow_pos _)
      _ = 2 ^ (w + (8 * p.length - o - w)) := (Nat.pow_add ..).symm
      _ ≤ 2 ^ (8 * p.length) := Nat.pow_le_pow_right (by decide) (by omega)
  rw [setbits, beNat_toBE_of_lt]
  rw [hpow]
  exact Nat.or_lt_two_pow (Nat.xor_lt_two_pow (hpow ▸ beNat_lt p) (hshift (getbits_lt p o w)))
    (hshift (Nat.mod_lt _ (Nat.two_pow_pos w)))

/-- The bits of the field are those of the value, every other bit is as it was. -/
theorem testBit_setbits (i : Nat) : (beNat (setbits p o w v)).testBit i =
    if 8 * p.length - o - w ≤ i ∧ i < 8 * p.length - o then v.testBit (i - (8 * p.length - o - w)) else (beNat p).testBit i := by
  rw [beNat_setbits v h, Nat.testBit_or, Nat.testBit_xor, Nat.testBit_shiftLeft, Nat.testBit_shiftLeft, getbits,
    Nat.testBit_mod_two_pow, Nat.testBit_mod_two_pow, Nat.testBit_shiftRight]
  by_cases hlow : 8 * p.length - o - w ≤ i
  · have hi : 8 * p.length - o - w + (i - (8 * p.length - o - w)) = i := by omega
    by_cases hin : i < 8 * p.length - o
    · have hw : i - (8 * p.length - o - w) < w := by omega
      simp [hlow, hin, hw, hi]
    · have hw : ¬ i - (8 * p.length - o - w) < w := by omega
      simp [hlow, hin, hw]
  · simp [hlow]

theorem getbits_setbits_same : getbits (setbits p o w v) o w = v % 2 ^ w := by
  apply Nat.eq_of_testBit_eq
  intro i
  rw [getbits, Nat.testBit_mod_two_pow, Nat.testBit_mod_two_pow, Nat.testBit_shiftRight, testBit_setbits v h, setbits_length]
  by_cases hi : i < w
  · rw [if_pos (by omega), Nat.add_sub_cancel_left]
  · simp [hi]

theorem getbits_setbits_of_disjoint {o' w' : Nat} (h' : o' + w' ≤ 8 * p.length) (hd : o + w ≤ o' ∨ o' + w' ≤ o) :
    getbits (setbits p o w v) o' w' = getbits p o' w' := by
  apply Nat.eq_of_testBit_eq
  intro i
  rw [getbits, getbits, Nat.testBit_mod_two_pow, Nat.testBit_mod_two_pow, Nat.testBit_shiftRight, Nat.testBit_shiftRight,
    testBit_setbits v h, setbits_length]
  by_cases hi : i < w'
  · rw [if_neg (by omega)]
  · simp [hi]

theorem fieldAt_setbits_same : fieldAt (setbits p o w v) o w = BitVec.ofNat w v := by
  apply BitVec.eq_of_toNat_eq
  rw [fieldAt, getbits_setbits_same v h, BitVec.toNat_ofNat, BitVec.toNat_ofNat, Nat.mod_mod]

theorem fieldAt_setbits_of_disjoint {o' w' : Nat} (h' : o' + w' ≤ 8 * p.length) (hd : o + w ≤ o' ∨ o' + w' ≤ o) :
    fieldAt (setbits p o w v) o' w' = fieldAt p o' w' := congrArg (BitVec.ofNat w') (getbits_setbits_of_disjoint v h h' hd)

end

/-- A field that lies in `mid` is read from `mid` alone. -/
theorem getbits_append (front mid back : Bytes) {i w : Nat} (h : i + w ≤ 8 * mid.length) :
    getbits (front ++ (mid ++ back)) (8 * front.length + i) w = getbits mid i w := by
  obtain ⟨m, hm⟩ : ∃ m, 8 * mid.length = m + (i + w) := ⟨8 * mid.length - (i + w), by omega⟩
  have hshift : 8 * (front ++ (mid ++ back)).length - (8 * front.length + i) - w = 8 * back.length + m := by
    simp only [List.length_append]
    omega
  have hmid : 8 * mid.length - i - w = m := by omega
  have hback : beNat (front ++ (mid ++ back)) / 2 ^ (8 * back.length) = beNat front * 256 ^ mid.length + beNat mid := by
    have hpow : 256 ^ back.length = 2 ^ (8 * back.length) := (Nat.pow_mul 2 8 back.length).symm
    have hlt := beNat_lt back
    rw [← List.append_assoc, beNat_append (front ++ mid), beNat_append front mid, ← hpow, Nat.mul_comm,
      Nat.mul_add_div (by positivity), Nat.div_eq_of_lt hlt, Nat.add_zero]
  have hsplit : 256 ^ mid.length = 2 ^ m * 2 ^ i * 2 ^ w := by
    rw [show (256 : Nat) = 2 ^ 8 from rfl, ← Nat.pow_mul, hm, Nat.pow_add, Nat.pow_add, Nat.mul_assoc]
  rw [getbits, getbits, hshift, hmid, Nat.shiftRight_add, Nat.shiftRight_eq_div_pow _ (8 * back.length), hback,
    Nat.shiftRight_eq_div_pow, Nat.shiftRight_eq_div_pow, hsplit]
  have hfront : beNat front * (2 ^ m * 2 ^ i * 2 ^ w) = 2 ^ m * (beNat front * 2 ^ i * 2 ^ w) := by ring
  rw [hfront, Nat.mul_add_div (Nat.two_pow_pos m), Nat.add_comm, Nat.add_mul_mod_self_right]

/-- A field that lies in the bytes from `a` to `b` is read from them alone. -/
theorem getbits_slice {p : Bytes} (a b : Nat) {i w : Nat} (hab : a ≤ b) (hb : b ≤ p.length) (h : i + w ≤ 8 * (b - a)) :
    getbits p (8 * a + i) w = getbits (slice p a b) i w := by
  have hp : p = p.take a ++ (slice p a b ++ p.drop b) := by
    have hmid : p.take a ++ slice p a b = p.take b := by
      have := List.take_append_drop a (p.take b)
      rwa [List.take_take, Nat.min_eq_left hab] at this
    rw [← List.append_assoc, hmid, List.take_append_drop]
  have hlength : (slice p a b).length = b - a := by
    rw [slice, List.length_drop, List.length_take, Nat.min_eq_left hb]
  have := getbits_append (p.take a) (slice p a b) (p.drop b) (i := i) (w := w) (by rwa [hlength])
  rwa [← hp, List.length_take, Nat.min_eq_left (hab.trans hb)] at this

theorem fieldAt_of_slice {p bytes : Bytes} {a b : Nat} (i w : Nat) (hs : slice p a b = bytes) (hab : a ≤ b) (hb : b ≤ p.length)
    (h : i + w ≤ 8 * (b - a)) : fieldAt p (8 * a + i) w = fieldAt bytes i w := by
  rw [← hs]
  exact congrArg (BitVec.ofNat w) (getbits_slice a b hab hb h)

/-- The whole of a byte string as one field. -/
theorem getbits_whole (p : Bytes) : getbits p 0 (8 * p.length) = beNat p := by
  have hlt : beNat p < 2 ^ (8 * p.length) := by
    rw [Nat.pow_mul]
    exact beNat_lt p
  rw [getbits, Nat.sub_zero, Nat.sub_self, Nat.shiftRight_zero, Nat.mod_eq_of_lt hlt]

/-- Bytes that read as the integer of `q` are `q`. -/
theorem slice_eq_of_getbits {p q : Bytes} (a b : Nat) (hab : a ≤ b) (hb : b ≤ p.length) (hq : q.length = b - a)
    (h : getbits p (8 * a) (8 * (b - a)) = beNat q) : slice p a b = q := by
  have hlength : (slice p a b).length = b - a := by
    rw [slice, List.length_drop, List.length_take, Nat.min_eq_left hb]
  have hnat : beNat (slice p a b) = beNat q := by
    rw [← h, ← getbits_whole, hlength]
    exact (getbits_slice a b hab hb (i := 0) (by omega)).symm
  rw [← toBE_beNat (slice p a b), ← toBE_beNat q, hnat, hlength, hq]

/-- The first byte of a payload as a field. -/
theorem head?_eq_some_of_getbits {p : Bytes} {id : Byte} (hp : 1 ≤ p.length) (h : getbits p 0 8 = id.toNat) :
    p.head? = some id := by
  have hslice : slice p 0 1 = [id] := slice_eq_of_getbits 0 1 (by omega) hp rfl (by rw [beNat_singleton]; exact h)
  obtain ⟨b, rest, rfl⟩ := List.exists_cons_of_ne_nil (List.ne_nil_of_length_pos hp)
  exact congrArg some (List.cons.inj hslice).1

/-! ## The encoders' checks -/

/-- A computation whose only error is `EncodeValueOutOfRange`. -/
def OnlyOutOfRange {α : Type} (x : Except Status α) : Prop := x = .error .encodeValueOutOfRange ∨ ∃ a, x = .ok a

theorem onlyOutOfRange_pack (k : Nat) (v : Int) : OnlyOutOfRange (pack k v) := by
  rw [pack]
  split_ifs
  · exact .inl rfl
  · exact .inr ⟨_, rfl⟩

theorem onlyOutOfRange_coordEnc (limit : Nat) (deg : F64) : OnlyOutOfRange (coordEnc limit deg) := by
  by_cases h : realOf deg = .nan
  · exact .inl (coordEnc_of_nan h)
  · exact .inr (coordEnc_of_ne_nan h)

theorem onlyOutOfRange_trackEnc (mode : RoundMode) (deg : F64) : OnlyOutOfRange (trackEnc mode deg) := by
  cases h : realOf deg with
  | nan => exact .inl (trackEnc_of_nan h)
  | infinite negative => exact .inl (trackEnc_of_infinite h)
  | finite num den => exact .inr ⟨_, trackEnc_of_finite h⟩

/-- A chain fails out of range where its first part does, or the rest does whatever the first gives. -/
theorem bind_eq_outOfRange {α β : Type} {x : Except Status α} {f : α → Except Status β} (hx : OnlyOutOfRange x)
    (hf : ∀ a, x = .ok a → f a = .error .encodeValueOutOfRange) : x >>= f = .error .encodeValueOutOfRange := by
  rcases hx with hx | ⟨a, ha⟩
  · rw [hx]
    rfl
  · rw [ha]
    exact hf a ha

/-- The 28 bytes of a report, field by field (R185, R188). -/
def reportPayload (P : Params) (r : ReportIn) (id : Byte) (a : Bytes) (lat lon : BitVec 24) (trk : Byte) : Bytes :=
  let p := setbits (List.replicate 28 0#8) 0 8 id.toNat
  let p := setbits p 8 4 (nibEnc r.status).toNat
  let p := setbits p 12 4 (nibEnc r.addressType).toNat
  let p := setbits p 16 24 (beNat a)
  let p := setbits p 40 24 lat.toNat
  let p := setbits p 64 24 lon.toNat
  let p := setbits p 88 12 (altEnc P.altQuant P.roundMode r.altitude.toInt).toNat
  let p := setbits p 100 4 (nibEnc r.misc).toNat
  let p := setbits p 104 4 (nibEnc r.navIntegrityCat).toNat
  let p := setbits p 108 4 (nibEnc r.navAccuracyCat).toNat
  let p := setbits p 112 12 (hvelEnc (r.hVelocity.map BitVec.toInt)).toNat
  let p := setbits p 124 12 (vvelEnc P (r.vVelocity.map BitVec.toInt)).toNat
  let p := setbits p 136 8 trk.toNat
  let p := setbits p 144 8 r.emitterCategory.toNat
  let p := setbits p 152 64 (beNat (callsignEnc r.callSign))
  setbits p 216 4 (nibEnc r.code).toNat

section
variable (P : Params) (r : ReportIn) (id : Byte)

/-- The report encoder: four checks, then the packing (R188, R310). -/
theorem encReport_eq : encReport P r id = do
    let a ← pack 3 r.address.toNat
    let lat ← latEnc r.latitude
    let lon ← lonEnc r.longitude
    let trk ← trackEnc P.roundMode r.trackHeading
    return reportPayload P r id a lat lon trk := rfl

theorem encReport_of_illegal (h : reportIllegal r) : encReport P r id = .error .encodeValueOutOfRange := by
  rw [encReport_eq]
  refine bind_eq_outOfRange (onlyOutOfRange_pack _ _) fun a ha => bind_eq_outOfRange (onlyOutOfRange_coordEnc _ _) fun lat hlat =>
    bind_eq_outOfRange (onlyOutOfRange_coordEnc _ _) fun lon hlon => bind_eq_outOfRange (onlyOutOfRange_trackEnc _ _)
    fun trk htrk => ?_
  rcases h with h | h | h | h | ⟨negative, h⟩
  · rw [pack, if_pos (by omega)] at ha
    cases ha
  · cases hlat.symm.trans (coordEnc_of_nan h)
  · cases hlon.symm.trans (coordEnc_of_nan h)
  · cases htrk.symm.trans (trackEnc_of_nan h)
  · cases htrk.symm.trans (trackEnc_of_infinite h)

variable {r}

/-- The codes of a legal report (R303). -/
theorem codes_of_legal (h : ¬ reportIllegal r) : r.address.toNat < 2 ^ 24 ∧ (∃ lat, latEnc r.latitude = .ok lat) ∧
    (∃ lon, lonEnc r.longitude = .ok lon) ∧ ∃ trk, trackEnc P.roundMode r.trackHeading = .ok trk := by
  simp only [not_or, not_le, not_exists] at h
  obtain ⟨ha, hlat, hlon, hnan, hinf⟩ := h
  refine ⟨ha, coordEnc_of_ne_nan hlat, coordEnc_of_ne_nan hlon, ?_⟩
  cases ht : realOf r.trackHeading with
  | nan => exact absurd ht hnan
  | infinite negative => exact absurd ht (hinf negative)
  | finite num den => exact ⟨_, trackEnc_of_finite ht⟩

theorem encReport_of_legal {lat lon : BitVec 24} {trk : Byte} (ha : r.address.toNat < 2 ^ 24)
    (hlat : latEnc r.latitude = .ok lat) (hlon : lonEnc r.longitude = .ok lon)
    (htrk : trackEnc P.roundMode r.trackHeading = .ok trk) :
    encReport P r id = .ok (reportPayload P r id (toBE 3 r.address.toNat) lat lon trk) := by
  have hpack : pack 3 r.address.toNat = .ok (toBE 3 r.address.toNat) := by
    rw [pack, if_neg (by omega), Int.toNat_natCast]
  rw [encReport_eq, hpack, hlat, hlon, htrk]
  rfl

end

/-! ## The fields of the payload -/

section
variable (P : Params) (r : ReportIn) (id : Byte) (a : Bytes) (lat lon : BitVec 24) (trk : Byte)

theorem length_reportPayload : (reportPayload P r id a lat lon trk).length = 28 := by simp [reportPayload]

/-- The field written last is the field read, and fields that do not overlap are passed over: each field of the payload is the
value it was given. -/
theorem reportOf_reportPayload (ha : a = toBE 3 r.address.toNat) (haddress : r.address.toNat < 2 ^ 24) :
    reportOf P (reportPayload P r id a lat lon trk) =
      { status := nibEnc r.status
        addressType := nibEnc r.addressType
        address := r.address.setWidth 24
        latitude := coordDec lat
        longitude := coordDec lon
        altitude := altDec (altEnc P.altQuant P.roundMode r.altitude.toInt)
        misc := nibEnc r.misc
        navIntegrityCat := nibEnc r.navIntegrityCat
        navAccuracyCat := nibEnc r.navAccuracyCat
        hVelocity := hvelDec (hvelEnc (r.hVelocity.map BitVec.toInt))
        vVelocity := vvelDec P (vvelEnc P (r.vVelocity.map BitVec.toInt))
        trackHeading := trackDec trk
        emitterCategory := r.emitterCategory
        callSign := callsignDec (callsignEnc r.callSign)
        code := nibEnc r.code } := by
  have hcallsign : slice (reportPayload P r id a lat lon trk) 19 27 = callsignEnc r.callSign := by
    refine slice_eq_of_getbits 19 27 (by decide) (by simp [length_reportPayload]) (length_callsignEnc _) ?_
    have hlt : beNat (callsignEnc r.callSign) < 2 ^ 64 := by
      have := beNat_lt (callsignEnc r.callSign)
      rwa [length_callsignEnc, show (256 : Nat) ^ 8 = 2 ^ 64 by norm_num] at this
    have hfield : getbits (reportPayload P r id a lat lon trk) 152 64 = beNat (callsignEnc r.callSign) % 2 ^ 64 := by
      simp [reportPayload, getbits_setbits_same, getbits_setbits_of_disjoint]
    exact hfield.trans (Nat.mod_eq_of_lt hlt)
  have hbe : BitVec.ofNat 24 (beNat a) = r.address.setWidth 24 := by
    rw [ha, beNat_toBE_of_lt haddress, BitVec.ofNat_toNat]
  rw [reportOf, hcallsign, ← hbe]
  simp [reportPayload, fieldAt_setbits_same, fieldAt_setbits_of_disjoint]

theorem getbits_reportPayload_id : getbits (reportPayload P r id a lat lon trk) 0 8 = id.toNat := by
  have : getbits (reportPayload P r id a lat lon trk) 0 8 = id.toNat % 2 ^ 8 := by
    simp only [reportPayload, getbits_setbits_same, getbits_setbits_of_disjoint, setbits_length, List.length_replicate,
      Nat.reduceMul, Nat.reduceAdd, Nat.reduceLeDiff, or_true]
  rw [this, Nat.mod_eq_of_lt id.isLt]

theorem getbits_reportPayload_spare : getbits (reportPayload P r id a lat lon trk) 220 4 = 0 := by
  have hzero : getbits (List.replicate 28 0#8) 220 4 = 0 := by decide
  simpa [reportPayload, getbits_setbits_of_disjoint] using hzero

theorem head?_reportPayload : (reportPayload P r id a lat lon trk).head? = some id :=
  head?_eq_some_of_getbits (by simp [length_reportPayload]) (getbits_reportPayload_id ..)

end

/-! ## Encoding and decoding again -/

/-- A report of 28 bytes with its ID is decoded (R186, R187). -/
theorem decReport_of_length {P : Params} {p : Bytes} {id : Byte} (variant : Report → DecodeResult) (hlength : p.length = 28)
    (hid : p.head? = some id) : decReport P p id variant = variant (reportOf P p) := by
  rw [decReport, if_neg (by simp [hlength, hid])]

theorem decReport_of_malformed {P : Params} {p : Bytes} {id : Byte} (variant : Report → DecodeResult)
    (h : p.length ≠ 28 ∨ p.head? ≠ some id) : decReport P p id variant = .invalid .malformedField := if_pos h

section
variable (s : State)

theorem exec_encOwnship_of_eq {r : ReportIn} {v : Except Status Bytes} (h : encReport s.params r 0x0A#8 = v) :
    exec (.encOwnship r) s = .next (s.finish (framed v)) := by
  rw [← h]
  rfl

theorem exec_encTraffic_of_eq {r : ReportIn} {v : Except Status Bytes} (h : encReport s.params r s.params.idTraffic = v) :
    exec (.encTraffic r) s = .next (s.finish (framed v)) := by
  rw [← h]
  rfl

theorem exec_msgOwnship_of_eq {p : Bytes} {v : DecodeResult} (h : decReport s.params p 0x0A#8 .ownshipReport = v) :
    exec (.msgOwnship p) s = .next (s.okWith (putDecodeResult v)) := by
  rw [← h]
  rfl

theorem exec_msgTraffic_of_eq {p : Bytes} {v : DecodeResult}
    (h : decReport s.params p s.params.idTraffic .trafficReport = v) :
    exec (.msgTraffic p) s = .next (s.okWith (putDecodeResult v)) := by
  rw [← h]
  rfl

end

/-- Settles O24, by the four checks and the packing. -/
theorem reportEncodersRaiseExactlyWhenIllegal : Obligations.ReportEncodersRaiseExactlyWhenIllegal := by
  refine fun r s => ⟨fun h => ⟨exec_encOwnship_of_eq s (encReport_of_illegal s.params r _ h),
    exec_encTraffic_of_eq s (encReport_of_illegal s.params r _ h)⟩, fun h => ?_⟩
  obtain ⟨ha, ⟨lat, hlat⟩, ⟨lon, hlon⟩, trk, htrk⟩ := codes_of_legal s.params h
  exact ⟨_, _, length_reportPayload .., head?_reportPayload .., length_reportPayload .., head?_reportPayload ..,
    exec_encOwnship_of_eq s (encReport_of_legal s.params _ ha hlat hlon htrk),
    exec_encTraffic_of_eq s (encReport_of_legal s.params _ ha hlat hlon htrk)⟩

/-- Settles O25, by the fields of the packed payload. -/
theorem reportEncodeDecodesBack : Obligations.ReportEncodeDecodesBack := by
  intro r s h
  obtain ⟨ha, ⟨lat, hlat⟩, ⟨lon, hlon⟩, trk, htrk⟩ := codes_of_legal s.params h
  have hout (id : Byte) := reportOf_reportPayload s.params r id _ lat lon trk rfl ha
  refine ⟨lat, lon, trk, _, _, hlat, hlon, htrk, length_reportPayload .., length_reportPayload ..,
    getbits_reportPayload_spare .., getbits_reportPayload_spare ..,
    exec_encOwnship_of_eq s (encReport_of_legal s.params _ ha hlat hlon htrk), ?_,
    exec_encTraffic_of_eq s (encReport_of_legal s.params _ ha hlat hlon htrk), ?_⟩
  · rw [← hout]
    exact exec_msgOwnship_of_eq s (decReport_of_length _ (length_reportPayload ..) (head?_reportPayload ..))
  · rw [← hout]
    exact exec_msgTraffic_of_eq s (decReport_of_length _ (length_reportPayload ..) (head?_reportPayload ..))

/-! ## The layout, byte by byte -/

section
variable (b c d : Byte)

theorem fieldAt_byte : fieldAt [b] 0 8 = b := by
  apply BitVec.eq_of_toNat_eq
  simpa [fieldAt, getbits] using b.isLt

theorem fieldAt_high_nibble : fieldAt [b] 0 4 = b.extractLsb' 4 4 := by
  apply BitVec.eq_of_toNat_eq
  simp [fieldAt, getbits]

theorem fieldAt_low_nibble : fieldAt [b] 4 4 = b.extractLsb' 0 4 := by
  apply BitVec.eq_of_toNat_eq
  simp [fieldAt, getbits]

theorem fieldAt_byte_nibble : fieldAt [b, c] 0 12 = b ++ c.extractLsb' 4 4 := by
  apply BitVec.eq_of_toNat_eq
  have hb := b.isLt
  have hc := c.isLt
  have hlow : (c.extractLsb' 4 4).toNat = c.toNat / 16 := by
    rw [BitVec.extractLsb'_toNat, Nat.shiftRight_eq_div_pow]
    omega
  rw [BitVec.toNat_append, ← Nat.shiftLeft_add_eq_or_of_lt (by omega), hlow, Nat.shiftLeft_eq, fieldAt, getbits, beNat_pair,
    BitVec.toNat_ofNat, Nat.shiftRight_eq_div_pow]
  simp only [List.length_cons, List.length_nil]
  omega

theorem fieldAt_nibble_byte : fieldAt [b, c] 4 12 = b.extractLsb' 0 4 ++ c := by
  apply BitVec.eq_of_toNat_eq
  have hb := b.isLt
  have hc := c.isLt
  rw [toNat_append_byte, BitVec.extractLsb'_toNat, fieldAt, getbits, beNat_pair, BitVec.toNat_ofNat, Nat.shiftRight_eq_div_pow,
    Nat.shiftRight_eq_div_pow]
  simp only [List.length_cons, List.length_nil]
  omega

theorem fieldAt_three_bytes : fieldAt [b, c, d] 0 24 = b ++ c ++ d := by
  apply BitVec.eq_of_toNat_eq
  have hb := b.isLt
  have hc := c.isLt
  have hd := d.isLt
  have hbe : beNat [b, c, d] = (b.toNat * 256 + c.toNat) * 256 + d.toNat := by simp [beNat]
  rw [toNat_append_byte, toNat_append_byte, fieldAt, getbits, hbe, BitVec.toNat_ofNat, Nat.shiftRight_eq_div_pow]
  simp only [List.length_cons, List.length_nil]
  omega

end

/-- The record of a report of 28 bytes, each field from the bytes it lies in (R185). -/
theorem reportOf_bytes (P : Params) (b0 b1 b2 b3 b4 b5 b6 b7 b8 b9 b10 b11 b12 b13 b14 b15 b16 b17 b18 b19 b20 b21 b22 b23
    b24 b25 b26 b27 : Byte) :
    reportOf P [b0, b1, b2, b3, b4, b5, b6, b7, b8, b9, b10, b11, b12, b13, b14, b15, b16, b17, b18, b19, b20, b21, b22, b23,
      b24, b25, b26, b27] =
      { status := b1.extractLsb' 4 4
        addressType := b1.extractLsb' 0 4
        address := b2 ++ b3 ++ b4
        latitude := coordDec (b5 ++ b6 ++ b7)
        longitude := coordDec (b8 ++ b9 ++ b10)
        altitude := altDec (b11 ++ b12.extractLsb' 4 4)
        misc := b12.extractLsb' 0 4
        navIntegrityCat := b13.extractLsb' 4 4
        navAccuracyCat := b13.extractLsb' 0 4
        hVelocity := hvelDec (b14 ++ b15.extractLsb' 4 4)
        vVelocity := vvelDec P (b15.extractLsb' 0 4 ++ b16)
        trackHeading := trackDec b17
        emitterCategory := b18
        callSign := callsignDec [b19, b20, b21, b22, b23, b24, b25, b26]
        code := b27.extractLsb' 4 4 } := by
  generalize hp : [b0, b1, b2, b3, b4, b5, b6, b7, b8, b9, b10, b11, b12, b13, b14, b15, b16, b17, b18, b19, b20, b21, b22,
    b23, b24, b25, b26, b27] = p
  have hlength : p.length = 28 := hp ▸ rfl
  have field {a b : Nat} {bytes : Bytes} (i w : Nat) (hs : slice p a b = bytes)
      (hi : a ≤ b ∧ b ≤ 28 ∧ i + w ≤ 8 * (b - a)) : fieldAt p (8 * a + i) w = fieldAt bytes i w :=
    fieldAt_of_slice i w hs hi.1 (hlength ▸ hi.2.1) hi.2.2
  have s1 : slice p 1 2 = [b1] := by subst hp; rfl
  have s2 : slice p 2 5 = [b2, b3, b4] := by subst hp; rfl
  have s5 : slice p 5 8 = [b5, b6, b7] := by subst hp; rfl
  have s8 : slice p 8 11 = [b8, b9, b10] := by subst hp; rfl
  have s11 : slice p 11 13 = [b11, b12] := by subst hp; rfl
  have s12 : slice p 12 13 = [b12] := by subst hp; rfl
  have s13 : slice p 13 14 = [b13] := by subst hp; rfl
  have s14 : slice p 14 16 = [b14, b15] := by subst hp; rfl
  have s15 : slice p 15 17 = [b15, b16] := by subst hp; rfl
  have s17 : slice p 17 18 = [b17] := by subst hp; rfl
  have s18 : slice p 18 19 = [b18] := by subst hp; rfl
  have s19 : slice p 19 27 = [b19, b20, b21, b22, b23, b24, b25, b26] := by subst hp; rfl
  have s27 : slice p 27 28 = [b27] := by subst hp; rfl
  have h8 : fieldAt p 8 4 = b1.extractLsb' 4 4 := (field 0 4 s1 (by decide)).trans (fieldAt_high_nibble b1)
  have h12 : fieldAt p 12 4 = b1.extractLsb' 0 4 := (field 4 4 s1 (by decide)).trans (fieldAt_low_nibble b1)
  have h16 : fieldAt p 16 24 = b2 ++ b3 ++ b4 := (field 0 24 s2 (by decide)).trans (fieldAt_three_bytes b2 b3 b4)
  have h40 : fieldAt p 40 24 = b5 ++ b6 ++ b7 := (field 0 24 s5 (by decide)).trans (fieldAt_three_bytes b5 b6 b7)
  have h64 : fieldAt p 64 24 = b8 ++ b9 ++ b10 := (field 0 24 s8 (by decide)).trans (fieldAt_three_bytes b8 b9 b10)
  have h88 : fieldAt p 88 12 = b11 ++ b12.extractLsb' 4 4 := (field 0 12 s11 (by decide)).trans (fieldAt_byte_nibble b11 b12)
  have h100 : fieldAt p 100 4 = b12.extractLsb' 0 4 := (field 4 4 s12 (by decide)).trans (fieldAt_low_nibble b12)
  have h104 : fieldAt p 104 4 = b13.extractLsb' 4 4 := (field 0 4 s13 (by decide)).trans (fieldAt_high_nibble b13)
  have h108 : fieldAt p 108 4 = b13.extractLsb' 0 4 := (field 4 4 s13 (by decide)).trans (fieldAt_low_nibble b13)
  have h112 : fieldAt p 112 12 = b14 ++ b15.extractLsb' 4 4 := (field 0 12 s14 (by decide)).trans (fieldAt_byte_nibble b14 b15)
  have h124 : fieldAt p 124 12 = b15.extractLsb' 0 4 ++ b16 := (field 4 12 s15 (by decide)).trans (fieldAt_nibble_byte b15 b16)
  have h136 : fieldAt p 136 8 = b17 := (field 0 8 s17 (by decide)).trans (fieldAt_byte b17)
  have h144 : fieldAt p 144 8 = b18 := (field 0 8 s18 (by decide)).trans (fieldAt_byte b18)
  have h216 : fieldAt p 216 4 = b27.extractLsb' 4 4 := (field 0 4 s27 (by decide)).trans (fieldAt_high_nibble b27)
  rw [reportOf, h8, h12, h16, h40, h64, h88, h100, h104, h108, h112, h124, h136, h144, h216, s19]

/-- Settles O26, by the bytes each field lies in. -/
theorem reportDecodeLayout : Obligations.ReportDecodeLayout := by
  unfold Obligations.ReportDecodeLayout
  intro record
  have hrecord (r : Report) : putReport r = record r := by
    obtain ⟨_, _, _, _, _, _, _, _, _, hVelocity, vVelocity, _, _, _, _⟩ := r
    cases hVelocity <;> cases vVelocity <;> rfl
  refine ⟨hrecord, ?_, fun s p => ⟨fun h => exec_msgOwnship_of_eq s (decReport_of_malformed _ h),
    fun h => exec_msgTraffic_of_eq s (decReport_of_malformed _ h)⟩⟩
  intro s b1 b2 b3 b4 b5 b6 b7 b8 b9 b10 b11 b12 b13 b14 b15 b16 b17 b18 b19 b20 b21 b22 b23 b24 b25 b26 b27 fields out
  have hout (id : Byte) : reportOf s.params (id :: fields) = out := reportOf_bytes s.params id ..
  rw [← hrecord]
  exact ⟨exec_msgOwnship_of_eq s (hout 0x0A#8 ▸ decReport_of_length .ownshipReport rfl rfl),
    exec_msgTraffic_of_eq s (hout s.params.idTraffic ▸ decReport_of_length .trafficReport rfl rfl)⟩

end Sys2Proof.Machine
end

section
/-! PROOFS. STATS (10_state.md R27; 44_stream.md R242), the reads and RESET (R240 to R244), then O45, O46, O47, O48 and O49. -/

namespace Sys2Proof.Machine

/-! ## The map of counters -/

section
variable {l : List StatEntry} {id other : Byte}

/-- One entry an ID, so no more entries than IDs. -/
theorem length_le_of_statsCanonical (h : statsCanonical l) : l.length ≤ 256 := by
  have hnodup : (l.map fun e => e.id.toFin).Nodup := by
    refine List.pairwise_map.mpr (h.imp fun {a b} hab he => ?_)
    have hid : a.id = b.id := BitVec.eq_of_toFin_eq he
    exact BitVec.lt_irrefl _ (hid ▸ hab)
  have := hnodup.length_le_card
  rwa [List.length_map, Fintype.card_fin] at this

theorem id_of_lookupStat {e : StatEntry} (h : lookupStat l id = some e) : e.id = id :=
  beq_iff_eq.mp (List.find?_some (p := fun e : StatEntry => e.id == id) h)

theorem lookupStat_cons_of_eq {a : StatEntry} (h : a.id = id) : lookupStat (a :: l) id = some a := by
  simp [lookupStat, h]

theorem lookupStat_cons_of_ne {a : StatEntry} (h : a.id ≠ id) : lookupStat (a :: l) id = lookupStat l id := by
  simp [lookupStat, h]

theorem lookupStat_eq_none (h : ∀ e ∈ l, e.id ≠ id) : lookupStat l id = none :=
  List.find?_eq_none.mpr fun e he => mt beq_iff_eq.mp (h e he)

/-- Ensuring an ID leaves the entry of every other. -/
theorem lookupStat_ensureEntry_of_ne (h : other ≠ id) : lookupStat (ensureEntry id l) other = lookupStat l other := by
  induction l with
  | nil => exact lookupStat_cons_of_ne (Ne.symm h)
  | cons a l ih =>
    rw [ensureEntry]
    split_ifs
    · rfl
    · exact lookupStat_cons_of_ne (Ne.symm h)
    · by_cases ha : a.id = other
      · rw [lookupStat_cons_of_eq ha, lookupStat_cons_of_eq ha]
      · rw [lookupStat_cons_of_ne ha, lookupStat_cons_of_ne ha, ih]

/-- Ensuring an ID finds its entry, or a new one with both counters 0 (R27). -/
theorem lookupStat_ensureEntry (h : statsCanonical l) : lookupStat (ensureEntry id l) id =
    some ((lookupStat l id).getD { id := id, good := 0#64, bad := 0#64 }) := by
  induction l with
  | nil => exact lookupStat_cons_of_eq rfl
  | cons a l ih =>
    obtain ⟨ha, hl⟩ := List.pairwise_cons.mp h
    rw [ensureEntry]
    split_ifs with heq hlt
    · rw [lookupStat_cons_of_eq heq.symm, Option.getD_some]
    · have hnone : lookupStat (a :: l) id = none := by
        refine lookupStat_eq_none fun e he hid => ?_
        rcases List.mem_cons.mp he with rfl | he
        · exact heq hid.symm
        · exact BitVec.lt_irrefl _ (BitVec.lt_trans hlt (hid ▸ ha e he))
      rw [lookupStat_cons_of_eq rfl, hnone, Option.getD_none]
    · rw [lookupStat_cons_of_ne (Ne.symm heq), lookupStat_cons_of_ne (Ne.symm heq), ih hl]

/-- A change of the entries that keeps their IDs changes what is found, and nothing else. -/
theorem lookupStat_map {f : StatEntry → StatEntry} (hf : ∀ e, (f e).id = e.id) :
    lookupStat (l.map f) id = (lookupStat l id).map f := by
  rw [lookupStat, List.find?_map, lookupStat]
  congr 2
  funext e
  rw [Function.comp_apply, hf]

theorem lookupStat_countGood (w : Nat) : lookupStat (countGood w id l) other =
    (lookupStat l other).map fun e => if e.id = id then { e with good := bump w e.good } else e :=
  lookupStat_map fun e => by split <;> rfl

theorem lookupStat_countBad (w : Nat) : lookupStat (countBad w id l) other =
    (lookupStat l other).map fun e => if e.id = id then { e with bad := bump w e.bad } else e :=
  lookupStat_map fun e => by split <;> rfl

/-- The entry of an ID before it is counted: the one found, or a new one. -/
theorem id_getD_lookupStat : ((lookupStat l id).getD { id := id, good := 0#64, bad := 0#64 }).id = id := by
  cases h : lookupStat l id with
  | none => rfl
  | some e => exact id_of_lookupStat h

theorem map_lookupStat_of_ne {f : StatEntry → StatEntry} (h : other ≠ id) :
    (lookupStat l other).map (fun e => if e.id = id then f e else e) = lookupStat l other := by
  cases he : lookupStat l other with
  | none => rfl
  | some e => rw [Option.map_some, if_neg (by rw [id_of_lookupStat he]; exact h)]

end

/-- The greatest counter of a width wraps to 0 (R25). -/
theorem bump_max {w : Nat} (h : w ≤ 64) : bump w (BitVec.ofNat 64 (2 ^ w - 1)) = 0#64 := by
  have hpos := Nat.two_pow_pos w
  have hle : (2 : Nat) ^ w ≤ 2 ^ 64 := Nat.pow_le_pow_right (by decide) h
  apply BitVec.eq_of_toNat_eq
  rw [bump_toNat h, BitVec.toNat_ofNat, Nat.mod_eq_of_lt ((Nat.sub_lt hpos Nat.one_pos).trans_le hle),
    Nat.sub_add_cancel hpos, Nat.mod_self]
  rfl

/-- Settles O49, by what is found after an ID is ensured and its counter bumped. -/
theorem countersWrapAndEntriesAreLazy : Obligations.CountersWrapAndEntriesAreLazy := by
  refine ⟨fun c => BitVec.eq_of_toNat_eq (bump_toNat le_rfl c), fun w hw => ⟨bump_toNat hw, bump_max hw, fun l id hl => ?_⟩⟩
  have hgood := countGood_canonical w id (ensureEntry_canonical id hl)
  have hbad := countBad_canonical w id (ensureEntry_canonical id hl)
  have hold : ((lookupStat l id).getD { id := id, good := 0#64, bad := 0#64 }).id = id := id_getD_lookupStat
  refine ⟨?_, ?_, fun other hne => ⟨?_, ?_⟩, hgood, hbad, length_le_of_statsCanonical hgood, length_le_of_statsCanonical hbad⟩
  · rw [lookupStat_countGood, lookupStat_ensureEntry hl, Option.map_some, if_pos hold]
    exact congrArg some (congrArg (StatEntry.mk · _ _) hold)
  · rw [lookupStat_countBad, lookupStat_ensureEntry hl, Option.map_some, if_pos hold]
    exact congrArg some (congrArg (StatEntry.mk · _ _) hold)
  · rw [lookupStat_countGood, lookupStat_ensureEntry_of_ne hne, map_lookupStat_of_ne hne]
  · rw [lookupStat_countBad, lookupStat_ensureEntry_of_ne hne, map_lookupStat_of_ne hne]

/-! ## The reads -/

section
variable {s : State}

theorem exec_readOut_of_nil (h : s.outq = []) : exec .readOut s = .next (s.statusOnly 0x0A#8) := by
  simp only [exec, execReadOut, h]
  rfl

theorem exec_readOut_of_cons {r : DecodeResult} {rest : List DecodeResult} (h : s.outq = r :: rest) :
    exec .readOut s = .next (State.okWith { s with outq := rest } (putDecodeResult r)) := by
  simp only [exec, execReadOut, h]
  rfl

end

/-- Settles O45, by whether OUTQ is empty. -/
theorem readOutIsFirstInFirstOut : Obligations.ReadOutIsFirstInFirstOut :=
  fun _ => ⟨exec_readOut_of_nil, fun _ _ => exec_readOut_of_cons⟩

theorem exec_readBuffer (s : State) : exec .readBuffer s = .next (s.okWith (putBytesResult s.buf)) := rfl

/-- Settles O46, by the bytes of the STATUS word. -/
theorem statusAndBufferReads : Obligations.StatusAndBufferReads := by
  refine fun s => ⟨?_, exec_readBuffer s⟩
  rw [exec_readStatus, toBE_statusWord, List.append_assoc]

theorem exec_readStats (s : State) : exec .readStats s = .next (s.okWith (toBE 8 s.totalFrames.toNat ++
    toBE 8 s.resyncCount.toNat ++ (putU32 s.stats.length ++ s.stats.flatMap putStatEntry))) := rfl

/-- Settles O47, by the number of IDs. -/
theorem statsReadReturnsTheSurface : Obligations.StatsReadReturnsTheSurface := by
  intro s h
  have hle := length_le_of_statsCanonical h
  have hcount : putU32 s.stats.length = toBE 4 s.stats.length := if_pos (by omega)
  refine ⟨hle, ?_⟩
  rw [exec_readStats, hcount, ← List.append_assoc]
  rfl

/-! ## RESET -/

theorem getElem?_dlacAlphabetDefault {c : Nat} (h : c < 64) : dlacAlphabetDefault[c]? = some (dlacSymbol c) := by
  rw [dlacAlphabetDefault, List.getElem?_map, List.getElem?_range h, Option.map_some]

/-- The letters of R284. -/
theorem dlacSymbol_letter {c : Nat} (h1 : 1 ≤ c) (h26 : c ≤ 26) : dlacSymbol c = BitVec.ofNat 8 (0x41 + (c - 1)) := by
  have hc : 0x40 + c = 0x41 + (c - 1) := by omega
  rw [dlacSymbol, if_neg (by omega), if_pos h26, hc]

/-- The symbols of R284 that are their own bytes. -/
theorem dlacSymbol_self {c : Nat} (h32 : 32 ≤ c) : dlacSymbol c = BitVec.ofNat 8 c := by
  simp only [dlacSymbol, if_neg (show ¬ c = 0 by omega), if_neg (show ¬ c ≤ 26 by omega), if_neg (show ¬ c = 27 by omega),
    if_neg (show ¬ c = 28 by omega), if_neg (show ¬ c = 29 by omega), if_neg (show ¬ c = 30 by omega),
    if_neg (show ¬ c = 31 by omega)]

/-- Settles O48, field by field. -/
theorem resetAndCreationValues : Obligations.ResetAndCreationValues := by
  refine ⟨fun s => ⟨rfl, rfl⟩, rfl, rfl, rfl, rfl, rfl, rfl, rfl, rfl, rfl, rfl, rfl, rfl, rfl, rfl, rfl, rfl, rfl,
    vvelIsReserved_standardParams, rfl, rfl, rfl, by decide, getElem?_dlacAlphabetDefault (by decide), fun c h1 h26 => ?_,
    getElem?_dlacAlphabetDefault (by decide), getElem?_dlacAlphabetDefault (by decide), getElem?_dlacAlphabetDefault (by decide),
    getElem?_dlacAlphabetDefault (by decide), getElem?_dlacAlphabetDefault (by decide), fun c h32 h63 => ?_, rfl, rfl⟩
  · rw [← dlacSymbol_letter h1 h26]
    exact getElem?_dlacAlphabetDefault (by omega)
  · rw [← dlacSymbol_self h32]
    exact getElem?_dlacAlphabetDefault (by omega)

end Sys2Proof.Machine
end

section
/-! PROOFS. The whole machine (00_scope.md R8, R18; 10_state.md R22, R29; 60_exceptions.md R300, R301): how a pure instruction ends,
what every instruction and every step can do, then O50, O51, O52, O53 and O54. -/

namespace Sys2Proof.Machine

/-! ## How a pure instruction ends -/

/-- The instructions that can be refused without touching the stream (R181, R196, R197). -/
def Refusable (i : Instr) : Prop :=
  (∃ p, i = .decPayload p ∨ i = .msgGpstime p ∨ i = .msgVendor p) ∨ ∃ c q h m, i = .encGpstime c q h m

/-- The endings a pure instruction can have: a value, one of three statuses, or a refusal where it is refusable. -/
inductive EndsLawfully (i : Instr) : Ending → Prop
  | value (v : Value) : EndsLawfully i (.value v)
  | raised {e : Status} : e ∈ [.encodeValueOutOfRange, .crcLengthError, .illegalCommand] → EndsLawfully i (.raised e)
  | refused (r : RefusalReason) : Refusable i → EndsLawfully i (.refused r)

theorem endsLawfully_framed (i : Instr) {x : Except Status Bytes} (h : OnlyOutOfRange x) : EndsLawfully i (framed x) := by
  rcases h with rfl | ⟨p, rfl⟩
  · exact .raised (by decide)
  · exact .value _

theorem endsLawfully_endingOfDecode {i : Instr} (h : Refusable i) (x : Except RefusalReason DecodeResult) :
    EndsLawfully i (endingOfDecode x) := by
  cases x with
  | ok r => exact .value _
  | error r => exact .refused r h

theorem onlyOutOfRange_encReport (P : Params) (r : ReportIn) (id : Byte) : OnlyOutOfRange (encReport P r id) := by
  by_cases h : reportIllegal r
  · exact .inl (encReport_of_illegal P r id h)
  · obtain ⟨ha, ⟨lat, hlat⟩, ⟨lon, hlon⟩, trk, htrk⟩ := codes_of_legal P h
    exact .inr ⟨_, encReport_of_legal P id ha hlat hlon htrk⟩

theorem onlyOutOfRange_uplinkPayload (P : Params) (t : BitVec 32) (header data : Bytes) :
    OnlyOutOfRange (uplinkPayload P t header data) := by
  by_cases h : header.length ≠ 8 ∨ data.length ≠ 424 ∨ 2 ^ 24 ≤ t.toNat
  · exact .inl (uplinkPayload_eq_error P h)
  · simp only [not_or, not_not, not_le] at h
    exact .inr ⟨_, uplinkPayload_eq_ok P h.1 h.2.1 h.2.2⟩

theorem endsLawfully_crcCheck (data crc : Bytes) :
    EndsLawfully (.crcCheck data crc) (endingOf ((crcCheck data crc).map .bool)) := by
  by_cases h : crc.length = 2
  · rw [crcCheck_of_length_eq data h]
    exact .value _
  · rw [crcCheck_of_length_ne data h]
    exact .raised (by decide)

theorem endsLawfully_encGpstime (P : Params) (c : BitVec 32) (q h m : Byte) :
    EndsLawfully (.encGpstime c q h m) (gpstimeEnding P c q h m) := by
  by_cases hlate : 23 < h.toNat ∨ 59 < m.toNat
  · rw [gpstimeEnding_of_late c q hlate]
    exact .raised (by decide)
  · rw [not_or, not_lt, not_lt] at hlate
    cases hL : P.gpsLayout with
    | none =>
      rw [gpstimeEnding_of_no_layout c q hlate.1 hlate.2 hL]
      exact .refused _ (.inr ⟨c, q, h, m, rfl⟩)
    | some L =>
      rw [gpstimeEnding_of_layout c q hlate.1 hlate.2 hL]
      exact .value _

/-- What a pure instruction ends with is settled by its operands and the parameters (R18). -/
theorem exec_of_isPure (P : Params) {i : Instr} (hpure : isPure i = true) :
    ∃ e, EndsLawfully i e ∧ ∀ s : State, s.params = P → exec i s = .next (s.finish e) := by
  cases i with
  | addBytes | readOut | readStats | readStatus | readBuffer | reset => cases hpure
  | crcCheck data crc => exact ⟨_, endsLawfully_crcCheck data crc, fun s _ => rfl⟩
  | encOwnship r => exact ⟨_, endsLawfully_framed _ (onlyOutOfRange_encReport P r 0x0A#8), fun s hs => hs ▸ rfl⟩
  | encTraffic r => exact ⟨_, endsLawfully_framed _ (onlyOutOfRange_encReport P r P.idTraffic), fun s hs => hs ▸ rfl⟩
  | encUplink t header data =>
    exact ⟨_, endsLawfully_framed _ (onlyOutOfRange_uplinkPayload P t header data), fun s hs => hs ▸ rfl⟩
  | encGpstime c q h m => exact ⟨_, endsLawfully_encGpstime P c q h m, fun s hs => hs ▸ rfl⟩
  | decPayload p =>
    exact ⟨_, endsLawfully_endingOfDecode (.inl ⟨p, .inl rfl⟩) (decPayload P p), fun s hs => hs ▸ rfl⟩
  | msgGpstime p =>
    exact ⟨_, endsLawfully_endingOfDecode (.inl ⟨p, .inr (.inl rfl)⟩) (decGpstime P p), fun s hs => hs ▸ rfl⟩
  | msgVendor p => exact ⟨_, .refused _ (.inl ⟨p, .inr (.inr rfl)⟩), fun s _ => rfl⟩
  | reservedCommand => exact ⟨_, .raised (e := .illegalCommand) (by decide), fun s _ => rfl⟩
  | unescape data => exact ⟨_, .value (.bytes (unescape P.loneEsc data)), fun s hs => hs ▸ rfl⟩
  | dlacDecode data => exact ⟨_, .value (.bytes (dlacDecode P.dlacAlphabet data)), fun s hs => hs ▸ rfl⟩
  | encGeoalt a m w => exact ⟨_, .value (.bytes (prepareFrame (geoaltPayload P a m w))), fun s hs => hs ▸ rfl⟩
  | msgOwnship p => exact ⟨_, .value (.decoded (decReport P p 0x0A#8 .ownshipReport)), fun s hs => hs ▸ rfl⟩
  | msgTraffic p => exact ⟨_, .value (.decoded (decReport P p P.idTraffic .trafficReport)), fun s hs => hs ▸ rfl⟩
  | msgUplink p => exact ⟨_, .value (.decoded (decUplink P p)), fun s hs => hs ▸ rfl⟩
  | _ => exact ⟨_, .value _, fun s _ => rfl⟩

/-- The result packets an ending answers. -/
def Ending.packets : Ending → List Bytes
  | .value v => [Status.code .ok :: v.encode]
  | .raised e => [[e.code]]
  | .refused _ => []

theorem finish_results (s : State) (e : Ending) : (s.finish e).results = s.results ++ e.packets := by
  cases e with
  | value v => rfl
  | raised e => rfl
  | refused r => exact (List.append_nil _).symm

/-- Settles O52, by the ending of each pure instruction. -/
theorem pureCommandsReadAndWriteNoState : Obligations.PureCommandsReadAndWriteNoState := by
  refine ⟨fun P i hi => ?_, fun i j s hi hj => ?_⟩
  · obtain ⟨e, he, hexec⟩ := exec_of_isPure P hi
    cases he with
    | value v => exact .inl ⟨v.encode, hexec⟩
    | @raised e he =>
      have hcode : ∀ e ∈ [Status.encodeValueOutOfRange, .crcLengthError, .illegalCommand], e.code ≠ 0x00#8 := by decide
      exact .inr (.inl ⟨e.code, hcode e he, hexec⟩)
    | refused r hr => exact .inr (.inr ⟨hr, r, hexec⟩)
  · obtain ⟨e, -, he⟩ := exec_of_isPure s.params hi
    obtain ⟨f, -, hf⟩ := exec_of_isPure s.params hj
    exact ⟨_, _, _, _, e.packets, f.packets, he s rfl, hf _ (finish_params s e), hf s rfl, he _ (finish_params s f),
      finish_results .., finish_results .., finish_results .., finish_results ..⟩

/-! ## What an instruction can do -/

/-- Everything an instruction can do: answer `OK` and a value, answer one of four bare statuses and write nothing, or be refused. -/
theorem exec_cases (i : Instr) (s : State) :
    (∃ (t : State) (value : Bytes), exec i s = .next (t.okWith value) ∧ t.results = s.results ∧ t.refused = s.refused ∧ t.params = s.params ∧
      t.input = s.input) ∨
    (∃ code ∈ [0x06#8, 0x07#8, 0x08#8, 0x0A#8], exec i s = .next (s.statusOnly code)) ∨
    ∃ r, exec i s = .next (s.refusedWith r) := by
  cases hi : isPure i with
  | true =>
    obtain ⟨e, he, hexec⟩ := exec_of_isPure s.params hi
    cases he with
    | value v => exact .inl ⟨s, v.encode, hexec s rfl, rfl, rfl, rfl, rfl⟩
    | @raised e he =>
      have hcode : ∀ e ∈ [Status.encodeValueOutOfRange, .crcLengthError, .illegalCommand],
          e.code ∈ [0x06#8, 0x07#8, 0x08#8, 0x0A#8] := by decide
      exact .inr (.inl ⟨e.code, hcode e he, hexec s rfl⟩)
    | refused r => exact .inr (.inr ⟨r, hexec s rfl⟩)
  | false =>
    cases i with
    | addBytes d =>
      rcases exec_addBytes_cases d s with ⟨hover, -⟩ | ⟨-, ⟨r, -, hr⟩ | ⟨t, hdrains, ht⟩⟩
      · exact .inr (.inr ⟨_, hover⟩)
      · exact .inr (.inr ⟨r, hr⟩)
      · have hacc := accounts_of_drains hdrains t rfl
        exact .inl ⟨t, _, ht, hacc.results, hacc.refused, hacc.params, hacc.input⟩
    | readOut =>
      cases hq : s.outq with
      | nil => exact .inr (.inl ⟨0x0A#8, by decide, exec_readOut_of_nil hq⟩)
      | cons r rest => exact .inl ⟨_, _, exec_readOut_of_cons hq, rfl, rfl, rfl, rfl⟩
    | readStats | readStatus | readBuffer => exact .inl ⟨s, Value.encode _, rfl, rfl, rfl, rfl, rfl⟩
    | reset => exact .inl ⟨State.mk [] false 0#64 0#64 [] [] s.refused s.params s.input s.results, [], rfl, rfl, rfl, rfl, rfl⟩
    | _ => cases hi

/-- Settles O53, by what an instruction can do. -/
theorem errorStatusWritesNoState : Obligations.ErrorStatusWritesNoState := by
  intro i s t packet hexec hresults hhead
  rcases exec_cases i s with ⟨u, value, hu, hres, -⟩ | ⟨code, hmem, hcode⟩ | ⟨r, hr⟩
  · cases hexec.symm.trans hu
    rw [State.okWith, hres] at hresults
    cases List.singleton_injective (List.append_cancel_left hresults)
    exact absurd rfl hhead
  · cases hexec.symm.trans hcode
    cases List.singleton_injective (List.append_cancel_left hresults)
    exact ⟨code, hmem, rfl, rfl⟩
  · cases hexec.symm.trans hr
    exact absurd hresults (by simp)

/-! ## What a step can do -/

/-- A step with no input pending holds the state; one with an input takes it away and runs what it decodes to, or answers
`OperandFormatError`. -/
theorem step_cases (s : State) :
    (s.input = [] ∧ step s = .next s) ∨ ∃ x rest, s.input = x :: rest ∧
      ((∃ i, decode s.params x = .ok i ∧ step s = exec i { s with input := rest }) ∨
        step s = .next (State.statusOnly { s with input := rest } 0x09#8)) := by
  cases h : s.input with
  | nil => exact .inl ⟨rfl, step_of_input_eq_nil h⟩
  | cons x rest =>
    refine .inr ⟨x, rest, rfl, ?_⟩
    cases hx : decode s.params x with
    | ok i => exact .inl ⟨i, rfl, step_of_decode_eq_ok h hx⟩
    | error e =>
      cases e
      exact .inr (step_of_decode_eq_error h hx)

/-- Settles O51, by what a step and its instruction can do. -/
theorem stepAnswersOnePacketOrIsRefused : Obligations.StepAnswersOnePacketOrIsRefused := by
  intro s x rest hinput
  rcases step_cases s with ⟨hnil, -⟩ | ⟨x', rest', hinput', hstep⟩
  · cases hinput.symm.trans hnil
  cases hinput.symm.trans hinput'
  rcases hstep with ⟨i, -, hi⟩ | hformat
  · rw [hi]
    rcases exec_cases i { s with input := rest } with ⟨u, value, hu, hres, href, hparams, hin⟩ | ⟨code, -, hcode⟩ | ⟨r, hr⟩
    · exact ⟨_, hu, hin, hparams, .inl ⟨_, List.cons_ne_nil _ _, congrArg (· ++ _) hres, href⟩⟩
    · exact ⟨_, hcode, rfl, rfl, .inl ⟨_, List.cons_ne_nil _ _, rfl, rfl⟩⟩
    · exact ⟨_, hr, rfl, rfl, .inr ⟨r, rfl⟩⟩
  · exact ⟨_, hformat, rfl, rfl, .inl ⟨_, List.cons_ne_nil _ _, rfl, rfl⟩⟩

/-- A changed REFUSED is a refusal, which writes nothing else (R29). -/
theorem eq_refusedWith_of_refused_ne {i : Instr} {s t : State} (h : exec i s = .next t) (hne : t.refused ≠ s.refused) :
    ∃ r, t = s.refusedWith r := by
  rcases exec_cases i s with ⟨u, value, hu, -, href, -⟩ | ⟨code, -, hcode⟩ | ⟨r, hr⟩
  · cases h.symm.trans hu
    exact absurd href hne
  · cases h.symm.trans hcode
    exact absurd rfl hne
  · cases h.symm.trans hr
    exact ⟨r, rfl⟩

/-- Settles O54: an instruction keeps REFUSED or marks it. -/
theorem refusalWritesOnlyTheStickyMark : Obligations.RefusalWritesOnlyTheStickyMark := by
  refine ⟨fun i s t => eq_refusedWith_of_refused_ne, fun s t hstep hmark => ?_⟩
  rcases step_cases s with ⟨-, hs⟩ | ⟨x, rest, -, ⟨i, -, hi⟩ | hformat⟩
  · cases hstep.symm.trans hs
    exact hmark
  · by_cases hkeep : t.refused = s.refused
    · rwa [hkeep]
    · obtain ⟨r, rfl⟩ := eq_refusedWith_of_refused_ne (hi.symm.trans hstep) hkeep
      exact Option.some_ne_none r
  · cases hstep.symm.trans hformat
    exact hmark

/-- Settles O50: what ADD_BYTES, RESET and READ_OUT may write is all that is written. -/
theorem onlyTheirWritersChangeTheElements : Obligations.OnlyTheirWritersChangeTheElements := by
  intro i s t hexec
  have hfixed : t.params = s.params ∧ t.input = s.input := by
    rcases exec_cases i s with ⟨u, value, hu, -, -, hparams, hinput⟩ | ⟨code, -, hcode⟩ | ⟨r, hr⟩
    · cases hexec.symm.trans hu
      exact ⟨hparams, hinput⟩
    · cases hexec.symm.trans hcode
      exact ⟨rfl, rfl⟩
    · cases hexec.symm.trans hr
      exact ⟨rfl, rfl⟩
  refine ⟨hfixed.1, hfixed.2, fun hadd hreset => ?_, fun hadd hpure => ?_⟩
  · obtain ⟨q, e, hfinish, hq⟩ := exec_eq_finish s hadd hreset
    cases hexec.symm.trans hfinish
    exact ⟨finish_buf _ e, finish_sync _ e, finish_resyncCount _ e, finish_totalFrames _ e, finish_stats _ e,
      fun hne => (finish_outq _ e).trans (hq hne)⟩
  · cases i with
    | addBytes d => exact absurd rfl (hadd d)
    | readOut =>
      cases hq : s.outq with
      | nil =>
        cases hexec.symm.trans (exec_readOut_of_nil hq)
        rfl
      | cons r rest =>
        cases hexec.symm.trans (exec_readOut_of_cons hq)
        rfl
    | readStats | readStatus | readBuffer | reset =>
      cases hexec
      rfl
    | _ => cases hpure

end Sys2Proof.Machine
end

section
/-! PROOFS. The invariant of CORE between two commands (44_stream.md R245; 10_state.md R25 to R28): the drain loop keeps the
counters and the two capacities within their bounds; then O55 and O56. -/

namespace Sys2Proof.Machine

/-! ## The bounds the drain loop keeps -/

/-- The counters and OUTQ are within their bounds, and BUF holds at most `n` bytes. -/
structure State.Fits (n : Nat) (s : State) : Prop where
  width : s.params.ctrW ≤ 64
  counters : s.CountersFit
  buf : s.buf.length ≤ n
  outq : withinCap s.params.outqCap s.outq.length

section
variable {w : Nat} {id : Byte} {l : List StatEntry}

/-- Both counters of every entry fit (R27). -/
def StatsFit (w : Nat) (l : List StatEntry) : Prop := ∀ e ∈ l, e.good.toNat < 2 ^ w ∧ e.bad.toNat < 2 ^ w

theorem statsFit_ensureEntry (h : StatsFit w l) : StatsFit w (ensureEntry id l) := by
  intro e he
  rcases mem_ensureEntry he with he | rfl
  · exact h e he
  · exact ⟨Nat.two_pow_pos w, Nat.two_pow_pos w⟩

theorem statsFit_countGood (hw : w ≤ 64) (h : StatsFit w l) : StatsFit w (countGood w id l) := by
  refine List.forall_mem_map.mpr fun e he => ?_
  split
  · exact ⟨bump_lt hw e.good, (h e he).2⟩
  · exact h e he

theorem statsFit_countBad (hw : w ≤ 64) (h : StatsFit w l) : StatsFit w (countBad w id l) := by
  refine List.forall_mem_map.mpr fun e he => ?_
  split
  · exact ⟨(h e he).1, bump_lt hw e.bad⟩
  · exact h e he

end

section
variable {n : Nat} {s t : State} {body rest : Bytes}

theorem fits_dropFrame (h : s.Fits n) (hrest : rest.length ≤ n) : (s.dropFrame rest).Fits n where
  width := h.width
  counters := ⟨h.counters.1, bump_lt h.width _, h.counters.2.2⟩
  buf := hrest
  outq := h.outq

theorem fits_countedGood (h : s.Fits n) (body : Bytes) : (s.countedGood body).Fits n where
  width := h.width
  counters := ⟨h.counters.1, h.counters.2.1, statsFit_countGood h.width (statsFit_ensureEntry h.counters.2.2)⟩
  buf := h.buf
  outq := h.outq

theorem fits_countedBad (h : s.Fits n) (body : Bytes) : (s.countedBad body).Fits n where
  width := h.width
  counters := ⟨h.counters.1, h.counters.2.1, statsFit_countBad h.width (statsFit_ensureEntry h.counters.2.2)⟩
  buf := h.buf
  outq := h.outq

/-- A result is queued only while OUTQ has room (R237). -/
theorem fits_enqueue {r : DecodeResult} (h : s.Fits n) (ht : s.enqueue r = .ok t) : t.Fits n := by
  rcases enqueue_cases s r with ⟨hfull, -⟩ | ⟨hadd, hroom⟩
  · cases ht.symm.trans hfull
  · cases ht.symm.trans hadd
    exact { width := h.width, counters := h.counters, buf := h.buf
            outq := by rwa [List.length_append, List.length_singleton] }

theorem fits_frameDecode (h : s.Fits n) (ht : s.frameDecode body = .ok t) : t.Fits n := by
  rcases frameDecode_cases s body with
    ⟨-, hs⟩ | ⟨-, -, hbad⟩ | ⟨-, -, ⟨r, -, he⟩ | ⟨-, habs⟩ | ⟨r, -, -, hq⟩⟩
  · cases ht.symm.trans hs
    exact h
  · cases ht.symm.trans hbad
    exact fits_countedBad h body
  · cases ht.symm.trans he
  · cases ht.symm.trans habs
    exact fits_countedGood h body
  · exact fits_enqueue (fits_countedGood h body) (hq.symm.trans ht)

/-- RESYNC leaves a suffix of BUF and counts itself (R233). -/
theorem fits_resynced {garbage : Bytes} (h : s.Fits n) (hbuf : s.buf = garbage ++ flagByte :: rest) : (s.resynced rest).Fits n where
  width := h.width
  counters := ⟨bump_lt h.width _, h.counters.2⟩
  buf := by
    have hle := h.buf
    rw [hbuf, List.length_append, List.length_cons] at hle
    exact (length_resyncBuf_le rest).trans (by omega)
  outq := h.outq

theorem fits_discarded (h : s.Fits n) : s.discarded.Fits n where
  width := h.width
  counters := ⟨bump_lt h.width _, h.counters.2⟩
  buf := Nat.zero_le n
  outq := h.outq

theorem fits_of_drains {o : Except RefusalReason State} (h : Drains s o) : s.Fits n → ∀ t, o = .ok t → t.Fits n := by
  induction h with
  | idle | waits =>
    rintro hs t ⟨⟩
    exact hs
  | refuses => rintro - t ⟨⟩
  | exhausts =>
    rintro hs t ⟨⟩
    exact fits_discarded hs
  | @frame s u body rest o _ hbuf _ hu _ ih =>
    intro hs
    have hle := hs.buf
    rw [hbuf, List.length_cons, List.length_append, List.length_cons] at hle
    exact ih (fits_frameDecode (fits_dropFrame hs (by omega)) hu)
  | lost _ _ _ _ ih => exact fun hs => ih ⟨hs.width, hs.counters, hs.buf, hs.outq⟩
  | finds _ hbuf _ _ ih => exact fun hs => ih (fits_resynced hs hbuf)

end

/-! ## The invariant -/

section
variable {s : State}

/-- What the host hands over and what is answered are in no part of the invariant, nor is REFUSED. -/
theorem inv_of_host (h : s.Inv) (refused : Option RefusalReason) (input : List HostInput) (results : List Bytes) :
    State.Inv { s with refused := refused, input := input, results := results } :=
  ⟨h.lawful, h.settled, h.stats, h.counters, h.bufCap, h.outqCap⟩

theorem inv_finish (h : s.Inv) (e : Ending) : (s.finish e).Inv := by
  cases e with
  | value v => exact inv_of_host h s.refused s.input _
  | raised e => exact inv_of_host h s.refused s.input _
  | refused r => exact inv_of_host h (some r) s.input s.results

/-- BUF cannot outgrow the capacity it was given room under: the loop only takes bytes away. -/
theorem inv_of_drains {d : Bytes} {t : State} (h : s.Inv) (hcap : withinCap s.params.bufCap (s.buf.length + d.length))
    (hdrains : Drains (s.fed d) (.ok t)) : t.Inv := by
  have hacc := accounts_of_drains hdrains t rfl
  have hfits : t.Fits (s.buf.length + d.length) := fits_of_drains hdrains
    ⟨ctrW_le h.lawful, h.counters, (List.length_append ..).le, h.outqCap⟩ t rfl
  have hparams : t.params = s.params := hacc.params
  exact
    { lawful := by rw [hparams]; exact h.lawful
      settled := settled_of_drains hdrains t rfl
      stats := hacc.canonical h.stats
      counters := hfits.counters
      bufCap := fun c hc => hfits.buf.trans (hcap c (hparams ▸ hc))
      outqCap := hfits.outq }

theorem inv_reset (h : paramsLawful s.params = true) : State.Inv
    { s with buf := [], sync := false, resyncCount := 0#64, totalFrames := 0#64, stats := [], outq := [] } where
  lawful := h
  settled := .inl rfl
  stats := List.Pairwise.nil
  counters := ⟨Nat.two_pow_pos _, Nat.two_pow_pos _, nofun⟩
  bufCap := fun c _ => Nat.zero_le c
  outqCap := fun c _ => Nat.zero_le c

theorem inv_exec (h : s.Inv) (i : Instr) {t : State} (ht : exec i s = .next t) : t.Inv := by
  by_cases hadd : ∃ d, i = .addBytes d
  · obtain ⟨d, rfl⟩ := hadd
    rcases exec_addBytes_cases d s with ⟨hover, -⟩ | ⟨hcap, ⟨r, -, hr⟩ | ⟨u, hdrains, hu⟩⟩
    · cases ht.symm.trans hover
      exact inv_finish h (.refused .bufferOverflow)
    · cases ht.symm.trans hr
      exact inv_finish h (.refused r)
    · cases ht.symm.trans hu
      exact inv_of_host (inv_of_drains h hcap hdrains) u.refused u.input _
  by_cases hreset : i = .reset
  · cases hreset
    cases ht
    exact inv_of_host (inv_reset h.lawful) s.refused s.input _
  by_cases hread : i = .readOut
  · cases hread
    cases hq : s.outq with
    | nil =>
      cases ht.symm.trans (exec_readOut_of_nil hq)
      exact inv_of_host h s.refused s.input _
    | cons r rest =>
      cases ht.symm.trans (exec_readOut_of_cons hq)
      have hrest : withinCap s.params.outqCap rest.length := fun c hc =>
        (Nat.le_succ _).trans ((congrArg List.length hq).symm.trans_le (h.outqCap c hc))
      exact ⟨h.lawful, h.settled, h.stats, h.counters, h.bufCap, hrest⟩
  · obtain ⟨q, e, hfinish, hq⟩ := exec_eq_finish s (fun d hd => hadd ⟨d, hd⟩) hreset
    cases hq hread
    cases ht.symm.trans hfinish
    exact inv_finish h e

end

/-- Settles O55, by what a step can do and what its instruction keeps. -/
theorem everyStepKeepsTheInvariant : Obligations.EveryStepKeepsTheInvariant := by
  intro s t h hstep
  rcases step_cases s with ⟨-, hs⟩ | ⟨x, rest, -, ⟨i, -, hi⟩ | hformat⟩
  · cases hstep.symm.trans hs
    exact h
  · exact inv_exec (inv_of_host h s.refused rest s.results) i (hi.symm.trans hstep)
  · cases hstep.symm.trans hformat
    exact inv_of_host h s.refused rest _

/-- Settles O56, by the values RESET gives. -/
theorem resetMeetsTheInvariant : Obligations.ResetMeetsTheInvariant := inv_reset (s := State.reset) (by decide +kernel)

end Sys2Proof.Machine
end

section
/-! PROOFS. Two ADD_BYTES and one of both parts (70_reset_and_hazards.md R343): what FRAME_DECODE does not read, the drain loop with
other counts and packets, the loop over a longer BUF; then O42. -/

namespace Sys2Proof.Machine

/-! ## What FRAME_DECODE does not read -/

/-- The state with other values of the elements FRAME_DECODE neither reads nor writes. -/
abbrev State.moved (s : State) (buf : Bytes) (sync : Bool) (resyncs : BitVec 64) (results : List Bytes) : State :=
  { s with buf := buf, sync := sync, resyncCount := resyncs, results := results }

/-- The state with another RESYNC_COUNT and other packets. -/
abbrev State.recounted (s : State) (resyncs : BitVec 64) (results : List Bytes) : State := s.moved s.buf s.sync resyncs results

section
variable (buf : Bytes) (sync : Bool) (resyncs : BitVec 64) (results : List Bytes)

theorem enqueue_moved (s : State) (r : DecodeResult) : (s.moved buf sync resyncs results).enqueue r =
    (s.enqueue r).map fun t => t.moved buf sync resyncs results := by
  simp only [State.enqueue]
  cases s.params.outqCap with
  | none => rfl
  | some cap =>
    dsimp only
    split <;> rfl

theorem frameDecode_moved {s u : State} {body : Bytes} (h : s.frameDecode body = .ok u) :
    (s.moved buf sync resyncs results).frameDecode body = .ok (u.moved buf sync resyncs results) := by
  by_cases hshort : isShort s.params body
  · cases h.symm.trans (frameDecode_of_isShort hshort)
    exact frameDecode_of_isShort hshort
  by_cases hpass : passesCheck s.params body
  · obtain ⟨r, hr⟩ := (frameDecode_eq_ok_of_passes hpass h).1
    by_cases ha : r = .absent
    · cases h.symm.trans (frameDecode_of_absent hpass (ha ▸ hr))
      exact frameDecode_of_absent hpass (ha ▸ hr)
    · rw [frameDecode_of_ok hpass hr ha] at h
      have hmoved := enqueue_moved buf sync resyncs results (s.countedGood body) r
      rw [h] at hmoved
      rw [frameDecode_of_ok (s := s.moved buf sync resyncs results) hpass hr ha]
      exact hmoved
  · cases h.symm.trans (frameDecode_of_fails hshort hpass)
    exact frameDecode_of_fails hshort hpass

/-- The frame of a longer BUF is decoded alike (R235). -/
theorem frameDecode_fed {s u : State} {body rest : Bytes} (b : Bytes) (h : (s.dropFrame rest).frameDecode body = .ok u) :
    ((s.fed b).dropFrame (rest ++ b)).frameDecode body = .ok (u.fed b) := by
  have hmoved := frameDecode_moved (rest ++ b) s.sync s.resyncCount s.results h
  obtain ⟨st, q, rfl⟩ := frameDecode_eq_ok h
  exact hmoved

theorem frameDecode_recounted {s u : State} {body rest : Bytes} (h : (s.dropFrame rest).frameDecode body = .ok u) :
    ((s.recounted resyncs results).dropFrame rest).frameDecode body = .ok (u.recounted resyncs results) := by
  have hmoved := frameDecode_moved rest s.sync resyncs results h
  obtain ⟨st, q, rfl⟩ := frameDecode_eq_ok h
  exact hmoved

end

/-- The loop is the same with another RESYNC_COUNT and other packets: it reads neither. -/
theorem drains_recounted {s : State} {o : Except RefusalReason State} (h : Drains s o) : ∀ t, o = .ok t →
    ∀ resyncs results, ∃ c, Drains (s.recounted resyncs results) (.ok (t.recounted c results)) := by
  induction h with
  | idle hs hbuf =>
    rintro t ⟨⟩ resyncs results
    exact ⟨resyncs, .idle hs hbuf⟩
  | waits hs hbuf hno =>
    rintro t ⟨⟩ resyncs results
    exact ⟨resyncs, .waits hs hbuf hno⟩
  | refuses => rintro t ⟨⟩
  | frame hs hbuf hno hu _ ih =>
    intro t ht resyncs results
    obtain ⟨c, hc⟩ := ih t ht resyncs results
    exact ⟨c, .frame hs hbuf hno (frameDecode_recounted resyncs results hu) hc⟩
  | lost hs hbuf hhead _ ih =>
    intro t ht resyncs results
    obtain ⟨c, hc⟩ := ih t ht resyncs results
    exact ⟨c, .lost hs hbuf hhead hc⟩
  | exhausts hs hno =>
    rintro t ⟨⟩ resyncs results
    exact ⟨_, .exhausts hs hno⟩
  | @finds s garbage rest o hs hbuf hno _ ih =>
    intro t ht resyncs results
    obtain ⟨c, hc⟩ := ih t ht (bump s.params.ctrW resyncs) results
    exact ⟨c, .finds hs hbuf hno hc⟩

/-! ## The one exception -/

/-- The loop from `s` runs RESYNC where the last byte of BUF is its only flag byte (R343). -/
def MeetsLoneFlag (s : State) : Prop :=
  ∃ (passes : Nat) (u : State) (garbage : Bytes), State.drain passes s = .ok u ∧ u.sync = false ∧ flagByte ∉ garbage ∧
    u.buf = garbage ++ [flagByte]

section
variable {s u : State} {body rest garbage : Bytes}

theorem meetsLoneFlag_of_frame (hs : s.sync = true) (hbuf : s.buf = flagByte :: (body ++ flagByte :: rest))
    (hno : flagByte ∉ body) (hu : (s.dropFrame rest).frameDecode body = .ok u) (h : MeetsLoneFlag u) : MeetsLoneFlag s := by
  obtain ⟨k, v, garbage, hv, hlone⟩ := h
  refine ⟨k + 1, v, garbage, ?_, hlone⟩
  rw [drain_succ_of_frame k hs hbuf hno, hu]
  exact hv

theorem meetsLoneFlag_of_lost (hs : s.sync = true) (hbuf : s.buf ≠ []) (hhead : s.buf.head? ≠ some flagByte)
    (h : MeetsLoneFlag { s with sync := false }) : MeetsLoneFlag s := by
  obtain ⟨k, v, garbage, hv, hlone⟩ := h
  exact ⟨k + 1, v, garbage, (drain_succ_of_lost k hs hbuf hhead).trans hv, hlone⟩

theorem meetsLoneFlag_of_finds (hs : s.sync = false) (hbuf : s.buf = garbage ++ flagByte :: rest) (hno : flagByte ∉ garbage)
    (h : MeetsLoneFlag (s.resynced rest)) : MeetsLoneFlag s := by
  obtain ⟨k, v, garbage', hv, hsync, hlone⟩ := h
  cases k with
  | zero =>
    cases hv
    cases hsync
  | succ k => exact ⟨k + 1, v, garbage', (drain_succ_of_found k hs hbuf hno).trans hv, hsync, hlone⟩

/-- Bytes behind BUF do not change which case RESYNC takes, but for a flag byte behind a lone one (R233). -/
theorem resyncBuf_append {b : Bytes} (h : rest ≠ [] ∨ b.head? ≠ some flagByte) : resyncBuf (rest ++ b) = resyncBuf rest ++ b := by
  cases rest with
  | nil => exact resyncBuf_of_ne (h.resolve_left (absurd rfl))
  | cons x rest =>
    rw [resyncBuf, resyncBuf, List.cons_append, List.head?_cons, List.head?_cons]
    split <;> rfl

end

/-! ## The loop over a longer BUF -/

/-- From the state an exhausted RESYNC left, more bytes are read as behind the bytes it discarded (R233). -/
theorem drains_fed_of_discarded {s t : State} {b : Bytes} (hs : s.sync = false) (hno : flagByte ∉ s.buf)
    (h : Drains (s.discarded.fed b) (.ok t)) : ∃ c, Drains (s.fed b) (.ok (t.recounted c t.results)) := by
  cases h with
  | idle hs' | waits hs' | lost hs' | frame hs' => cases hs.symm.trans hs'
  | exhausts _ hb =>
    exact ⟨_, .exhausts hs (List.mem_append.not.mpr (not_or.mpr ⟨hno, hb⟩))⟩
  | @finds _ garbage rest _ _ hb hg hrest =>
    obtain ⟨c, hc⟩ := drains_recounted hrest t rfl (bump s.params.ctrW s.resyncCount) s.results
    have hbuf : (s.fed b).buf = (s.buf ++ garbage) ++ flagByte :: rest := by
      rw [List.append_assoc]
      exact congrArg (s.buf ++ ·) hb
    have hresults : t.results = s.results := (accounts_of_drains hrest t rfl).results
    rw [hresults]
    exact ⟨c, .finds hs hbuf (List.mem_append.not.mpr (not_or.mpr ⟨hno, hg⟩)) hc⟩

/-- The loop run to its end and then over more bytes ends as the loop over all of them, but for RESYNC_COUNT (R343). -/
theorem drains_fed {s : State} {o : Except RefusalReason State} (h : Drains s o) : ∀ t, o = .ok t → ∀ b u,
    ¬ (MeetsLoneFlag s ∧ b.head? = some flagByte) → Drains (t.fed b) (.ok u) →
    ∃ c, Drains (s.fed b) (.ok (u.recounted c u.results)) := by
  induction h with
  | idle | waits =>
    rintro t ⟨⟩ b u - hu
    exact ⟨u.resyncCount, hu⟩
  | refuses => rintro t ⟨⟩
  | @frame s v body rest o hs hbuf hno hv _ ih =>
    intro t ht b u hlone hu
    obtain ⟨c, hc⟩ := ih t ht b u (mt (And.imp_left (meetsLoneFlag_of_frame hs hbuf hno hv)) hlone) hu
    have hbuf' : (s.fed b).buf = flagByte :: (body ++ flagByte :: (rest ++ b)) := by simp [hbuf]
    exact ⟨c, .frame hs hbuf' hno (frameDecode_fed b hv) hc⟩
  | @lost s o hs hbuf hhead _ ih =>
    intro t ht b u hlone hu
    obtain ⟨c, hc⟩ := ih t ht b u (mt (And.imp_left (meetsLoneFlag_of_lost hs hbuf hhead)) hlone) hu
    have hhead' : (s.fed b).buf.head? ≠ some flagByte := by rwa [List.head?_append_of_ne_nil _ hbuf]
    exact ⟨c, .lost hs (List.append_ne_nil_of_left_ne_nil hbuf b) hhead' hc⟩
  | exhausts hs hno =>
    rintro t ⟨⟩ b u - hu
    exact drains_fed_of_discarded hs hno hu
  | @finds s garbage rest o hs hbuf hno _ ih =>
    intro t ht b u hlone hu
    obtain ⟨c, hc⟩ := ih t ht b u (mt (And.imp_left (meetsLoneFlag_of_finds hs hbuf hno)) hlone) hu
    have hbehind : rest ≠ [] ∨ b.head? ≠ some flagByte := by
      by_contra hboth
      obtain ⟨hrest, hb⟩ := not_or.mp hboth
      refine hlone ⟨⟨0, s, garbage, rfl, hs, hno, ?_⟩, not_not.mp hb⟩
      rw [hbuf, not_not.mp hrest]
    have hbuf' : (s.fed b).buf = garbage ++ flagByte :: (rest ++ b) := by simp [hbuf]
    refine ⟨c, .finds hs hbuf' hno ?_⟩
    rwa [State.resynced, resyncBuf_append hbehind]

/-- An unrefused ADD_BYTES under an unbounded `BUF_CAP` is the loop to its end, and its answer. -/
theorem drains_of_exec_addBytes {s t : State} {d : Bytes} (hcap : s.params.bufCap = none) (h : exec (.addBytes d) s = .next t)
    (hrefused : t.refused = none) : ∃ u value, Drains (s.fed d) (.ok u) ∧ t = u.okWith value := by
  rcases exec_addBytes_cases d s with ⟨-, hne⟩ | ⟨-, ⟨r, -, hr⟩ | ⟨u, hdrains, hu⟩⟩
  · exact absurd hcap hne
  · cases h.symm.trans hr
    cases hrefused
  · exact ⟨u, _, hdrains, Host.Outcome.next.inj (h.symm.trans hu)⟩

/-- Settles O42, by the loop over a longer BUF. -/
theorem splitPointsDoNotMatter : Obligations.SplitPointsDoNotMatter := by
  intro s s₁ s₂ a b hcap hs h₁ href₁ hlone h₂ href₂
  obtain ⟨u, value, hu, rfl⟩ := drains_of_exec_addBytes hcap h₁ href₁
  have hacc := accounts_of_drains hu u rfl
  have hcap' : (u.okWith value).params.bufCap = none := (congrArg Params.bufCap hacc.params).trans hcap
  obtain ⟨v, value', hv, rfl⟩ := drains_of_exec_addBytes hcap' h₂ href₂
  obtain ⟨c, hc⟩ := drains_recounted hv v rfl u.resyncCount u.results
  obtain ⟨c', hc'⟩ := drains_fed hu u rfl b _ hlone hc
  have hfed : (s.fed a).fed b = s.fed (a ++ b) := by simp
  rw [hfed] at hc'
  have hroom : withinCap s.params.bufCap (s.buf.length + (a ++ b).length) := fun n hn => by cases hcap.symm.trans hn
  exact ⟨_, exec_addBytes_of_drains hroom hc', rfl, rfl, rfl, rfl, rfl, href₂⟩

end Sys2Proof.Machine
end

section
/-! PROOFS. The CRC as a polynomial remainder (40_crc.md R100 to R106; 70_reset_and_hazards.md R346): the register is linear over
XOR, one byte of it is eight steps of the long division; then O9 and O10. -/

namespace Sys2Proof.Machine

/-! ## Linearity -/

theorem bitVec_xor_right_comm (x y z : BitVec 16) : x ^^^ y ^^^ z = x ^^^ z ^^^ y := by ac_rfl

theorem crcShift_xor (c d : BitVec 16) : crcShift (c ^^^ d) = crcShift c ^^^ crcShift d := by
  have hcancel (x y p : BitVec 16) : x ^^^ y = (x ^^^ p) ^^^ (y ^^^ p) :=
    calc
      x ^^^ y = (x ^^^ y) ^^^ (p ^^^ p) := by rw [BitVec.xor_self, BitVec.xor_zero]
      _ = (x ^^^ p) ^^^ (y ^^^ p) := by ac_rfl
  rw [crcShift, crcShift, crcShift, BitVec.msb_xor, BitVec.shiftLeft_xor_distrib]
  cases c.msb
  · cases d.msb
    · rfl
    · exact BitVec.xor_assoc ..
  · cases d.msb
    · exact bitVec_xor_right_comm ..
    · exact hcancel ..

theorem repeat_crcShift_xor (n : Nat) (c d : BitVec 16) :
    Nat.repeat crcShift n (c ^^^ d) = Nat.repeat crcShift n c ^^^ Nat.repeat crcShift n d := by
  induction n with
  | zero => rfl
  | succ n ih => exact (congrArg crcShift ih).trans (crcShift_xor ..)

theorem repeat_crcShift_succ (n : Nat) (c : BitVec 16) : Nat.repeat crcShift (n + 1) c = Nat.repeat crcShift n (crcShift c) := by
  induction n with
  | zero => rfl
  | succ n ih => exact congrArg crcShift ih

theorem crcTable_xor (i j : Byte) : crcTable (i ^^^ j) = crcTable i ^^^ crcTable j := by
  rw [crcTable, BitVec.setWidth_xor, BitVec.shiftLeft_xor_distrib, repeat_crcShift_xor]
  rfl

theorem crcUpdate_xor (c d : BitVec 16) (a b : Byte) : crcUpdate (c ^^^ d) (a ^^^ b) = crcUpdate c a ^^^ crcUpdate d b := by
  rw [crcUpdate, BitVec.extractLsb'_xor, crcTable_xor, BitVec.shiftLeft_xor_distrib, BitVec.setWidth_xor, crcUpdate, crcUpdate]
  ac_rfl

theorem foldl_crcUpdate_xor {a b : Bytes} (h : a.length = b.length) (c d : BitVec 16) :
    (List.zipWith (· ^^^ ·) a b).foldl crcUpdate (c ^^^ d) = a.foldl crcUpdate c ^^^ b.foldl crcUpdate d := by
  induction a generalizing b c d with
  | nil =>
    cases List.length_eq_zero_iff.mp h.symm
    rfl
  | cons x a ih =>
    cases b with
    | nil => cases h
    | cons y b => rw [List.zipWith_cons_cons, List.foldl_cons, crcUpdate_xor, ih (Nat.succ.inj h), List.foldl_cons, List.foldl_cons]

theorem crcValue_xor {a b : Bytes} (h : a.length = b.length) :
    crcValue (List.zipWith (· ^^^ ·) a b) = crcValue a ^^^ crcValue b := foldl_crcUpdate_xor h 0#16 0#16

theorem crcBytes_xor {a b : Bytes} (h : a.length = b.length) :
    crcBytes (List.zipWith (· ^^^ ·) a b) = List.zipWith (· ^^^ ·) (crcBytes a) (crcBytes b) := by
  rw [crcBytes, crcValue_xor h, BitVec.extractLsb'_xor, BitVec.extractLsb'_xor]
  rfl

theorem zipWith_xor_right_inj {a b c : Bytes} (hb : b.length = a.length) (hc : c.length = a.length) :
    List.zipWith (· ^^^ ·) a b = List.zipWith (· ^^^ ·) a c ↔ b = c := by
  induction a generalizing b c with
  | nil => simp [List.length_eq_zero_iff.mp hb, List.length_eq_zero_iff.mp hc]
  | cons x a ih =>
    obtain ⟨y, b, rfl⟩ := List.exists_cons_of_length_eq_add_one hb
    obtain ⟨z, c, rfl⟩ := List.exists_cons_of_length_eq_add_one hc
    simp [ih (Nat.succ.inj hb) (Nat.succ.inj hc), BitVec.xor_right_inj]

/-- CRC_CHECK answers true exactly for the computed check bytes (R105). -/
theorem exec_crcCheck_eq_true_iff {data crc : Bytes} {s : State} (h : crc.length = 2) :
    exec (.crcCheck data crc) s = .next (s.okWith [0x01#8]) ↔ crcBytes data = crc := by
  refine ⟨fun htrue => ?_, exec_crcCheck_of_eq data s⟩
  by_contra hne
  rw [exec_crcCheck_of_length_eq data s h, if_neg hne] at htrue
  have hresults := congrArg State.results (Host.Outcome.next.inj htrue)
  cases List.append_cancel_left hresults

/-- Settles O10, by linearity. -/
theorem crcLinearityDecidesUndetectedErrors : Obligations.CrcLinearityDecidesUndetectedErrors := by
  refine ⟨fun a b => crcValue_xor, fun message errors checkErrors s herrors hcheck => ?_⟩
  have hlength : (List.zipWith (· ^^^ ·) (crcBytes message) checkErrors).length = 2 := by
    rw [List.length_zipWith, hcheck]
    rfl
  rw [exec_crcCheck_eq_true_iff hlength, crcBytes_xor herrors.symm]
  exact zipWith_xor_right_inj rfl hcheck

/-! ## The long division -/

/-- The dividend a step of the long division reduces: the remainder, and the next bit behind it. -/
abbrev nextDividend (r : Nat) (b : Bool) : Nat := 2 * r + if b then 1 else 0

/-- One step of the long division (R106). -/
def divisionStep (r : Nat) (b : Bool) : Nat :=
  if nextDividend r b < 2 ^ 16 then nextDividend r b else nextDividend r b ^^^ 0x11021

theorem gf2Remainder_succ (v n r : Nat) : gf2Remainder v (n + 1) r = gf2Remainder v n (divisionStep r (v.testBit n)) := rfl

/-- A dividend of degree 16 is reduced by the polynomial, whose bits below 16 are 0x1021 (R100). -/
theorem xor_polynomial {r : Nat} (hlow : 2 ^ 16 ≤ r) (hhigh : r < 2 ^ 17) : r ^^^ 0x11021 = (r % 2 ^ 16) ^^^ 0x1021 := by
  have hdiv : (r ^^^ 0x11021) / 2 ^ 16 = 0 := by
    rw [Nat.xor_div_two_pow, show r / 2 ^ 16 = 1 by omega]
    rfl
  have hlt : r ^^^ 0x11021 < 2 ^ 16 := by omega
  calc
    r ^^^ 0x11021 = (r ^^^ 0x11021) % 2 ^ 16 := (Nat.mod_eq_of_lt hlt).symm
    _ = (r % 2 ^ 16) ^^^ 0x1021 := Nat.xor_mod_two_pow

/-- The register after one more bit: shifted as the table is built (R101), the bit entering at the bottom. -/
def crcBit (c : BitVec 16) (b : Bool) : BitVec 16 := crcShift c ^^^ (BitVec.ofBool b).setWidth 16

theorem toNat_shiftLeft_xor_bit (c : BitVec 16) (b : Bool) :
    ((c <<< 1) ^^^ (BitVec.ofBool b).setWidth 16).toNat = nextDividend c.toNat b % 2 ^ 16 := by
  have hshift : (c <<< 1).toNat = 2 * c.toNat % 2 ^ 16 := by rw [BitVec.toNat_shiftLeft, Nat.shiftLeft_eq, pow_one, Nat.mul_comm]
  cases b with
  | false => rw [BitVec.toNat_xor, hshift]; exact Nat.xor_zero _
  | true =>
    have heven : Even (2 * c.toNat % 2 ^ 16) := Nat.even_iff.mpr (by omega)
    rw [BitVec.toNat_xor, hshift]
    exact (Nat.xor_one_of_even heven).trans (by simp only [nextDividend, if_true]; omega)

/-- One bit is one step of the long division. -/
theorem toNat_crcBit (c : BitVec 16) (b : Bool) : (crcBit c b).toNat = divisionStep c.toNat b := by
  have hc := c.isLt
  have hbit : (if b then 1 else 0) < 2 := by split <;> decide
  cases hmsb : c.msb with
  | false =>
    have hlt : c.toNat < 2 ^ 15 := by simpa [BitVec.msb_eq_decide] using hmsb
    have hsmall : nextDividend c.toNat b < 2 ^ 16 := by simp only [nextDividend]; omega
    rw [crcBit, crcShift, hmsb, if_neg Bool.false_ne_true, toNat_shiftLeft_xor_bit, Nat.mod_eq_of_lt hsmall, divisionStep,
      if_pos hsmall]
  | true =>
    have hge : 2 ^ 15 ≤ c.toNat := by simpa [BitVec.msb_eq_decide] using hmsb
    have hlarge : 2 ^ 16 ≤ nextDividend c.toNat b := by simp only [nextDividend]; omega
    have hsmall : nextDividend c.toNat b < 2 ^ 17 := by simp only [nextDividend]; omega
    rw [crcBit, crcShift, hmsb, if_pos rfl, bitVec_xor_right_comm, BitVec.toNat_xor, toNat_shiftLeft_xor_bit, divisionStep,
      if_neg (Nat.not_lt.mpr hlarge), xor_polynomial hlarge hsmall]
    rfl

/-- The register after the bits `n-1` down to 0 of `v`. -/
def crcBits (v : Nat) : Nat → BitVec 16 → BitVec 16
  | 0, c => c
  | n + 1, c => crcBits v n (crcBit c (v.testBit n))

theorem toNat_crcBits (v n : Nat) (c : BitVec 16) : (crcBits v n c).toNat = gf2Remainder v n c.toNat := by
  induction n generalizing c with
  | zero => rfl
  | succ n ih => rw [crcBits, ih, toNat_crcBit, gf2Remainder_succ]

/-- The register and the bits enter separately. -/
theorem crcBits_eq (v n : Nat) (c : BitVec 16) : crcBits v n c = Nat.repeat crcShift n c ^^^ crcBits v n 0#16 := by
  induction n generalizing c with
  | zero => exact (BitVec.xor_zero).symm
  | succ n ih =>
    have hzero : crcShift 0#16 = 0#16 := rfl
    rw [crcBits, crcBits, ih (crcBit c _), ih (crcBit 0#16 _), crcBit, crcBit, hzero, repeat_crcShift_xor, BitVec.zero_xor,
      repeat_crcShift_succ, BitVec.xor_assoc]

/-- From an empty register the bits of a byte are the byte. -/
theorem crcBits_zero : ∀ b : Byte, crcBits b.toNat 8 0#16 = b.setWidth 16 := by decide +kernel

/-- A register of degree below 8 is shifted eight times without a reduction. -/
theorem repeat_crcShift_setWidth : ∀ b : Byte, Nat.repeat crcShift 8 (b.setWidth 16) = b.setWidth 16 <<< 8 := by decide +kernel

theorem eq_high_xor_low (c : BitVec 16) : c = ((c.extractLsb' 8 8).setWidth 16 <<< 8) ^^^ (c.setWidth 8).setWidth 16 := by
  ext i hi
  by_cases h : i < 8
  · simp [h, hi]
  · simp [h, hi, show i - 8 < 8 by omega, show 8 + (i - 8) = i by omega]

/-- One byte of the table-driven register (R102) is eight steps of the long division. -/
theorem crcUpdate_eq_crcBits (c : BitVec 16) (b : Byte) : crcUpdate c b = crcBits b.toNat 8 c := by
  have hlow : (c.setWidth 8).setWidth 16 <<< 8 = c <<< 8 := by
    ext i hi
    by_cases h : i < 8
    · simp [h]
    · simp [h, show i - 8 < 16 by omega, show i - 8 < 8 by omega]
  have hrepeat : Nat.repeat crcShift 8 c = crcTable (c.extractLsb' 8 8) ^^^ (c <<< 8) := by
    rw [eq_high_xor_low c, repeat_crcShift_xor, repeat_crcShift_setWidth, hlow, ← eq_high_xor_low c, crcTable]
  rw [crcBits_eq, crcBits_zero, hrepeat, crcUpdate]

/-! ## The dividend, in two parts -/

/-- The division of `m` bits reads no other. -/
theorem gf2Remainder_low (v : Nat) {w m : Nat} (hw : w < 2 ^ m) {n : Nat} (hn : n ≤ m) (r : Nat) :
    gf2Remainder (2 ^ m * v + w) n r = gf2Remainder w n r := by
  induction n generalizing r with
  | zero => rfl
  | succ n ih =>
    rw [gf2Remainder_succ, gf2Remainder_succ, ih (Nat.le_of_lt hn), Nat.testBit_two_pow_mul_add v hw, if_pos (Nat.lt_of_succ_le hn)]

/-- The remainder of the high bits goes on with the low ones. -/
theorem gf2Remainder_append (v : Nat) {w m : Nat} (hw : w < 2 ^ m) (n r : Nat) :
    gf2Remainder (2 ^ m * v + w) (n + m) r = gf2Remainder w m (gf2Remainder v n r) := by
  induction n generalizing r with
  | zero =>
    rw [Nat.zero_add]
    exact gf2Remainder_low v hw le_rfl r
  | succ n ih =>
    have hbit : (2 ^ m * v + w).testBit (n + m) = v.testBit n := by
      rw [Nat.testBit_two_pow_mul_add v hw, if_neg (by omega), Nat.add_sub_cancel]
    rw [Nat.add_right_comm, gf2Remainder_succ, gf2Remainder_succ, ih, hbit]

/-- The register is the remainder of the bytes read as one big-endian bit string (R106). -/
theorem toNat_crcValue (data : Bytes) : (crcValue data).toNat = gf2Remainder (beNat data) (8 * data.length) 0 := by
  induction data using List.reverseRecOn with
  | nil => rfl
  | append_singleton data b ih =>
    have hvalue : crcValue (data ++ [b]) = crcUpdate (crcValue data) b := by rw [crcValue, List.foldl_append]; rfl
    have hnat : beNat (data ++ [b]) = 2 ^ 8 * beNat data + b.toNat := by
      rw [beNat_append, beNat_singleton, Nat.mul_comm]
      rfl
    rw [hvalue, crcUpdate_eq_crcBits, toNat_crcBits, ih, hnat, List.length_append, List.length_singleton, Nat.mul_add]
    exact (gf2Remainder_append (beNat data) b.isLt _ _).symm

/-- The check bytes are the register, low byte first (R103). -/
theorem crcBytes_eq_toLE (data : Bytes) : crcBytes data = toLE 2 (crcValue data).toNat := by
  have hlow : (crcValue data).extractLsb' 0 8 = BitVec.ofNat 8 (crcValue data).toNat := rfl
  have hhigh : (crcValue data).extractLsb' 8 8 = BitVec.ofNat 8 ((crcValue data).toNat / 256) :=
    congrArg (BitVec.ofNat 8) (Nat.shiftRight_eq_div_pow _ 8)
  rw [crcBytes, hlow, hhigh]
  rfl

/-- Settles O9, by induction on the bytes from the left. -/
theorem crcIsThePolynomialRemainder : Obligations.CrcIsThePolynomialRemainder := by
  refine fun data => ⟨toNat_crcValue data, fun s => ?_⟩
  rw [exec_crcCompute, crcBytes_eq_toLE, toNat_crcValue]

end Sys2Proof.Machine
end

section
/-! PROOFS. The UAT sub-decoder (45_uat.md R270 to R285): the scan of I-frames and the fields of an application PDU, then O57 and O58;
the symbols of a DLAC text and their packing, then O59 and O60. -/

namespace Sys2Proof.Machine

/-! ## I-frames -/

section
variable {h0 h1 : Byte} {rest : Bytes} {fuel : Nat}

/-- The frame at a header: what follows, cut to its length (R271). -/
abbrev iframeAt (h0 h1 : Byte) (rest : Bytes) : IFrame :=
  { length := BitVec.ofNat 16 (iframeLength h0 h1), type := h1 &&& 0x0F#8, data := rest.take (iframeLength h0 h1) }

theorem iframesFrom_of_zero : iframesFrom fuel (0x00#8 :: 0x00#8 :: rest) = [] := by
  cases fuel <;> rfl

theorem iframesFrom_of_overrun (h : ¬ (h0 = 0x00#8 ∧ h1 = 0x00#8)) (hlt : rest.length < iframeLength h0 h1) :
    iframesFrom (fuel + 1) (h0 :: h1 :: rest) = [iframeAt h0 h1 rest] := (if_neg h).trans (if_pos hlt)

theorem iframesFrom_of_fits (h : ¬ (h0 = 0x00#8 ∧ h1 = 0x00#8)) (hle : iframeLength h0 h1 ≤ rest.length) :
    iframesFrom (fuel + 1) (h0 :: h1 :: rest) =
      iframeAt h0 h1 rest :: iframesFrom fuel (rest.drop (iframeLength h0 h1)) :=
  (if_neg h).trans (if_neg (Nat.not_lt.mpr hle))

end

/-- A header takes two bytes, so as many units of fuel as bytes are enough. -/
theorem iframesFrom_eq_iframes {fuel : Nat} {data : Bytes} (h : data.length ≤ fuel) : iframesFrom fuel data = iframes data := by
  rw [iframes]
  suffices ∀ more, data.length ≤ more → iframesFrom fuel data = iframesFrom more data from this _ le_rfl
  induction fuel generalizing data with
  | zero =>
    intro more _
    cases List.length_eq_zero_iff.mp (Nat.le_zero.mp h)
    cases more <;> rfl
  | succ fuel ih =>
    intro more hmore
    match data, more with
    | [], 0 | [], _ + 1 | [_], _ + 1 => rfl
    | h0 :: h1 :: rest, more + 1 =>
      by_cases hzero : h0 = 0x00#8 ∧ h1 = 0x00#8
      · obtain ⟨rfl, rfl⟩ := hzero
        rw [iframesFrom_of_zero, iframesFrom_of_zero]
      · rcases Nat.lt_or_ge rest.length (iframeLength h0 h1) with hlt | hle
        · rw [iframesFrom_of_overrun hzero hlt, iframesFrom_of_overrun hzero hlt]
        · have hdrop := List.length_drop (i := iframeLength h0 h1) (l := rest)
          simp only [List.length_cons] at h hmore
          rw [iframesFrom_of_fits hzero hle, iframesFrom_of_fits hzero hle, ih (by omega) more (by omega)]

theorem and_low_nibble (b : Byte) : b &&& 0x0F#8 = BitVec.ofNat 8 (b.toNat % 16) := by
  apply BitVec.eq_of_toNat_eq
  have hand : (b &&& 0x0F#8).toNat = b.toNat % 16 := Nat.and_two_pow_sub_one_eq_mod b.toNat 4
  rw [hand, BitVec.toNat_ofNat, Nat.mod_eq_of_lt (show b.toNat % 16 < 2 ^ 8 by omega)]

theorem exec_uatIframes (data : Bytes) (s : State) :
    exec (.uatIframes data) s = .next (s.okWith (putU32 (iframes data).length ++ (iframes data).flatMap putIFrame)) := rfl

section
variable {h0 h1 : Byte} {rest : Bytes} (h : ¬ (h0 = 0x00#8 ∧ h1 = 0x00#8))
include h

theorem iframes_of_overrun (hlt : rest.length < iframeLength h0 h1) : iframes (h0 :: h1 :: rest) =
    [{ length := BitVec.ofNat 16 (iframeLength h0 h1), type := BitVec.ofNat 8 (h1.toNat % 16), data := rest }] := by
  rw [iframes, List.length_cons, iframesFrom_of_overrun h hlt, iframeAt, List.take_of_length_le (Nat.le_of_lt hlt),
    and_low_nibble]

theorem iframes_of_fits (hle : iframeLength h0 h1 ≤ rest.length) : iframes (h0 :: h1 :: rest) =
    { length := BitVec.ofNat 16 (iframeLength h0 h1), type := BitVec.ofNat 8 (h1.toNat % 16),
      data := rest.take (iframeLength h0 h1) } :: iframes (rest.drop (iframeLength h0 h1)) := by
  have hdrop : (rest.drop (iframeLength h0 h1)).length ≤ rest.length + 1 := by
    rw [List.length_drop]
    omega
  rw [iframes, List.length_cons, iframesFrom_of_fits h hle, List.length_cons, iframesFrom_eq_iframes hdrop, iframeAt,
    and_low_nibble]

end

/-- Settles O57, by the header's three cases. -/
theorem iframeScan : Obligations.IframeScan := by
  refine ⟨exec_uatIframes, rfl, fun _ => rfl, fun _ => iframesFrom_of_zero, fun h0 h1 rest h => ?_⟩
  exact ⟨iframes_of_overrun h, iframes_of_fits h⟩

/-! ## Application PDUs -/

section
variable (d0 d1 d2 d3 : Byte)

theorem toNat_apduProductId : (((d0 &&& 0x1F#8).setWidth 16 <<< 6) ||| (d1.setWidth 16 >>> 2)).toNat =
    d0.toNat % 32 * 64 + d1.toNat / 4 := by
  have h1 := d1.isLt
  have hand : (d0 &&& 0x1F#8).toNat = d0.toNat % 32 := Nat.and_two_pow_sub_one_eq_mod d0.toNat 5
  rw [BitVec.toNat_or, BitVec.toNat_shiftLeft, BitVec.toNat_ushiftRight, BitVec.toNat_setWidth, BitVec.toNat_setWidth, hand,
    Nat.mod_eq_of_lt (show d0.toNat % 32 < 2 ^ 16 by omega), Nat.mod_eq_of_lt (show d1.toNat < 2 ^ 16 by omega), Nat.shiftLeft_eq,
    Nat.mod_eq_of_lt (by omega), Nat.shiftRight_eq_div_pow, ← Nat.shiftLeft_eq,
    ← Nat.shiftLeft_add_eq_or_of_lt (show d1.toNat / 2 ^ 2 < 2 ^ 6 by omega), Nat.shiftLeft_eq]
  rfl

theorem apduHour_eq : (d2 >>> 2) &&& 0x1F#8 = BitVec.ofNat 8 (d2.toNat / 4 % 32) := by
  have hand : ((d2 >>> 2) &&& 0x1F#8).toNat = (d2 >>> 2).toNat % 32 := Nat.and_two_pow_sub_one_eq_mod (d2 >>> 2).toNat 5
  apply BitVec.eq_of_toNat_eq
  rw [hand, BitVec.toNat_ushiftRight, BitVec.toNat_ofNat, Nat.shiftRight_eq_div_pow,
    Nat.mod_eq_of_lt (show d2.toNat / 4 % 32 < 2 ^ 8 by omega)]

theorem apduMinute_eq : ((d2 &&& 0x03#8) <<< 4) ||| (d3 >>> 4) = BitVec.ofNat 8 (d2.toNat % 4 * 16 + d3.toNat / 16) := by
  have h3 := d3.isLt
  have hand : (d2 &&& 0x03#8).toNat = d2.toNat % 4 := Nat.and_two_pow_sub_one_eq_mod d2.toNat 2
  apply BitVec.eq_of_toNat_eq
  rw [BitVec.toNat_or, BitVec.toNat_shiftLeft, BitVec.toNat_ushiftRight, hand, BitVec.toNat_ofNat, Nat.shiftLeft_eq,
    Nat.mod_eq_of_lt (show d2.toNat % 4 * 2 ^ 4 < 2 ^ 8 by omega), Nat.shiftRight_eq_div_pow, ← Nat.shiftLeft_eq,
    ← Nat.shiftLeft_add_eq_or_of_lt (show d3.toNat / 2 ^ 4 < 2 ^ 4 by omega), Nat.shiftLeft_eq]
  omega

end

theorem exec_uatApdu (data : Bytes) (s : State) :
    exec (.uatApdu data) s = .next (s.okWith (putOptionResult putApdu (apduOf data))) := rfl

theorem apduOf_of_short {data : Bytes} (h : data.length < 4) : apduOf data = none := by
  match data with
  | [] | [_] | [_, _] | [_, _, _] => rfl
  | _ :: _ :: _ :: _ :: rest => exact absurd h (Nat.not_lt.mpr (Nat.le_add_left 4 rest.length))

/-- Settles O58, field by field. -/
theorem apduFields : Obligations.ApduFields := by
  refine ⟨fun s data h => ?_, fun s d0 d1 d2 d3 payload => ?_⟩
  · rw [exec_uatApdu, apduOf_of_short h]
    rfl
  · rw [exec_uatApdu, apduOf, putOptionResult, putApdu, toNat_apduProductId, apduHour_eq, apduMinute_eq]

/-! ## DLAC symbols -/

section
variable {A : List Byte} {data : Bytes} {fuel i : Nat}

theorem dlacFrom_of_end (h : 8 * data.length < 6 * i + 6) : dlacFrom A data fuel i = [] := by
  cases fuel with
  | zero => rfl
  | succ fuel => exact if_neg (Nat.not_le.mpr h)

theorem dlacFrom_of_zero (hc : getbits data (6 * i) 6 = 0) : dlacFrom A data fuel i = [] := by
  cases fuel with
  | zero => rfl
  | succ fuel =>
    rw [dlacFrom]
    split
    · exact if_pos hc
    · rfl

theorem dlacFrom_of_symbol {c : Nat} (h : 6 * i + 6 ≤ 8 * data.length) (hc : getbits data (6 * i) 6 = c) (hne : c ≠ 0) :
    dlacFrom A data (fuel + 1) i = A.getD c 0#8 :: dlacFrom A data fuel (i + 1) := by
  subst hc
  exact (if_pos h).trans (if_neg hne)

theorem length_dlacFrom_le (A : List Byte) (data : Bytes) (fuel i : Nat) : (dlacFrom A data fuel i).length ≤ fuel := by
  induction fuel generalizing i with
  | zero => exact le_rfl
  | succ fuel ih =>
    rw [dlacFrom]
    dsimp only
    split_ifs
    · exact Nat.zero_le _
    · exact Nat.succ_le_succ (ih (i + 1))
    · exact Nat.zero_le _

end

section
variable (b0 b1 b2 : Byte) (rest : Bytes)

/-! The cursor table of R281: the four symbols of three bytes. -/

theorem getbits_symbol0 : getbits (b0 :: rest) 0 6 = b0.toNat / 4 := by
  have h0 := b0.isLt
  refine (getbits_append [] [b0] rest (i := 0) (w := 6) (by simp)).trans ?_
  rw [getbits, beNat_singleton, Nat.shiftRight_eq_div_pow, List.length_singleton]
  omega

theorem getbits_symbol1 : getbits (b0 :: b1 :: rest) 6 6 = b0.toNat % 4 * 16 + b1.toNat / 16 := by
  have h1 := b1.isLt
  refine (getbits_append [] [b0, b1] rest (i := 6) (w := 6) (by simp)).trans ?_
  rw [getbits, beNat_pair, Nat.shiftRight_eq_div_pow, List.length_cons, List.length_singleton]
  omega

theorem getbits_symbol2 : getbits (b0 :: b1 :: b2 :: rest) 12 6 = b1.toNat % 16 * 4 + b2.toNat / 64 := by
  have h2 := b2.isLt
  refine (getbits_append [b0] [b1, b2] rest (i := 4) (w := 6) (by simp)).trans ?_
  rw [getbits, beNat_pair, Nat.shiftRight_eq_div_pow, List.length_cons, List.length_singleton]
  omega

theorem getbits_symbol3 : getbits (b0 :: b1 :: b2 :: rest) 18 6 = b2.toNat % 64 := by
  refine (getbits_append [b0, b1] [b2] rest (i := 2) (w := 6) (by simp)).trans ?_
  rw [getbits, beNat_singleton, Nat.shiftRight_eq_div_pow, List.length_singleton]
  omega

/-- The symbols behind three bytes are those of the bytes that follow. -/
theorem dlacFrom_drop_group (A : List Byte) (fuel i : Nat) :
    dlacFrom A (b0 :: b1 :: b2 :: rest) fuel (i + 4) = dlacFrom A rest fuel i := by
  induction fuel generalizing i with
  | zero => rfl
  | succ fuel ih =>
    by_cases h : 6 * i + 6 ≤ 8 * rest.length
    · have hsymbol : getbits (b0 :: b1 :: b2 :: rest) (6 * (i + 4)) 6 = getbits rest (6 * i) 6 := by
        have := getbits_append [b0, b1, b2] rest [] h
        rw [List.append_nil] at this
        rw [← this, Nat.mul_add, Nat.add_comm]
        rfl
      by_cases hzero : getbits rest (6 * i) 6 = 0
      · rw [dlacFrom_of_zero hzero, dlacFrom_of_zero (hsymbol.trans hzero)]
      · rw [dlacFrom_of_symbol h rfl hzero, dlacFrom_of_symbol (by simp only [List.length_cons]; omega) hsymbol hzero,
          Nat.add_right_comm, ih]
    · rw [dlacFrom_of_end (Nat.lt_of_not_le h), dlacFrom_of_end (by simp only [List.length_cons]; omega)]

/-- Three bytes more are four symbols more to read. -/
theorem dlacDecode_group (A : List Byte) : dlacDecode A (b0 :: b1 :: b2 :: rest) =
    dlacFrom A (b0 :: b1 :: b2 :: rest) (8 * rest.length / 6 + 4) 0 := by
  rw [dlacDecode, List.length_cons, List.length_cons, List.length_cons]
  congr 1
  omega

end

theorem exec_dlacDecode (data : Bytes) (s : State) :
    exec (.dlacDecode data) s = .next (s.okWith (putBytesResult (dlacDecode s.params.dlacAlphabet data))) := rfl

/-- Settles O59, symbol by symbol. -/
theorem dlacReadsSymbolsToTheEnd : Obligations.DlacReadsSymbolsToTheEnd := by
  refine ⟨fun data s => ⟨exec_dlacDecode data s, length_dlacFrom_le ..⟩, fun A => ⟨rfl, fun b0 b1 b2 rest => ?_⟩⟩
  intro c0 c1 c2 c3 group
  have h0 (data : Bytes) : getbits (b0 :: data) (6 * 0) 6 = c0 := getbits_symbol0 b0 data
  have h1 (data : Bytes) : getbits (b0 :: b1 :: data) (6 * 1) 6 = c1 := getbits_symbol1 b0 b1 data
  have h2 : getbits group (6 * 2) 6 = c2 := getbits_symbol2 b0 b1 b2 rest
  have h3 : getbits group (6 * 3) 6 = c3 := getbits_symbol3 b0 b1 b2 rest
  have hgroup : dlacDecode A group = dlacFrom A group (8 * rest.length / 6 + 4) 0 := dlacDecode_group b0 b1 b2 rest A
  have hbits : 24 ≤ 8 * group.length := by simp only [group, List.length_cons]; omega
  have goOn0 (hc : c0 ≠ 0) : dlacDecode A group = A.getD c0 0#8 :: dlacFrom A group (8 * rest.length / 6 + 3) 1 :=
    hgroup.trans (dlacFrom_of_symbol (by omega) (h0 _) hc)
  have goOn1 (hc : c1 ≠ 0) : dlacFrom A group (8 * rest.length / 6 + 3) 1 =
      A.getD c1 0#8 :: dlacFrom A group (8 * rest.length / 6 + 2) 2 := dlacFrom_of_symbol (by omega) (h1 _) hc
  have goOn2 (hc : c2 ≠ 0) : dlacFrom A group (8 * rest.length / 6 + 2) 2 =
      A.getD c2 0#8 :: dlacFrom A group (8 * rest.length / 6 + 1) 3 := dlacFrom_of_symbol (by omega) h2 hc
  have goOn3 (hc : c3 ≠ 0) : dlacFrom A group (8 * rest.length / 6 + 1) 3 = A.getD c3 0#8 :: dlacDecode A rest :=
    (dlacFrom_of_symbol (by omega) h3 hc).trans (congrArg _ (dlacFrom_drop_group b0 b1 b2 rest A _ 0))
  have one (hc : c0 ≠ 0) : dlacDecode A [b0] = [A.getD c0 0#8] := by
    rw [dlacDecode, List.length_singleton]
    exact dlacFrom_of_symbol (by simp) (h0 []) hc
  have two (hc : c0 ≠ 0) : dlacDecode A [b0, b1] = A.getD c0 0#8 :: dlacFrom A [b0, b1] 1 1 := by
    rw [dlacDecode, List.length_cons, List.length_singleton]
    exact dlacFrom_of_symbol (by simp) (h0 [b1]) hc
  refine ⟨fun n0 n1 n2 n3 => ?_, fun z0 => ?_, fun n0 z1 => ?_, fun n0 n1 z2 => ?_, fun n0 n1 n2 z3 => ?_,
    fun z0 => ⟨dlacFrom_of_zero ((h0 _).trans z0), dlacFrom_of_zero ((h0 _).trans z0)⟩, one, fun n0 z1 => ?_, fun n0 n1 => ?_⟩
  · rw [goOn0 n0, goOn1 n1, goOn2 n2, goOn3 n3]
    rfl
  · exact dlacFrom_of_zero ((h0 _).trans z0)
  · rw [goOn0 n0, dlacFrom_of_zero ((h1 _).trans z1)]
  · rw [goOn0 n0, goOn1 n1, dlacFrom_of_zero (h2.trans z2)]
  · rw [goOn0 n0, goOn1 n1, goOn2 n2, dlacFrom_of_zero (h3.trans z3)]
  · rw [two n0, dlacFrom_of_zero ((h1 _).trans z1)]
  · rw [two n0, dlacFrom_of_symbol (by simp) (h1 _) n1]
    rfl

/-! ## Packed symbols -/

/-- The integer whose base-64 digits are the symbols, most significant first. -/
def symbolsNat (l : List Nat) : Nat := l.foldl (fun a c => a * 64 + c) 0

theorem foldl_symbols (l : List Nat) (a : Nat) : l.foldl (fun a c => a * 64 + c) a = a * 64 ^ l.length + symbolsNat l := by
  induction l generalizing a with
  | nil => simp [symbolsNat]
  | cons c l ih =>
    have hcons : symbolsNat (c :: l) = c * 64 ^ l.length + symbolsNat l := by
      rw [symbolsNat, List.foldl_cons, Nat.zero_mul, Nat.zero_add, ih]
    rw [List.foldl_cons, ih, hcons, List.length_cons, pow_succ]
    ring

theorem symbolsNat_append (l m : List Nat) : symbolsNat (l ++ m) = symbolsNat l * 64 ^ m.length + symbolsNat m := by
  rw [symbolsNat, List.foldl_append, foldl_symbols]
  rfl

theorem symbolsNat_cons (c : Nat) (l : List Nat) : symbolsNat (c :: l) = c * 64 ^ l.length + symbolsNat l := by
  rw [symbolsNat, List.foldl_cons, Nat.zero_mul, Nat.zero_add, foldl_symbols]

theorem symbolsNat_lt {l : List Nat} (h : ∀ c ∈ l, c < 64) : symbolsNat l < 64 ^ l.length := by
  induction l with
  | nil => exact Nat.one_pos
  | cons c l ih =>
    obtain ⟨hc, hl⟩ := List.forall_mem_cons.mp h
    have := ih hl
    rw [symbolsNat_cons, List.length_cons, pow_succ]
    nlinarith

/-- A digit of the integer is its symbol. -/
theorem symbolsNat_digit {front back : List Nat} {c : Nat} (hc : c < 64) (hback : ∀ d ∈ back, d < 64) :
    symbolsNat (front ++ c :: back) / 64 ^ back.length % 64 = c := by
  have hlt := symbolsNat_lt hback
  have hsplit : symbolsNat (front ++ c :: back) = 64 ^ back.length * (symbolsNat front * 64 + c) + symbolsNat back := by
    rw [symbolsNat_append, symbolsNat_cons, List.length_cons, pow_succ]
    ring
  rw [hsplit, Nat.mul_add_div (by positivity), Nat.div_eq_of_lt hlt, Nat.add_zero, Nat.mul_add_mod_self_right,
    Nat.mod_eq_of_lt hc]

/-- Each packed symbol is read back from its six bits (R280, R285). -/
theorem getbits_packSymbols {front back : List Nat} {c : Nat} (h : ∀ d ∈ front ++ c :: back, d < 64) :
    getbits (packSymbols (front ++ c :: back)) (6 * front.length) 6 = c := by
  have hvalue := symbolsNat_lt h
  have hback : ∀ d ∈ back, d < 64 := fun d hd => h d (List.mem_append_right _ (List.mem_cons_of_mem _ hd))
  have hc : c < 64 := h c (List.mem_append_right _ List.mem_cons_self)
  have hlength : (front ++ c :: back).length = front.length + back.length + 1 := by
    rw [List.length_append, List.length_cons, Nat.add_assoc]
  generalize hv : symbolsNat (front ++ c :: back) = v at hvalue
  generalize hn : (6 * (front ++ c :: back).length + 7) / 8 = n
  have hdata : packSymbols (front ++ c :: back) = toBE n (v <<< (8 * n - 6 * (front ++ c :: back).length)) := by
    rw [packSymbols, ← symbolsNat, hv, hn]
  rw [hlength] at hn hdata hvalue
  generalize hpad : 8 * n - 6 * (front.length + back.length + 1) = pad at hdata
  have hlt : v <<< pad < 256 ^ n := by
    rw [Nat.shiftLeft_eq]
    calc
      v * 2 ^ pad < 64 ^ (front.length + back.length + 1) * 2 ^ pad := Nat.mul_lt_mul_of_pos_right hvalue (Nat.two_pow_pos pad)
      _ = 2 ^ (6 * (front.length + back.length + 1) + pad) := by rw [Nat.pow_add 2, Nat.pow_mul 2 6]
      _ = 2 ^ (8 * n) := by congr 1; omega
      _ = 256 ^ n := Nat.pow_mul 2 8 n
  have hshift : 8 * n - 6 * front.length - 6 = pad + 6 * back.length := by omega
  have hdigit := symbolsNat_digit (front := front) hc hback
  rw [hdata, getbits, beNat_toBE_of_lt hlt, toBE_length, hshift, Nat.shiftRight_add, Nat.shiftLeft_shiftRight,
    Nat.shiftRight_eq_div_pow, Nat.pow_mul, ← hv]
  exact hdigit

/-- The bytes of a packed text have room for its symbols. -/
theorem length_packSymbols (l : List Nat) : (packSymbols l).length = (6 * l.length + 7) / 8 := toBE_length ..

/-- The decoder reads the packed symbols one after the other, up to symbol 0. -/
theorem dlacFrom_packSymbols (A : List Byte) {l front : List Nat} {fuel : Nat} (h : ∀ c ∈ front ++ (l ++ [0]), c < 64)
    (hl : ∀ c ∈ l, c ≠ 0) (hfuel : l.length ≤ fuel) :
    dlacFrom A (packSymbols (front ++ (l ++ [0]))) fuel front.length = l.map fun c => A.getD c 0#8 := by
  induction l generalizing front fuel with
  | nil => exact dlacFrom_of_zero (getbits_packSymbols (back := []) h)
  | cons c l ih =>
    obtain ⟨fuel, rfl⟩ : ∃ n, fuel = n + 1 := ⟨fuel - 1, by rw [List.length_cons] at hfuel; omega⟩
    obtain ⟨hc, hl⟩ := List.forall_mem_cons.mp hl
    have hroom : 6 * front.length + 6 ≤ 8 * (packSymbols (front ++ (c :: (l ++ [0])))).length := by
      rw [length_packSymbols, List.length_append, List.length_cons]
      omega
    have happend : front ++ c :: (l ++ [0]) = (front ++ [c]) ++ (l ++ [0]) := by simp
    have hrest := ih (front := front ++ [c]) (happend ▸ h) hl (Nat.le_of_succ_le_succ hfuel)
    rw [← happend, List.length_append, List.length_singleton] at hrest
    exact (dlacFrom_of_symbol hroom (getbits_packSymbols h) hc).trans (congrArg _ hrest)

/-! ## The default alphabet -/

/-- A byte behind the entry of symbol 0 has a symbol, which reads as it (R285). -/
theorem dlacSymbolOf_cons (a : Byte) {rest : List Byte} {b : Byte} (h : b ∈ rest) :
    ∃ k, dlacSymbolOf (a :: rest) b = some (k + 1) ∧ k < rest.length ∧ rest[k]? = some b := by
  cases hk : rest.findIdx? (fun x => x == b) with
  | none => exact absurd (List.findIdx?_eq_none_iff.mp hk b h) (by simp)
  | some k =>
    obtain ⟨hlt, hb, -⟩ := List.findIdx?_eq_some_iff_getElem.mp hk
    exact ⟨k, congrArg (Option.map (· + 1)) hk, hlt, by rw [List.getElem?_eq_getElem hlt, beq_iff_eq.mp hb]⟩

/-- A byte of the default alphabet but 0x03 has a symbol other than 0, which reads as it (R284, R285). -/
theorem dlacSymbolOf_eq_some {b : Byte} (h : b ∈ dlacAlphabetDefault) (hne : b ≠ 0x03#8) :
    ∃ c, dlacSymbolOf dlacAlphabetDefault b = some c ∧ c ≠ 0 ∧ c < 64 ∧ dlacAlphabetDefault.getD c 0#8 = b := by
  have hsplit : dlacAlphabetDefault = 0x03#8 :: dlacAlphabetDefault.tail := by decide
  rw [hsplit] at h ⊢
  obtain ⟨k, hk, hlt, hread⟩ := dlacSymbolOf_cons 0x03#8 ((List.mem_cons.mp h).resolve_left hne)
  exact ⟨k + 1, hk, Nat.succ_ne_zero k, Nat.succ_lt_succ hlt, by
    rw [List.getD_eq_getElem?_getD, List.getElem?_cons_succ, hread, Option.getD_some]⟩

/-- Every text over the alphabet has its list of symbols. -/
theorem mapM_dlacSymbolOf {text : Bytes} (h : ∀ b ∈ text, b ∈ dlacAlphabetDefault ∧ b ≠ 0x03#8) :
    ∃ l, text.mapM (dlacSymbolOf dlacAlphabetDefault) = some l ∧ (∀ c ∈ l, c ≠ 0 ∧ c < 64) ∧
      (l.map fun c => dlacAlphabetDefault.getD c 0#8) = text := by
  induction text with
  | nil => exact ⟨[], rfl, nofun, rfl⟩
  | cons b text ih =>
    obtain ⟨hb, htext⟩ := List.forall_mem_cons.mp h
    obtain ⟨c, hc, hne, hlt, hread⟩ := dlacSymbolOf_eq_some hb.1 hb.2
    obtain ⟨l, hl, hsymbols, hmap⟩ := ih htext
    refine ⟨c :: l, ?_, List.forall_mem_cons.mpr ⟨⟨hne, hlt⟩, hsymbols⟩, ?_⟩
    · rw [List.mapM_cons, hc, hl]
      rfl
    · rw [List.map_cons, hread, hmap]

/-- Settles O60, by reading each packed symbol back. -/
theorem dlacEncodingDecodesBack : Obligations.DlacEncodingDecodesBack := by
  intro text s halphabet h
  obtain ⟨l, hl, hsymbols, hmap⟩ := mapM_dlacSymbolOf h
  refine ⟨packSymbols (l ++ [0]), by rw [dlacEncode, hl, Option.map_some], ?_⟩
  have hfuel : l.length ≤ 8 * (packSymbols (l ++ [0])).length / 6 := by
    rw [length_packSymbols, List.length_append, List.length_singleton]
    omega
  have hall : ∀ c ∈ l ++ [0], c < 64 := List.forall_mem_append.mpr ⟨fun c hc => (hsymbols c hc).2, by simp⟩
  have hdecode : dlacDecode dlacAlphabetDefault (packSymbols (l ++ [0])) = text :=
    (dlacFrom_packSymbols (front := []) _ hall (fun c hc => (hsymbols c hc).1) hfuel).trans hmap
  rw [exec_dlacDecode, halphabet, hdecode]

end Sys2Proof.Machine
end
